-- ==== Sys2Proof/Word.lean ====
section
/-! DEFINITION. The LC-3b's two data widths (spec/00_scope.md R7). -/

namespace Sys2Proof

/-- One memory location: 8 bits (spec/10_state.md R39). -/
abbrev Byte := BitVec 8

/-- A word, an address or a register: 16 bits (spec/00_scope.md R7). -/
abbrev Word := BitVec 16

end Sys2Proof
end

