-- ==== Sys2Proof/Machine/Bits.lean ====
section
/-! DEFINITION. The notation of spec/00_scope.md section 5 on bit vectors. -/

namespace Sys2Proof.Machine

/-- `SEXT` (spec/00_scope.md R14): the most significant bit is replicated up to 16 bits. -/
def sext16 {n : Nat} (v : BitVec n) : Word := v.signExtend 16

/-- `ZEXT` (spec/00_scope.md R15). -/
def zext16 {n : Nat} (v : BitVec n) : Word := v.setWidth 16

/-- Left shift with zero fill (spec/00_scope.md R12). -/
def shl (a : Word) (b : Nat) : Word := a <<< b

/-- Right shift filling with the bit `c` (spec/00_scope.md R13). -/
def shr (a : Word) (b : Nat) (c : Bool) : Word :=
  if c then ~~~(~~~a >>> b) else a >>> b

/-- A word address with bit 0 treated as 0 (spec/20_memory.md R53; spec/10_state.md R26). -/
def alignWord (a : Word) : Word := a &&& 0xFFFE

end Sys2Proof.Machine
end

