-- ==== Sys2Proof/Config.lean ====
section
/-! DEFINITION. The parameters of spec/00_scope.md R8: those a run fixes as plain data, and as constants with no
body the device's behaviour and the values the spec leaves free. -/

namespace Sys2Proof

/-- `RESERVED_POLICY` (spec/30_encoding.md R100): what a word with a violated fixed field does. -/
inductive ReservedPolicy where
  /-- The word has no meaning: `refuse(reserved_encoding)`. The spec's default. -/
  | refuse
  /-- The word is decoded by its opcode and mode bit alone. -/
  | ignoreBits
deriving DecidableEq, Repr

/-- `EXC_POLICY` (spec/60_exceptions.md R172): what a raised exception does. -/
inductive ExcPolicy where
  /-- The run ends in the fault state of the exception's name. The spec's default. -/
  | fault
  /-- The exception enters its handler through the vector table. -/
  | vector
deriving DecidableEq, Repr

/-- The parameters that stay fixed during a run. The two table parameters are functions from an 8-bit
number to an address; each is given by the finitely many numbers at which it departs from the
conventional `x0100 + 2 * number`. -/
structure Config where
  reservedPolicy : ReservedPolicy
  excPolicy      : ExcPolicy
  /-- `EXC_VECTOR_ADDR` where it departs from the convention (spec/60_exceptions.md R172). -/
  excVectors     : List (BitVec 8 × Word)
  /-- `INT_VECTOR_ADDR` where it departs from the convention (spec/60_exceptions.md R179). -/
  intVectors     : List (BitVec 8 × Word)
  /-- `HALT_PCS` (spec/70_reset_and_hazards.md R205). -/
  haltPcs        : List Word
deriving DecidableEq, Repr

/-- The spec's default or conventional values (spec/00_scope.md R8, spec/92_eei_decisions.md section 7;
logs 5, 6, 7 and 11). -/
def Config.conventional : Config where
  reservedPolicy := .refuse
  excPolicy      := .fault
  excVectors     := []
  intVectors     := []
  haltPcs        := [0x0000]

/-- A non-default `DEVICE` (spec/20_memory.md R62, spec/60_exceptions.md R190) is a transition system
whose states are coded by numbers. This is its answer to a byte read: the byte and the state after,
or `none` where it has no answer. No body: every claim holds for every device (log 8). -/
opaque Config.deviceReadByte : Nat → Word → Option (Byte × Nat)

/-- The device's answer to a word read at an even address (spec/20_memory.md R62; log 8). -/
opaque Config.deviceReadWord : Nat → Word → Option (Word × Nat)

/-- The device's state after a byte write, or `none` where it does not accept it
(spec/20_memory.md R62; log 8). -/
opaque Config.deviceWriteByte : Nat → Word → Byte → Option Nat

/-- The device's state after a word write at an even address, or `none` where it does not accept it
(spec/20_memory.md R62; log 8). -/
opaque Config.deviceWriteWord : Nat → Word → Word → Option Nat

/-- The device's own action between two processor steps (spec/60_exceptions.md R175, R190; log 8). -/
opaque Config.deviceTick : Nat → Nat

/-- Whether the device requests an interrupt on the source of this position: a Boolean function of the
device's state (spec/60_exceptions.md R175; log 9). -/
opaque Config.deviceRequest : Nat → Nat → Bool

/-- The byte of memory at an address to which neither the launch nor an instruction has given a value: a free
value (spec/70_reset_and_hazards.md R204, decision D25; log 4). No body: every claim holds whatever memory
held. -/
opaque Config.unwrittenByte : Nat → Byte

/-- How many boundaries with an accepted request the wait of this number lets pass before the entry: finitely
many, and which number is free (spec/60_exceptions.md R177, decision D27; log 10). -/
opaque Config.entryDelay : Nat → Nat

/-- Which of the equal highest sources is taken at the end of the wait of this number, counted around: a free
value (spec/60_exceptions.md R177, decision D27; log 10). -/
opaque Config.tieBreak : Nat → Nat

end Sys2Proof
end

