-- ==== Sys2Proof/Syntax.lean ====
section
/-! DEFINITION. Registers and instructions: one constructor of `Instr` per row of spec/opcode_table.json
(spec/30_encoding.md R84). -/

namespace Sys2Proof

/-- The eight general purpose registers as an instruction names them (spec/10_state.md R20). -/
inductive Reg where
  | r0 | r1 | r2 | r3 | r4 | r5 | r6 | r7
deriving DecidableEq, Repr

/-- The twenty instruction formats of spec/30_encoding.md R84, each with the fields of R82. Every
immediate is the raw field; its extension and scaling (R88) belong to the meanings. -/
inductive Instr where
  /-- ADD, register form (R110). -/
  | addReg (dr sr1 sr2 : Reg)
  /-- ADD, immediate form (R111). -/
  | addImm (dr sr1 : Reg) (imm5 : BitVec 5)
  /-- AND, register form (R112). -/
  | andReg (dr sr1 sr2 : Reg)
  /-- AND, immediate form (R113). -/
  | andImm (dr sr1 : Reg) (imm5 : BitVec 5)
  /-- BR with its three tested condition codes (R130, R90). -/
  | br (n z p : Bool) (pcOffset9 : BitVec 9)
  /-- RET, the word of JMP R7 (R132). -/
  | ret
  /-- JMP (R131). -/
  | jmp (baseR : Reg)
  /-- JSR (R133). -/
  | jsr (pcOffset11 : BitVec 11)
  /-- JSRR (R134). -/
  | jsrr (baseR : Reg)
  /-- LDB (R140). -/
  | ldb (dr baseR : Reg) (offset6 : BitVec 6)
  /-- LDI (R141). -/
  | ldi (dr baseR : Reg) (offset6 : BitVec 6)
  /-- LDR (R142). -/
  | ldr (dr baseR : Reg) (offset6 : BitVec 6)
  /-- LEA (R143). -/
  | lea (dr : Reg) (pcOffset9 : BitVec 9)
  /-- NOT (R114). -/
  | not (dr sr : Reg)
  /-- RTI (R161). -/
  | rti
  /-- SHF with its two mode bits A and D (R115). -/
  | shf (dr sr : Reg) (a d : Bool) (imm4 : BitVec 4)
  /-- STB (R150). -/
  | stb (sr baseR : Reg) (offset6 : BitVec 6)
  /-- STI (R151). -/
  | sti (sr baseR : Reg) (offset6 : BitVec 6)
  /-- STR (R152). -/
  | str (sr baseR : Reg) (offset6 : BitVec 6)
  /-- TRAP (R160). -/
  | trap (trapvect8 : BitVec 8)
deriving DecidableEq, Repr

/-- The opcode map (spec/30_encoding.md R87): the value of bits [15:12] for each instruction. -/
def Instr.opcode : Instr → BitVec 4
  | .br ..     => 0b0000
  | .addReg .. => 0b0001
  | .addImm .. => 0b0001
  | .ldb ..    => 0b0010
  | .stb ..    => 0b0011
  | .jsr ..    => 0b0100
  | .jsrr ..   => 0b0100
  | .andReg .. => 0b0101
  | .andImm .. => 0b0101
  | .ldr ..    => 0b0110
  | .str ..    => 0b0111
  | .rti       => 0b1000
  | .not ..    => 0b1001
  | .ldi ..    => 0b1010
  | .sti ..    => 0b1011
  | .jmp ..    => 0b1100
  | .ret       => 0b1100
  | .shf ..    => 0b1101
  | .lea ..    => 0b1110
  | .trap ..   => 0b1111

end Sys2Proof
end

