-- ==== Sys2Proof/Machine/State.lean ====
section
/-! DEFINITION. The machine's state as plain data (spec/10_state.md R41), its ways to stop, and the state a
run starts in. -/

namespace Sys2Proof.Machine

/-- Why a run ends in a fault state. -/
inductive Fault where
  /-- Raised by RTI in User mode under `EXC_POLICY = fault` (spec/60_exceptions.md R171, R172). Safe:
  the hardware would go on in a handler. -/
  | privilegeModeViolation
deriving DecidableEq, Repr

/-- Why a step has no meaning. -/
inductive Refusal where
  /-- Raised by `exec` for an instruction that has no meaning yet; no arm does. Safe. -/
  | notModelled (mnemonic : String)
  /-- Raised by the step where the fetched word violates the fixed bits of the named row, under
  `RESERVED_POLICY = refuse` (spec/30_encoding.md R100). Safe: it errs toward unprovable. -/
  | reservedEncoding (mnemonic : String)
  /-- Raised by an access to xFE00 to xFFFF under `DEVICE = refuse`, or one the attached device does
  not answer (spec/20_memory.md R62). Safe: it errs toward unprovable. -/
  | deviceAccess
  /-- Raised by the step where `pc` is in `HALT_PCS`: the run is over and the state before the step is
  the final one (spec/70_reset_and_hazards.md R205). Safe: nothing is said of the hardware there. -/
  | runOver
deriving DecidableEq, Repr

/-- The parameter `DEVICE` (spec/20_memory.md R62, spec/60_exceptions.md R190). -/
inductive Device where
  /-- No access to the device addresses has a meaning. The default. -/
  | refuse
  /-- A device is attached and is in the state of this code (log 8). -/
  | attached (code : Nat)
deriving DecidableEq, Repr

/-- One interrupt source (spec/60_exceptions.md R175) with its request line as it stands. -/
structure IntSource where
  pl      : BitVec 3
  vector  : BitVec 8
  request : Bool
deriving DecidableEq, Repr

/-- One of the choices that a state may give for the boundaries to come where a request is accepted
(spec/60_exceptions.md R177; log 10). -/
inductive BoundaryChoice where
  /-- The next instruction is fetched first. -/
  | defer
  /-- The entry is performed for this one of the equal highest sources, counted around. -/
  | take (k : Nat)
deriving DecidableEq, Repr

/-- The wait for an interrupt entry while its free delay runs (spec/60_exceptions.md R177; log 10). -/
structure Wait where
  /-- The places of the sources whose requests have been accepted at every boundary since the wait began;
  none where nothing waits. -/
  places : List Nat
  /-- The boundaries with an accepted request that this wait still lets pass. -/
  delay  : Nat
  /-- How many waits have begun: the counter the free values are read at. -/
  begun  : Nat
deriving DecidableEq, Repr

/-- The bytes of x0000 to xFDFF to which the launch or an instruction has given a value, at strictly rising
addresses. -/
abbrev Memory := List Host.Cell

/-- What an address that is not listed reads as: a free value (spec/70_reset_and_hazards.md R204; DESIGN
CHOICE between a free value and a fault, safe, log 4). -/
def unlistedByte (a : Nat) : Byte := Config.unwrittenByte a

/-- The state tuple of spec/10_state.md R41, the devices and interrupt sources of R40, the parameters of
spec/00_scope.md R8 and the open choices of spec/60_exceptions.md R177. -/
structure State where
  pc      : Word
  r0      : Word
  r1      : Word
  r2      : Word
  r3      : Word
  r4      : Word
  r5      : Word
  r7      : Word
  /-- The supervisor stack pointer: R6 while PSR[15] = 0 (spec/10_state.md R23). -/
  ssp     : Word
  /-- The user stack pointer: R6 while PSR[15] = 1 (spec/10_state.md R23). -/
  usp     : Word
  /-- Bit 15 the privilege mode, bits 10:8 the priority level, bits 2, 1, 0 N, Z, P; the others 0
  (spec/10_state.md R32, R33). -/
  psr     : Word
  mem     : Memory
  device  : Device
  sources : List IntSource
  /-- The model's own field (log 9): the request lines the environment sets at the boundaries to come,
  one list of lines a boundary, where no device is attached to drive them. -/
  requestInputs : List (List Bool)
  /-- The model's own field (log 10): the choices given for the next boundaries where a request is accepted.
  Past its end the free values decide. -/
  choices : List BoundaryChoice
  /-- The model's own field (log 10): the wait for an interrupt entry. -/
  wait    : Wait
  config  : Config
deriving DecidableEq, Repr

/-- The conventional launch of spec/70_reset_and_hazards.md R202. The source defines no reset
(spec/10_state.md R42), so every value here is one choice among the launches (DESIGN CHOICE, unsafe,
logs 1 to 11). -/
def State.reset : State where
  pc      := 0x3000
  r0      := 0x0000
  r1      := 0x0000
  r2      := 0x0000
  r3      := 0x0000
  r4      := 0x0000
  r5      := 0x0000
  r7      := 0x0000
  ssp     := 0x3000
  usp     := 0x0000
  psr     := 0x8002
  mem     := []
  device  := .refuse
  sources := []
  requestInputs := []
  choices := []
  wait    := { places := [], delay := 0, begun := 0 }
  config  := Config.conventional

end Sys2Proof.Machine
end

