-- ==== Sys2Proof/Machine/Memory.lean ====
section
/-! DEFINITION. The memory map, and the one byte-wise read and write of memory in its canonical form. -/

namespace Sys2Proof.Machine

/-- The five regions of the memory map (spec/20_memory.md R51). The names are uses, not access rules. -/
inductive Region where
  | trapVectorTable
  | interruptVectorTable
  | systemAndSupervisorStack
  | userPrograms
  | deviceRegisters
deriving DecidableEq, Repr

/-- The region of an address, by the boundaries of spec/20_memory.md R51. -/
def regionOf (a : Word) : Region :=
  if a ≤ 0x00FF then .trapVectorTable
  else if a ≤ 0x01FF then .interruptVectorTable
  else if a ≤ 0x2FFF then .systemAndSupervisorStack
  else if a ≤ 0xFDFF then .userPrograms
  else .deviceRegisters

/-- The first device address (spec/20_memory.md R62): memory is the addresses below it. -/
def deviceBase : Nat := 0xFE00

/-- Whether an address designates a device register (spec/20_memory.md R62). -/
def isDevice (a : Word) : Bool := decide (deviceBase ≤ a.toNat)

/-- The byte listed at an address: none where nothing has given it a value. -/
def Memory.listed : Memory → Nat → Option Byte
  | [], _ => none
  | (k, v) :: rest, a => if k = a then some v else Memory.listed rest a

/-- The byte at an address: the listed one, or the free value of an unlisted address
(spec/20_memory.md R52; spec/70_reset_and_hazards.md R204). -/
def Memory.read (m : Memory) (a : Nat) : Byte := (m.listed a).getD (unlistedByte a)

/-- A pair put in front of the first listed address above its own. -/
def Memory.insert : Memory → Nat → Byte → Memory
  | [], a, b => [(a, b)]
  | (k, v) :: rest, a, b =>
    if a < k then (a, b) :: (k, v) :: rest else (k, v) :: Memory.insert rest a b

/-- The memory without any entry for an address. -/
def Memory.erase (m : Memory) (a : Nat) : Memory := m.filter fun cell => cell.1 != a

/-- The memory after a byte write (spec/20_memory.md R54). A device address is no memory location (R62). -/
def Memory.write (m : Memory) (a : Nat) (b : Byte) : Memory :=
  if deviceBase ≤ a then m else (m.erase a).insert a b

/-- The memory after the two byte writes of a word write at an even address: bits 7:0 at the address,
bits 15:8 above it (spec/20_memory.md R55). -/
def Memory.writeWord (m : Memory) (a : Nat) (v : Word) : Memory :=
  (m.write a (v.extractLsb' 0 8)).write (a + 1) (v.extractLsb' 8 8)

/-- Every listed address of the memory is above a bound, rising, and below the device addresses. -/
def Memory.wfAbove : Option Nat → Memory → Bool
  | _, [] => true
  | low, (k, _) :: rest =>
    (match low with
      | none   => true
      | some l => decide (l < k)) &&
    decide (k < deviceBase) && Memory.wfAbove (some k) rest

/-- The canonical form of a memory: memories that list the same bytes are equal lists. -/
def Memory.wf (m : Memory) : Bool := Memory.wfAbove none m

end Sys2Proof.Machine
end

