-- ==== Sys2Proof/Machine/Ops.lean ====
section
/-! DEFINITION. The named operations over registers, memory and devices, and the taking of an exception or
interrupt with the return from one. -/

namespace Sys2Proof.Machine

/-- What a step or an instruction answers. -/
abbrev Result := Host.Outcome State Fault Refusal

/-- The answer of an operation that ends in a state or in a refusal. -/
def finish (r : Except Refusal State) : Result :=
  match r with
  | .ok t    => .next t
  | .error e => .refused e

/-! ### The PSR -/

/-- PSR[15] = 1: User mode (spec/10_state.md R34). -/
def State.userMode (s : State) : Bool := s.psr.getLsbD 15

/-- PSR[10:8]: the priority level of the executing process (spec/10_state.md R35). -/
def State.priority (s : State) : BitVec 3 := s.psr.extractLsb' 8 3

/-- The seven defined bits of the PSR (spec/10_state.md R33). -/
def psrMask : Word := 0x8707

/-- The PSR as it is read as a whole: the undefined bits are 0 (spec/10_state.md R33). -/
def State.readPsr (s : State) : Word := s.psr &&& psrMask

/-- A write of the whole PSR stores the defined bits alone (spec/10_state.md R33). -/
def State.writePsr (s : State) (v : Word) : State := { s with psr := v &&& psrMask }

/-- PSR[15] <- 0 (spec/60_exceptions.md R178). -/
def State.enterSupervisor (s : State) : State := { s with psr := s.psr &&& 0x7FFF }

/-- PSR[10:8] <- level (spec/60_exceptions.md R178). -/
def State.setPriority (s : State) (level : BitVec 3) : State :=
  { s with psr := (s.psr &&& 0xF8FF) ||| shl (zext16 level) 8 }

/-- The priority level an entry sets: an interrupt's, and none for an exception
(spec/60_exceptions.md R178, R172). -/
def State.setLevel (s : State) (level : Option (BitVec 3)) : State :=
  match level with
  | some pl => s.setPriority pl
  | none    => s

/-! ### Registers -/

/-- R6, the current stack pointer: SSP or USP by PSR[15] (spec/10_state.md R23). -/
def State.sp (s : State) : Word := if s.userMode then s.usp else s.ssp

/-- A write of R6 goes to the stack pointer of the current mode (spec/10_state.md R23). -/
def State.setSp (s : State) (v : Word) : State :=
  if s.userMode then { s with usp := v } else { s with ssp := v }

/-- `x[i]`: no register is hardwired (spec/10_state.md R21). -/
def State.reg (s : State) : Reg → Word
  | .r0 => s.r0
  | .r1 => s.r1
  | .r2 => s.r2
  | .r3 => s.r3
  | .r4 => s.r4
  | .r5 => s.r5
  | .r6 => s.sp
  | .r7 => s.r7

/-- `x[i] <- v` (spec/10_state.md R20, R23). -/
def State.setReg (s : State) (r : Reg) (v : Word) : State :=
  match r with
  | .r0 => { s with r0 := v }
  | .r1 => { s with r1 := v }
  | .r2 => { s with r2 := v }
  | .r3 => { s with r3 := v }
  | .r4 => { s with r4 := v }
  | .r5 => { s with r5 := v }
  | .r6 => s.setSp v
  | .r7 => { s with r7 := v }

/-- `pc_inc`: the address of the executing instruction plus 2 (spec/10_state.md R25, R27). -/
def State.pcInc (s : State) : Word := s.pc + 2

/-- `pc <- t`: every write of the PC clears bit 0 (spec/10_state.md R26). -/
def State.setPc (s : State) (t : Word) : State := { s with pc := alignWord t }

/-- `pc <- pc_inc`, the end of an instruction that writes no other PC (spec/10_state.md R25). -/
def State.advance (s : State) : State := s.setPc s.pcInc

/-! ### Memory and devices -/

/-- `mem[a]` of a memory location, with no device involved (spec/20_memory.md R52). -/
def State.byteAt (s : State) (a : Word) : Byte := s.mem.read a.toNat

/-- `memWord[a]` of memory: bit 0 of the address treated as 0, the even byte in bits 7:0
(spec/20_memory.md R53). -/
def State.wordAt (s : State) (a : Word) : Word :=
  s.byteAt (alignWord a + 1) ++ s.byteAt (alignWord a)

/-- `MemRead(a, 1)` (spec/20_memory.md R52), routed to the device for a device address (R62). -/
def State.loadByte (s : State) (a : Word) : Except Refusal (Byte × State) :=
  if isDevice a then
    match s.device with
    | .refuse => .error .deviceAccess
    | .attached c =>
      match Config.deviceReadByte c a with
      | some (b, c') => .ok (b, { s with device := .attached c' })
      | none         => .error .deviceAccess
  else .ok (s.byteAt a, s)

/-- `MemRead(a, 2)` (spec/20_memory.md R53): one access to the aligned word (R59, R63), routed to the
device for a device address (R62). -/
def State.loadWord (s : State) (a : Word) : Except Refusal (Word × State) :=
  if isDevice (alignWord a) then
    match s.device with
    | .refuse => .error .deviceAccess
    | .attached c =>
      match Config.deviceReadWord c (alignWord a) with
      | some (v, c') => .ok (v, { s with device := .attached c' })
      | none         => .error .deviceAccess
  else .ok (s.wordAt a, s)

/-- `MemWrite(a, 1, b)` (spec/20_memory.md R54), routed to the device for a device address (R62). -/
def State.storeByte (s : State) (a : Word) (b : Byte) : Except Refusal State :=
  if isDevice a then
    match s.device with
    | .refuse => .error .deviceAccess
    | .attached c =>
      match Config.deviceWriteByte c a b with
      | some c' => .ok { s with device := .attached c' }
      | none    => .error .deviceAccess
  else .ok { s with mem := s.mem.write a.toNat b }

/-- `MemWrite(a, 2, v)` (spec/20_memory.md R55), routed to the device for a device address (R62). -/
def State.storeWord (s : State) (a : Word) (v : Word) : Except Refusal State :=
  if isDevice (alignWord a) then
    match s.device with
    | .refuse => .error .deviceAccess
    | .attached c =>
      match Config.deviceWriteWord c (alignWord a) v with
      | some c' => .ok { s with device := .attached c' }
      | none    => .error .deviceAccess
  else .ok { s with mem := s.mem.writeWord (alignWord a).toNat v }

/-! ### Taking an exception or interrupt, and the return -/

/-- `SSP <- SSP - 2; MemWrite(SSP, 2, v)` (spec/60_exceptions.md R178). -/
def State.pushSupervisor (s : State) (v : Word) : Except Refusal State :=
  let s1 := { s with ssp := s.ssp - 2 }
  s1.storeWord s1.ssp v

/-- `MemRead(SSP, 2)`, then `SSP <- SSP + 2` (spec/44_system.md R161). -/
def State.popSupervisor (s : State) : Except Refusal (Word × State) := do
  let (v, s1) ← s.loadWord s.ssp
  return (v, { s1 with ssp := s1.ssp + 2 })

/-- The address of a vector table's entry: `x0100 + shl(number, 1)`, but for the numbers at which the
configured table departs from it (spec/60_exceptions.md R172, R179). -/
def vectorAddr (departures : List (BitVec 8 × Word)) (number : BitVec 8) : Word :=
  match departures.lookup number with
  | some a => a
  | none   => 0x0100 + shl (zext16 number) 1

/-- The entry sequence that interrupts and exceptions share (spec/60_exceptions.md R178, R172): save the
PSR, enter Supervisor mode, push the saved PSR and then the PC, set the priority level where one is
given, and take the PC from the table entry. -/
def State.enterHandler (s : State) (savedPc : Word) (level : Option (BitVec 3)) (entry : Word) :
    Except Refusal State := do
  let s1 ← s.enterSupervisor.pushSupervisor s.readPsr
  let s2 ← s1.pushSupervisor savedPc
  let (t, s4) ← (s2.setLevel level).loadWord entry
  return s4.setPc t

/-- Interrupt entry for a source (spec/60_exceptions.md R178). -/
def State.interruptEntry (s : State) (src : IntSource) : Except Refusal State :=
  s.enterHandler s.pc (some src.pl) (vectorAddr s.config.intVectors src.vector)

/-- The code of PrivilegeModeViolation (spec/60_exceptions.md R171). -/
def privilegeModeViolationCode : BitVec 8 := 0x00

/-- `raise PrivilegeModeViolation()` under either `EXC_POLICY`: the fault of that name, or the entry of
R178 with the priority unchanged and `pc_inc` pushed (spec/60_exceptions.md R172). -/
def State.raisePrivilegeModeViolation (s : State) : Result :=
  match s.config.excPolicy with
  | .fault  => .fault .privilegeModeViolation
  | .vector =>
    finish (s.enterHandler s.pcInc none
      (vectorAddr s.config.excVectors privilegeModeViolationCode))

/-- RTI's return in Supervisor mode: pop the PC, then the PSR, from the supervisor stack
(spec/44_system.md R161; spec/60_exceptions.md R182). -/
def State.returnFromHandler (s : State) : Except Refusal State := do
  let (tPc, s1) ← s.popSupervisor
  let (tPsr, s2) ← s1.popSupervisor
  return (s2.writePsr tPsr).setPc tPc

end Sys2Proof.Machine
end

