-- ==== Sys2Proof/Machine/Boundary.lean ====
section
/-! DEFINITION. What happens at an instruction boundary before the fetch: the end of the run, what the
environment does, and the choice of an interrupt. -/

namespace Sys2Proof.Machine

/-- The run is over: `pc` is in `HALT_PCS` (spec/70_reset_and_hazards.md R205; log 7). -/
def State.runOver (s : State) : Bool := s.config.haltPcs.contains s.pc

/-- The request lines as the device in this state drives them, counting sources from `i`
(spec/60_exceptions.md R175). -/
def driveRequests (code : Nat) : Nat → List IntSource → List IntSource
  | _, []          => []
  | i, src :: rest =>
    { src with request := Config.deviceRequest code i } :: driveRequests code (i + 1) rest

/-- The request lines as one input list sets them, in the order of the sources; a source past its end
keeps its line (spec/60_exceptions.md R175; log 9). -/
def setRequests : List Bool → List IntSource → List IntSource
  | line :: lines, src :: rest => { src with request := line } :: setRequests lines rest
  | _, sources                 => sources

/-- What happens outside the processor between two of its steps: an attached device may change its state
and drives its requests, and without one the environment may set them
(spec/60_exceptions.md R175, R190; spec/70_reset_and_hazards.md R210; logs 8 and 9). -/
def State.environmentActs (s : State) : State :=
  match s.device with
  | .attached c =>
    let c' := Config.deviceTick c
    { s with device := .attached c', sources := driveRequests c' 0 s.sources }
  | .refuse =>
    match s.requestInputs with
    | []            => s
    | lines :: rest => { s with sources := setRequests lines s.sources, requestInputs := rest }

/-- A request is accepted when its priority exceeds the process's (spec/60_exceptions.md R176). -/
def State.accepts (s : State) (src : IntSource) : Bool :=
  src.request && decide (s.priority < src.pl)

/-- The accepted requests of the highest priority (spec/60_exceptions.md R177). -/
def State.candidates (s : State) : List IntSource :=
  let accepted := s.sources.filter s.accepts
  accepted.filter fun src => accepted.all fun other => decide (other.pl ≤ src.pl)

/-- The places of the sources whose requests are accepted (spec/60_exceptions.md R176). -/
def State.acceptedPlaces (s : State) : List Nat :=
  (List.range s.sources.length).filter fun i => (s.sources[i]?).any s.accepts

/-- Nothing waits any more. -/
def Wait.over (w : Wait) : Wait := { w with places := [], delay := 0 }

/-- The wait at a boundary where a request is accepted: the one in progress while a request it began with
has stayed accepted, or else a new one with its free delay, begun with every request accepted now. So a
request that stays accepted is in the wait or in the next, and each wait is finite
(spec/60_exceptions.md R177; log 10). -/
def State.waitHere (s : State) : Wait :=
  match s.wait.places.filter s.acceptedPlaces.contains with
  | [] =>
    { places := s.acceptedPlaces, delay := Config.entryDelay s.wait.begun, begun := s.wait.begun + 1 }
  | place :: places => { s.wait with places := place :: places }

/-- One of the equal sources, counted around: a single one whatever the count. -/
def pickSource (first : IntSource) (others : List IntSource) (k : Nat) : IntSource :=
  match others with
  | []     => first
  | _ :: _ => (first :: others).getD (k % (others.length + 1)) first

/-- The interrupt to enter at this boundary, if any, with what is left to choose. Where a request is accepted
the next element of `choices` says whether the entry is deferred and which of the equal highest sources is
taken; past its end the entry is deferred while the wait's delay lasts, and then a free one of them is taken
(spec/60_exceptions.md R177; log 10). -/
def State.chooseInterrupt (s : State) : Option IntSource × State :=
  match s.candidates with
  | [] => (none, { s with wait := s.wait.over })
  | first :: others =>
    match s.choices with
    | .defer :: rest  => (none, { s with choices := rest, wait := s.waitHere })
    | .take k :: rest =>
      (some (pickSource first others k), { s with choices := rest, wait := s.waitHere.over })
    | [] =>
      match s.waitHere.delay with
      | 0     =>
        (some (pickSource first others (Config.tieBreak s.waitHere.begun)),
          { s with wait := s.waitHere.over })
      | d + 1 => (none, { s with wait := { s.waitHere with delay := d } })

end Sys2Proof.Machine
end

