-- ==== Sys2Proof/Machine/Operands.lean ====
section
/-! DEFINITION. Every operand form of spec/30_encoding.md R88 and addressing mode of spec/42_load.md R144. -/

namespace Sys2Proof.Machine

/-- imm5: sign-extended (spec/30_encoding.md R88). -/
def imm5Value (imm5 : BitVec 5) : Word := sext16 imm5

/-- Base + byte offset: `x[BaseR] + sext_16(offset6)` (spec/42_load.md R140, R144). -/
def State.eaByte (s : State) (baseR : Reg) (offset6 : BitVec 6) : Word :=
  s.reg baseR + sext16 offset6

/-- Base + word offset: `x[BaseR] + shl(sext_16(offset6), 1)` (spec/42_load.md R142, R144). -/
def State.eaWord (s : State) (baseR : Reg) (offset6 : BitVec 6) : Word :=
  s.reg baseR + shl (sext16 offset6) 1

/-- PC + word offset, for PCoffset9 and PCoffset11: `pc_inc + shl(sext_16(offset), 1)`
(spec/42_load.md R144). -/
def State.pcRelative (s : State) {n : Nat} (offset : BitVec n) : Word :=
  s.pcInc + shl (sext16 offset) 1

/-- Vector: `shl(zext_16(trapvect8), 1)` (spec/44_system.md R160). -/
def trapEntry (trapvect8 : BitVec 8) : Word := shl (zext16 trapvect8) 1

/-- SHF's result by its mode bits (spec/40_operate.md R115): D = 0 left whatever A, D = 1 right, filling
with the sign bit when A = 1. -/
def shiftResult (a d : Bool) (v : Word) (imm4 : BitVec 4) : Word :=
  if !d then shl v imm4.toNat
  else if !a then shr v imm4.toNat false
  else shr v imm4.toNat (v.getLsbD 15)

end Sys2Proof.Machine
end

