-- ==== Sys2Proof/Machine/Flags.lean ====
section
/-! DEFINITION. The condition codes: bits 2, 1, 0 of the PSR (spec/10_state.md R28). -/

namespace Sys2Proof.Machine

/-- N is PSR[2] (spec/10_state.md R28). -/
def State.ccN (s : State) : Bool := s.psr.getLsbD 2

/-- Z is PSR[1] (spec/10_state.md R28). -/
def State.ccZ (s : State) : Bool := s.psr.getLsbD 1

/-- P is PSR[0] (spec/10_state.md R28). -/
def State.ccP (s : State) : Bool := s.psr.getLsbD 0

/-- The three codes of a value as PSR[2:0] (spec/10_state.md R29). -/
def ccBits (v : Word) : Word :=
  if v.getLsbD 15 then 0b100 else if v = 0 then 0b010 else 0b001

/-- `setcc(v)` writes N, Z and P and no other bit of the PSR (spec/10_state.md R29). -/
def State.setcc (s : State) (v : Word) : State :=
  { s with psr := (s.psr &&& 0xFFF8) ||| ccBits v }

/-- BR's condition on whatever combination of codes is there (spec/41_control.md R130;
spec/10_state.md R31). -/
def State.branchTaken (s : State) (n z p : Bool) : Bool :=
  (n && s.ccN) || (z && s.ccZ) || (p && s.ccP)

/-- `x[DR] <- v; setcc(v); pc <- pc_inc`, the end of the ten instructions that set the condition codes
(spec/10_state.md R30). -/
def State.loadResult (s : State) (dr : Reg) (v : Word) : State :=
  ((s.setReg dr v).setcc v).advance

end Sys2Proof.Machine
end

