-- ==== Sys2Proof/Machine/Control.lean ====
section
/-! DEFINITION. The control instructions (spec/41_control.md). -/

namespace Sys2Proof.Machine

/-- BR (R130). -/
def execBr (n z p : Bool) (pcOffset9 : BitVec 9) (s : State) : Result :=
  if s.branchTaken n z p then .next (s.setPc (s.pcRelative pcOffset9)) else .next s.advance

/-- JMP (R131). -/
def execJmp (baseR : Reg) (s : State) : Result :=
  .next (s.setPc (s.reg baseR))

/-- RET: the operation of JMP with base R7 (R132). -/
def execRet (s : State) : Result :=
  .next (s.setPc (s.reg .r7))

/-- JSR (R133). -/
def execJsr (pcOffset11 : BitVec 11) (s : State) : Result :=
  .next ((s.setReg .r7 s.pcInc).setPc (s.pcRelative pcOffset11))

/-- JSRR: R7 is written before the base register is read (R134; log 16). -/
def execJsrr (baseR : Reg) (s : State) : Result :=
  let linked := s.setReg .r7 s.pcInc
  .next (linked.setPc (linked.reg baseR))

end Sys2Proof.Machine
end

