-- ==== Sys2Proof/Machine/Load.lean ====
section
/-! DEFINITION. The load instructions (spec/42_load.md). -/

namespace Sys2Proof.Machine

/-- LDB: the byte is zero-extended (R140). -/
def execLdb (dr baseR : Reg) (offset6 : BitVec 6) (s : State) : Result :=
  finish do
    let (b, s1) ← s.loadByte (s.eaByte baseR offset6)
    return s1.loadResult dr (zext16 b)

/-- LDI: the word at the effective address is the address of the data (R141). -/
def execLdi (dr baseR : Reg) (offset6 : BitVec 6) (s : State) : Result :=
  finish do
    let (p, s1) ← s.loadWord (s.eaWord baseR offset6)
    let (v, s2) ← s1.loadWord p
    return s2.loadResult dr v

/-- LDR (R142). -/
def execLdr (dr baseR : Reg) (offset6 : BitVec 6) (s : State) : Result :=
  finish do
    let (v, s1) ← s.loadWord (s.eaWord baseR offset6)
    return s1.loadResult dr v

/-- LEA: the address itself, with no memory access (R143; log 13). -/
def execLea (dr : Reg) (pcOffset9 : BitVec 9) (s : State) : Result :=
  .next (s.loadResult dr (s.pcRelative pcOffset9))

end Sys2Proof.Machine
end

