-- ==== Sys2Proof/Machine/Operate.lean ====
section
/-! DEFINITION. The operate instructions (spec/40_operate.md). -/

namespace Sys2Proof.Machine

/-- ADD, register form (R110). -/
def execAddReg (dr sr1 sr2 : Reg) (s : State) : Result :=
  .next (s.loadResult dr (s.reg sr1 + s.reg sr2))

/-- ADD, immediate form (R111). -/
def execAddImm (dr sr1 : Reg) (imm5 : BitVec 5) (s : State) : Result :=
  .next (s.loadResult dr (s.reg sr1 + imm5Value imm5))

/-- AND, register form (R112). -/
def execAndReg (dr sr1 sr2 : Reg) (s : State) : Result :=
  .next (s.loadResult dr (s.reg sr1 &&& s.reg sr2))

/-- AND, immediate form (R113). -/
def execAndImm (dr sr1 : Reg) (imm5 : BitVec 5) (s : State) : Result :=
  .next (s.loadResult dr (s.reg sr1 &&& imm5Value imm5))

/-- NOT (R114; log 13). -/
def execNot (dr sr : Reg) (s : State) : Result :=
  .next (s.loadResult dr (~~~(s.reg sr)))

/-- SHF (R115; log 12). -/
def execShf (dr sr : Reg) (a d : Bool) (imm4 : BitVec 4) (s : State) : Result :=
  .next (s.loadResult dr (shiftResult a d (s.reg sr) imm4))

end Sys2Proof.Machine
end

