-- ==== Sys2Proof/Machine/Store.lean ====
section
/-! DEFINITION. The store instructions (spec/43_store.md; log 13). -/

namespace Sys2Proof.Machine

/-- STB: the low byte of SR (R150). -/
def execStb (sr baseR : Reg) (offset6 : BitVec 6) (s : State) : Result :=
  finish do
    let s1 ← s.storeByte (s.eaByte baseR offset6) ((s.reg sr).extractLsb' 0 8)
    return s1.advance

/-- STI: one word read, then one word write at the address read (R151). -/
def execSti (sr baseR : Reg) (offset6 : BitVec 6) (s : State) : Result :=
  finish do
    let (p, s1) ← s.loadWord (s.eaWord baseR offset6)
    let s2 ← s1.storeWord p (s.reg sr)
    return s2.advance

/-- STR (R152). -/
def execStr (sr baseR : Reg) (offset6 : BitVec 6) (s : State) : Result :=
  finish do
    let s1 ← s.storeWord (s.eaWord baseR offset6) (s.reg sr)
    return s1.advance

end Sys2Proof.Machine
end

