-- ==== Sys2Proof/Machine/System.lean ====
section
/-! DEFINITION. The system instructions (spec/44_system.md). -/

namespace Sys2Proof.Machine

/-- TRAP: R7 links, the PC comes from the table entry; mode, priority and stacks stay (R160; log 14). -/
def execTrap (trapvect8 : BitVec 8) (s : State) : Result :=
  finish do
    let (t, s1) ← (s.setReg .r7 s.pcInc).loadWord (trapEntry trapvect8)
    return s1.setPc t

/-- RTI: Supervisor only; in User mode it raises PrivilegeModeViolation before any effect
(R161; spec/60_exceptions.md R173; log 15). -/
def execRti (s : State) : Result :=
  if s.userMode then s.raisePrivilegeModeViolation else finish s.returnFromHandler

end Sys2Proof.Machine
end

