-- ==== Sys2Proof/Machine/Dispatch.lean ====
section
/-! DEFINITION. One arm per instruction. -/

namespace Sys2Proof.Machine

/-- The meaning of each instruction of spec/30_encoding.md R84. -/
def exec (i : Instr) (s : State) : Host.Outcome State Fault Refusal :=
  match i with
  -- spec/40_operate.md
  | .addReg dr sr1 sr2 => Sys2Proof.Machine.execAddReg dr sr1 sr2 s
  | .addImm dr sr1 imm5 => Sys2Proof.Machine.execAddImm dr sr1 imm5 s
  | .andReg dr sr1 sr2 => Sys2Proof.Machine.execAndReg dr sr1 sr2 s
  | .andImm dr sr1 imm5 => Sys2Proof.Machine.execAndImm dr sr1 imm5 s
  -- spec/41_control.md
  | .br n z p off => Sys2Proof.Machine.execBr n z p off s
  | .ret => Sys2Proof.Machine.execRet s
  | .jmp baseR => Sys2Proof.Machine.execJmp baseR s
  | .jsr off => Sys2Proof.Machine.execJsr off s
  | .jsrr baseR => Sys2Proof.Machine.execJsrr baseR s
  -- spec/42_load.md
  | .ldb dr baseR off => Sys2Proof.Machine.execLdb dr baseR off s
  | .ldi dr baseR off => Sys2Proof.Machine.execLdi dr baseR off s
  | .ldr dr baseR off => Sys2Proof.Machine.execLdr dr baseR off s
  | .lea dr off => Sys2Proof.Machine.execLea dr off s
  -- spec/40_operate.md, spec/44_system.md
  | .not dr sr => Sys2Proof.Machine.execNot dr sr s
  | .rti => Sys2Proof.Machine.execRti s
  | .shf dr sr a d imm4 => Sys2Proof.Machine.execShf dr sr a d imm4 s
  -- spec/43_store.md, spec/44_system.md
  | .stb sr baseR off => Sys2Proof.Machine.execStb sr baseR off s
  | .sti sr baseR off => Sys2Proof.Machine.execSti sr baseR off s
  | .str sr baseR off => Sys2Proof.Machine.execStr sr baseR off s
  | .trap vect => Sys2Proof.Machine.execTrap vect s

end Sys2Proof.Machine
end

