-- ==== Sys2Proof/WellFormed.lean ====
section
/-! DEFINITION. Which terms of `Instr` stand for a word of their own row. -/

namespace Sys2Proof

/-- The fields' types bound every operand to its range (spec/30_encoding.md R88), so one check is left:
the word of JMP with base R7 is RET's row, which a decoder tries first (R86). -/
def Instr.wellFormed : Instr → Bool
  | .jmp .r7   => false
  | .jmp _     => true
  | .addReg .. => true
  | .addImm .. => true
  | .andReg .. => true
  | .andImm .. => true
  | .br ..     => true
  | .ret       => true
  | .jsr ..    => true
  | .jsrr ..   => true
  | .ldb ..    => true
  | .ldi ..    => true
  | .ldr ..    => true
  | .lea ..    => true
  | .not ..    => true
  | .rti       => true
  | .shf ..    => true
  | .stb ..    => true
  | .sti ..    => true
  | .str ..    => true
  | .trap ..   => true

end Sys2Proof
end

