-- ==== Sys2Proof/Decode.lean ====
section
/-! DEFINITION. The decoder, driven by the masks of spec/30_encoding.md R84, and the encoder, written from
the field positions of R82. -/

namespace Sys2Proof

/-- The register a 3-bit field names (spec/30_encoding.md R89). -/
def Reg.ofBits (k : BitVec 3) : Reg :=
  match k.toNat with
  | 0 => .r0
  | 1 => .r1
  | 2 => .r2
  | 3 => .r3
  | 4 => .r4
  | 5 => .r5
  | 6 => .r6
  | _ => .r7

/-- The binary form of a register's index (spec/10_state.md R20). -/
def Reg.bits : Reg → BitVec 3
  | .r0 => 0
  | .r1 => 1
  | .r2 => 2
  | .r3 => 3
  | .r4 => 4
  | .r5 => 5
  | .r6 => 6
  | .r7 => 7

/-- The register field at bits 11:9: DR, and SR of a store (R82). -/
def fieldDR (w : Word) : Reg := Reg.ofBits (w.extractLsb' 9 3)

/-- The register field at bits 8:6: SR1, SR of NOT and SHF, and BaseR (R82). -/
def fieldBase (w : Word) : Reg := Reg.ofBits (w.extractLsb' 6 3)

/-- The register field at bits 2:0: SR2 (R82). -/
def fieldSR2 (w : Word) : Reg := Reg.ofBits (w.extractLsb' 0 3)

/-- One row of spec/30_encoding.md R84: a word is an instance of it when its bits under `mask` are
`pattern`, and `build` then reads the row's named fields (R82). -/
structure OpcodeRow where
  mnemonic : String
  pattern  : Word
  mask     : Word
  build    : Word → Instr

/-- The twenty rows in the order of spec/opcode_table.json, RET before JMP (R86). -/
def opcodeTable : List OpcodeRow :=
  [ ⟨"ADD", 0x1000, 0xF038, fun w => .addReg (fieldDR w) (fieldBase w) (fieldSR2 w)⟩,
    ⟨"ADD", 0x1020, 0xF020, fun w => .addImm (fieldDR w) (fieldBase w) (w.extractLsb' 0 5)⟩,
    ⟨"AND", 0x5000, 0xF038, fun w => .andReg (fieldDR w) (fieldBase w) (fieldSR2 w)⟩,
    ⟨"AND", 0x5020, 0xF020, fun w => .andImm (fieldDR w) (fieldBase w) (w.extractLsb' 0 5)⟩,
    ⟨"BR", 0x0000, 0xF000,
      fun w => .br (w.getLsbD 11) (w.getLsbD 10) (w.getLsbD 9) (w.extractLsb' 0 9)⟩,
    ⟨"RET", 0xC1C0, 0xFFFF, fun _ => .ret⟩,
    ⟨"JMP", 0xC000, 0xFE3F, fun w => .jmp (fieldBase w)⟩,
    ⟨"JSR", 0x4800, 0xF800, fun w => .jsr (w.extractLsb' 0 11)⟩,
    ⟨"JSRR", 0x4000, 0xFE3F, fun w => .jsrr (fieldBase w)⟩,
    ⟨"LDB", 0x2000, 0xF000, fun w => .ldb (fieldDR w) (fieldBase w) (w.extractLsb' 0 6)⟩,
    ⟨"LDI", 0xA000, 0xF000, fun w => .ldi (fieldDR w) (fieldBase w) (w.extractLsb' 0 6)⟩,
    ⟨"LDR", 0x6000, 0xF000, fun w => .ldr (fieldDR w) (fieldBase w) (w.extractLsb' 0 6)⟩,
    ⟨"LEA", 0xE000, 0xF000, fun w => .lea (fieldDR w) (w.extractLsb' 0 9)⟩,
    ⟨"NOT", 0x903F, 0xF03F, fun w => .not (fieldDR w) (fieldBase w)⟩,
    ⟨"RTI", 0x8000, 0xFFFF, fun _ => .rti⟩,
    ⟨"SHF", 0xD000, 0xF000,
      fun w => .shf (fieldDR w) (fieldBase w) (w.getLsbD 5) (w.getLsbD 4) (w.extractLsb' 0 4)⟩,
    ⟨"STB", 0x3000, 0xF000, fun w => .stb (fieldDR w) (fieldBase w) (w.extractLsb' 0 6)⟩,
    ⟨"STI", 0xB000, 0xF000, fun w => .sti (fieldDR w) (fieldBase w) (w.extractLsb' 0 6)⟩,
    ⟨"STR", 0x7000, 0xF000, fun w => .str (fieldDR w) (fieldBase w) (w.extractLsb' 0 6)⟩,
    ⟨"TRAP", 0xF000, 0xFF00, fun w => .trap (w.extractLsb' 0 8)⟩ ]

/-- Why bytes are no instruction. -/
inductive DecodeError where
  /-- The word's fixed bits violate the row its opcode selects; the row's mnemonic (R100). -/
  | reservedEncoding (mnemonic : String)
  /-- Fewer than the two bytes of an instruction (R80). -/
  | tooFewBytes
deriving DecidableEq, Repr

/-- The row that the opcode and, for 0001, 0101 and 0100, the mode bit select (R81, R85), read without
its fixed bits: the decoding of `RESERVED_POLICY = ignore_bits` (R100). -/
def decodeIgnoringBits (w : Word) : Instr :=
  match (w.extractLsb' 12 4).toNat with
  | 0x0 => .br (w.getLsbD 11) (w.getLsbD 10) (w.getLsbD 9) (w.extractLsb' 0 9)
  | 0x1 => if w.getLsbD 5 then .addImm (fieldDR w) (fieldBase w) (w.extractLsb' 0 5)
           else .addReg (fieldDR w) (fieldBase w) (fieldSR2 w)
  | 0x2 => .ldb (fieldDR w) (fieldBase w) (w.extractLsb' 0 6)
  | 0x3 => .stb (fieldDR w) (fieldBase w) (w.extractLsb' 0 6)
  | 0x4 => if w.getLsbD 11 then .jsr (w.extractLsb' 0 11) else .jsrr (fieldBase w)
  | 0x5 => if w.getLsbD 5 then .andImm (fieldDR w) (fieldBase w) (w.extractLsb' 0 5)
           else .andReg (fieldDR w) (fieldBase w) (fieldSR2 w)
  | 0x6 => .ldr (fieldDR w) (fieldBase w) (w.extractLsb' 0 6)
  | 0x7 => .str (fieldDR w) (fieldBase w) (w.extractLsb' 0 6)
  | 0x8 => .rti
  | 0x9 => .not (fieldDR w) (fieldBase w)
  | 0xA => .ldi (fieldDR w) (fieldBase w) (w.extractLsb' 0 6)
  | 0xB => .sti (fieldDR w) (fieldBase w) (w.extractLsb' 0 6)
  | 0xC => if fieldBase w = .r7 then .ret else .jmp (fieldBase w)
  | 0xD => .shf (fieldDR w) (fieldBase w) (w.getLsbD 5) (w.getLsbD 4) (w.extractLsb' 0 4)
  | 0xE => .lea (fieldDR w) (w.extractLsb' 0 9)
  | _   => .trap (w.extractLsb' 0 8)

/-- The mnemonic of an instruction's row in spec/opcode_table.json (R84, R87). -/
def Instr.mnemonic : Instr → String
  | .addReg .. => "ADD"
  | .addImm .. => "ADD"
  | .andReg .. => "AND"
  | .andImm .. => "AND"
  | .br ..     => "BR"
  | .ret       => "RET"
  | .jmp ..    => "JMP"
  | .jsr ..    => "JSR"
  | .jsrr ..   => "JSRR"
  | .ldb ..    => "LDB"
  | .ldi ..    => "LDI"
  | .ldr ..    => "LDR"
  | .lea ..    => "LEA"
  | .not ..    => "NOT"
  | .rti       => "RTI"
  | .shf ..    => "SHF"
  | .stb ..    => "STB"
  | .sti ..    => "STI"
  | .str ..    => "STR"
  | .trap ..   => "TRAP"

/-- The decoder of `RESERVED_POLICY = refuse`: the first row with `w AND mask = match`
(spec/70_reset_and_hazards.md R209), and a rejection by name where there is none (R100). -/
def decode (w : Word) : Except DecodeError Instr :=
  match opcodeTable.find? (fun row => w &&& row.mask == row.pattern) with
  | some row => .ok (row.build w)
  | none     => .error (.reservedEncoding (decodeIgnoringBits w).mnemonic)

/-- The decoder under either value of `RESERVED_POLICY` (R100). -/
def decodeUnder (policy : ReservedPolicy) (w : Word) : Except DecodeError Instr :=
  match policy with
  | .refuse     => decode w
  | .ignoreBits => .ok (decodeIgnoringBits w)

/-- The word two bytes in memory order form: the lower address holds bits 7:0 (spec/20_memory.md R53,
R57). -/
def wordOfBytes (lo hi : Byte) : Word := hi ++ lo

/-- The decoder over the bytes as memory holds them: the instruction and the bytes after it. -/
def decodeBytes : List Byte → Except DecodeError (Instr × List Byte)
  | lo :: hi :: rest => (decode (wordOfBytes lo hi)).map (·, rest)
  | _                => .error .tooFewBytes

/-- What the decoder reads from an instruction whose bits are `w`: its one word laid out low byte
first (spec/20_memory.md R57). -/
def decodeTableWord (nbits w : Nat) : Option Instr :=
  let v := BitVec.ofNat 16 (w % 2 ^ nbits)
  match decodeBytes [v.extractLsb' 0 8, v.extractLsb' 8 8] with
  | .ok (i, _) => some i
  | .error _   => none

/-- The shape `opcode, register at 11:9, register at 8:6, six bits` (R82). -/
def encodeDRBase (op : BitVec 4) (dr base : Reg) (low : BitVec 6) : Word :=
  op ++ dr.bits ++ base.bits ++ low

/-- The word of an instruction, field by field from bit 15 down (R82, R84). -/
def encode : Instr → Word
  | .addReg dr sr1 sr2   => encodeDRBase 0b0001 dr sr1 (0b000#3 ++ sr2.bits)
  | .addImm dr sr1 imm5  => encodeDRBase 0b0001 dr sr1 (0b1#1 ++ imm5)
  | .andReg dr sr1 sr2   => encodeDRBase 0b0101 dr sr1 (0b000#3 ++ sr2.bits)
  | .andImm dr sr1 imm5  => encodeDRBase 0b0101 dr sr1 (0b1#1 ++ imm5)
  | .br n z p off        =>
      0b0000#4 ++ BitVec.ofBool n ++ BitVec.ofBool z ++ BitVec.ofBool p ++ off
  | .ret                 => 0b1100000111000000#16
  | .jmp base            => 0b1100#4 ++ 0b000#3 ++ base.bits ++ 0b000000#6
  | .jsr off             => 0b0100#4 ++ 0b1#1 ++ off
  | .jsrr base           => 0b0100#4 ++ 0b0#1 ++ 0b00#2 ++ base.bits ++ 0b000000#6
  | .ldb dr base off     => encodeDRBase 0b0010 dr base off
  | .ldi dr base off     => encodeDRBase 0b1010 dr base off
  | .ldr dr base off     => encodeDRBase 0b0110 dr base off
  | .lea dr off          => 0b1110#4 ++ dr.bits ++ off
  | .not dr sr           => encodeDRBase 0b1001 dr sr 0b111111
  | .rti                 => 0b1000000000000000#16
  | .shf dr sr a d imm4  =>
      encodeDRBase 0b1101 dr sr (BitVec.ofBool a ++ BitVec.ofBool d ++ imm4)
  | .stb sr base off     => encodeDRBase 0b0011 sr base off
  | .sti sr base off     => encodeDRBase 0b1011 sr base off
  | .str sr base off     => encodeDRBase 0b0111 sr base off
  | .trap v              => 0b1111#4 ++ 0b0000#4 ++ v

end Sys2Proof
end

