-- ==== Sys2Proof/Machine/Fetch.lean ====
section
/-! DEFINITION. Fetching and decoding the next instruction. -/

namespace Sys2Proof.Machine

/-- The instruction at `pc`: one word read like any other (spec/20_memory.md R57, R70), decoded under
the configured `RESERVED_POLICY` (spec/30_encoding.md R81, R100). -/
def State.fetchInstr (s : State) : Except Refusal (Instr × State) := do
  let (w, s1) ← s.loadWord s.pc
  match decodeUnder s.config.reservedPolicy w with
  | .ok i                             => return (i, s1)
  | .error (.reservedEncoding row)    => throw (.reservedEncoding row)
  | .error .tooFewBytes               => throw (.reservedEncoding "")

/-- The state with an instruction's one word stored at `pc`, low byte first (spec/20_memory.md R57). -/
def State.placeInstr (s : State) (nbits w : Nat) : State :=
  { s with mem := s.mem.writeWord (alignWord s.pc).toNat (BitVec.ofNat 16 (w % 2 ^ nbits)) }

end Sys2Proof.Machine
end

