-- ==== Sys2Proof/Machine/Step.lean ====
section
/-! DEFINITION. The step (spec/70_reset_and_hazards.md R209). -/

namespace Sys2Proof.Machine

/-- Fetch, decode and execute one instruction (spec/70_reset_and_hazards.md R209 items 2 to 5). -/
def State.runInstr (s : State) : Result :=
  match s.fetchInstr with
  | .ok (i, t) => exec i t
  | .error e   => .refused e

/-- One step from a state in which the run is not over: the interrupt entry chosen at this boundary, or
else the next instruction (spec/70_reset_and_hazards.md R209). -/
def step (s : State) : Host.Outcome State Fault Refusal :=
  if s.runOver then .refused .runOver
  else
    match s.environmentActs.chooseInterrupt with
    | (some src, t) => finish (t.interruptEntry src)
    | (none, t)     => t.runInstr

/-- The state with an instruction placed where the next step fetches; it stands for the launch loading
a program (log 1). -/
def State.withFetchWord (s : State) (nbits w : Nat) : State := s.placeInstr nbits w

end Sys2Proof.Machine
end

