-- ==== Sys2Proof/Machine/Assembly.lean ====
section
/-! DEFINITION. The assembler formats of spec/30_encoding.md R103 to R106 as text, and the label arithmetic of
R91. Commentary on the machine: no step reads it. -/

namespace Sys2Proof.Machine

/-- A register as the assembler writes it (spec/30_encoding.md R103). -/
def regText : Reg → String
  | .r0 => "R0"
  | .r1 => "R1"
  | .r2 => "R2"
  | .r3 => "R3"
  | .r4 => "R4"
  | .r5 => "R5"
  | .r6 => "R6"
  | .r7 => "R7"

/-- A signed immediate with `#`. R103 of spec/30_encoding.md allows decimal and hexadecimal, and this printer
writes decimal (DESIGN CHOICE, safe, log 27). -/
def immText {n : Nat} (v : BitVec n) : String := "#" ++ toString v.toInt

/-- SHF's shift count. With `#`, as spec/30_encoding.md R103 writes immediates and section 2.5 of
spec/95_test_vectors.md the counts of the aliases, where the examples of spec/40_operate.md R115 and program P3
write SHF's count bare (DESIGN CHOICE, safe, log 27). -/
def countText (v : BitVec 4) : String := "#" ++ toString v.toNat

/-- One hexadecimal digit, ten and above as a capital letter (DESIGN CHOICE, safe, log 27). -/
def hexDigit (d : Nat) : Char := if d < 10 then Char.ofNat (48 + d) else Char.ofNat (55 + d)

/-- A byte in hexadecimal (spec/30_encoding.md R103, R105), always with two digits (DESIGN CHOICE, safe,
log 27). -/
def hexText (v : BitVec 8) : String :=
  String.ofList ['x', hexDigit (v.toNat / 16), hexDigit (v.toNat % 16)]

/-- The letters after BR; all three are left out as `BR` (spec/30_encoding.md R104, R106). With none the
source gives no mnemonic (R106), and this printer writes `NOP` (DESIGN CHOICE, safe, log 27). -/
def branchText (n z p : Bool) : String :=
  match n, z, p with
  | true,  true,  true  => "BR"
  | true,  true,  false => "BRnz"
  | true,  false, true  => "BRnp"
  | true,  false, false => "BRn"
  | false, true,  true  => "BRzp"
  | false, true,  false => "BRz"
  | false, false, true  => "BRp"
  | false, false, false => "NOP"

/-- A bit as SHF's A and D are written (spec/30_encoding.md R105). -/
def bitText (b : Bool) : String := if b then "1" else "0"

/-- An instruction in its assembler format (spec/30_encoding.md R104, R105). A LABEL operand is written
as the field it stands for, and SHF's count with `#` (DESIGN CHOICE, safe, log 27). -/
def asmText : Instr → String
  | .addReg dr a b       => "ADD " ++ regText dr ++ ", " ++ regText a ++ ", " ++ regText b
  | .addImm dr a imm     => "ADD " ++ regText dr ++ ", " ++ regText a ++ ", " ++ immText imm
  | .andReg dr a b       => "AND " ++ regText dr ++ ", " ++ regText a ++ ", " ++ regText b
  | .andImm dr a imm     => "AND " ++ regText dr ++ ", " ++ regText a ++ ", " ++ immText imm
  | .br n z p off        => branchText n z p ++ " " ++ immText off
  | .ret                 => "RET"
  | .jmp base            => "JMP " ++ regText base
  | .jsr off             => "JSR " ++ immText off
  | .jsrr base           => "JSRR " ++ regText base
  | .ldb dr base off     => "LDB " ++ regText dr ++ ", " ++ regText base ++ ", " ++ immText off
  | .ldi dr base off     => "LDI " ++ regText dr ++ ", " ++ regText base ++ ", " ++ immText off
  | .ldr dr base off     => "LDR " ++ regText dr ++ ", " ++ regText base ++ ", " ++ immText off
  | .lea dr off          => "LEA " ++ regText dr ++ ", " ++ immText off
  | .not dr sr           => "NOT " ++ regText dr ++ ", " ++ regText sr
  | .rti                 => "RTI"
  | .shf dr sr a d imm4  =>
      "SHF " ++ regText dr ++ ", " ++ regText sr ++ ", " ++ bitText a ++ ", " ++ bitText d ++ ", " ++
        countText imm4
  | .stb sr base off     => "STB " ++ regText sr ++ ", " ++ regText base ++ ", " ++ immText off
  | .sti sr base off     => "STI " ++ regText sr ++ ", " ++ regText base ++ ", " ++ immText off
  | .str sr base off     => "STR " ++ regText sr ++ ", " ++ regText base ++ ", " ++ immText off
  | .trap v              => "TRAP " ++ hexText v

/-- The aliases of SHF that the spec's programs are written with (spec/30_encoding.md R105): none where the
instruction has none. The count is written as `countText` writes it (DESIGN CHOICE, safe, log 27). -/
def shiftAliasText : Instr → Option String
  | .shf dr sr a d imm4 =>
    let operands := regText dr ++ ", " ++ regText sr ++ ", " ++ countText imm4
    match a, d with
    | false, false => some ("LSHF " ++ operands)
    | false, true  => some ("RSHFL " ++ operands)
    | true,  true  => some ("RSHFA " ++ operands)
    | true,  false => none
  | .addReg .. => none
  | .addImm .. => none
  | .andReg .. => none
  | .andImm .. => none
  | .br ..     => none
  | .ret       => none
  | .jmp ..    => none
  | .jsr ..    => none
  | .jsrr ..   => none
  | .ldb ..    => none
  | .ldi ..    => none
  | .ldr ..    => none
  | .lea ..    => none
  | .not ..    => none
  | .rti       => none
  | .stb ..    => none
  | .sti ..    => none
  | .str ..    => none
  | .trap ..   => none

/-- The offset field of `n` bits the assembler computes for a label:
`(address of LABEL - (address of the instruction + 2)) / 2`, or none where that is no integer of the
field's range (spec/30_encoding.md R91). -/
def labelField (n : Nat) (instrAddr labelAddr : Word) : Option (BitVec n) :=
  let distance : Int := labelAddr.toNat - (instrAddr.toNat + 2)
  if distance % 2 = 0 ∧ -(2 ^ (n - 1)) ≤ distance / 2 ∧ distance / 2 < 2 ^ (n - 1) then
    some (BitVec.ofInt n (distance / 2))
  else none

end Sys2Proof.Machine
end

