-- ==== Sys2Proof/Machine/Launch.lean ====
section
/-! DEFINITION. The launch: the parameters of spec/10_state.md R42 and the state a run begins in. -/

namespace Sys2Proof.Machine

/-- The launch parameters (spec/10_state.md R42, spec/00_scope.md R8). A value the launch leaves
unspecified is any value of its field (spec/70_reset_and_hazards.md R204). -/
structure Launch where
  pc      : Word
  psr     : Word
  ssp     : Word
  usp     : Word
  r0      : Word
  r1      : Word
  r2      : Word
  r3      : Word
  r4      : Word
  r5      : Word
  r7      : Word
  /-- `LAUNCH_MEM`: bytes by address, a later one replacing an earlier one of the same address. -/
  mem     : List Host.Cell
  device  : Device
  sources : List IntSource
  requestInputs : List (List Bool)
  choices : List BoundaryChoice
  wait    : Wait
  config  : Config
deriving DecidableEq, Repr

/-- Whether a source's entry lies in the interrupt vector table or is placed by the configuration
(spec/60_exceptions.md R179). -/
def Config.placesVector (config : Config) (src : IntSource) : Bool :=
  decide (src.vector ≤ 0x7F) || (config.intVectors.lookup src.vector).isSome

/-- A well-formed launch (spec/70_reset_and_hazards.md R201), with the conditions on the other
parameters: even halting addresses (R205), even table entries, and a place for every source's vector
(spec/60_exceptions.md R179). -/
def Launch.wellFormed (l : Launch) : Bool :=
  !l.pc.getLsbD 0 && decide (l.psr &&& 0x78F8 = 0) &&
  l.config.haltPcs.all (fun a => !a.getLsbD 0) &&
  l.config.excVectors.all (fun e => !e.2.getLsbD 0) &&
  l.config.intVectors.all (fun e => !e.2.getLsbD 0) &&
  l.sources.all (Config.placesVector l.config)

/-- A memory image: each byte written in turn (spec/20_memory.md R54). -/
def Memory.ofImage (image : List Host.Cell) : Memory :=
  image.foldl (fun m cell => m.write cell.1 cell.2) []

/-- The state a run begins in (spec/70_reset_and_hazards.md R200). The launch value of the PC has bit 0
cleared (spec/10_state.md R26) and the undefined PSR bits are 0 (R33). -/
def Launch.start (l : Launch) : State where
  pc      := alignWord l.pc
  r0      := l.r0
  r1      := l.r1
  r2      := l.r2
  r3      := l.r3
  r4      := l.r4
  r5      := l.r5
  r7      := l.r7
  ssp     := l.ssp
  usp     := l.usp
  psr     := l.psr &&& psrMask
  mem     := Memory.ofImage l.mem
  device  := l.device
  sources := l.sources
  requestInputs := l.requestInputs
  choices := l.choices
  wait    := l.wait
  config  := l.config

/-- The conventional launch of spec/70_reset_and_hazards.md R202 with an empty image; the registers and
USP, which it leaves unspecified, at zero (logs 1 to 3). -/
def Launch.conventional : Launch where
  pc      := 0x3000
  psr     := 0x8002
  ssp     := 0x3000
  usp     := 0x0000
  r0      := 0x0000
  r1      := 0x0000
  r2      := 0x0000
  r3      := 0x0000
  r4      := 0x0000
  r5      := 0x0000
  r7      := 0x0000
  mem     := []
  device  := .refuse
  sources := []
  requestInputs := []
  choices := []
  wait    := { places := [], delay := 0, begun := 0 }
  config  := Config.conventional

end Sys2Proof.Machine
end

