-- ==== Sys2Proof/Safety.lean ====
section
/-! DEFINITION. The terms the claims are stated in: what a state keeps, what an instruction may write, what a
handler entry does, and which states are legal. -/

namespace Sys2Proof.Machine

/-- A state no rule forbids: PC[0] = 0 (spec/10_state.md R26), the undefined PSR bits 0 (R33), memory in
its canonical form. -/
def State.legal (s : State) : Bool :=
  !s.pc.getLsbD 0 && decide (s.psr &&& 0x78F8 = 0) && s.mem.wf

/-- N, Z and P together. -/
def State.codes (s : State) : Bool × Bool × Bool := (s.ccN, s.ccZ, s.ccP)

/-- N, Z and P of a result taken as a 16-bit 2's complement integer (spec/10_state.md R29). -/
def codesOf (v : Word) : Bool × Bool × Bool :=
  if v.toInt < 0 then (true, false, false)
  else if v.toInt = 0 then (false, true, false)
  else (false, false, true)

/-- The stack pointer of the mode that is not current (spec/10_state.md R23). -/
def State.otherSp (s : State) : Word := if s.userMode then s.ssp else s.usp

/-- An address of memory, not of a device register (spec/20_memory.md R62). -/
abbrev inMemory (a : Word) : Prop := a.toNat < 0xFE00

/-- Everything outside the processor and its memory is as before. -/
structure SameOutside (s t : State) : Prop where
  device        : t.device = s.device
  sources       : t.sources = s.sources
  requestInputs : t.requestInputs = s.requestInputs
  choices       : t.choices = s.choices
  wait          : t.wait = s.wait
  config        : t.config = s.config

/-- Every byte of memory outside `bytes` reads as before. -/
def SameMemoryBut (bytes : List Word) (s t : State) : Prop :=
  ∀ a : Word, a ∉ bytes → t.byteAt a = s.byteAt a

/-- What an instruction leaves as before when it writes the registers `dst`, the memory bytes `bytes` and
the PC: every other register, the stack pointer of the other mode, the whole PSR, every other byte. -/
structure FrameBut (dst : List Reg) (bytes : List Word) (s t : State) : Prop where
  regs    : ∀ r, r ∉ dst → t.reg r = s.reg r
  otherSp : t.otherSp = s.otherSp
  psr     : t.psr = s.psr
  memory  : SameMemoryBut bytes s t
  outside : SameOutside s t

/-- What the ten instructions that set the condition codes do with a value: DR holds it, N, Z and P are
its codes, the PC is the next instruction's, and everything else is as before, every byte of memory
and the rest of the PSR among it (spec/10_state.md R25, R26, R29, R30). -/
structure WritesResult (s t : State) (dr : Reg) (v : Word) : Prop where
  result  : t.reg dr = v
  codes   : t.codes = codesOf v
  pc      : t.pc = (s.pc + 2) &&& 0xFFFE
  regs    : ∀ r, r ≠ dr → t.reg r = s.reg r
  otherSp : t.otherSp = s.otherSp
  psrRest : t.psr &&& 0xFFF8 = s.psr &&& 0xFFF8
  memory  : SameMemoryBut [] s t
  outside : SameOutside s t

/-- The four bytes a handler entry stores to: the two words below SSP (spec/60_exceptions.md R178). -/
def entryBytes (ssp : Word) : List Word :=
  [(ssp - 2) &&& 0xFFFE, ((ssp - 2) &&& 0xFFFE) + 1, (ssp - 4) &&& 0xFFFE, ((ssp - 4) &&& 0xFFFE) + 1]

/-- What a handler entry does (spec/60_exceptions.md R178): the PSR and then a PC on the supervisor
stack, Supervisor mode, a priority level, the PC from a table entry, all else as before. -/
structure EntersHandler (s t : State) (savedPc : Word) (level : BitVec 3) (entry : Word) : Prop where
  savedPsr : t.wordAt (s.ssp - 2) = s.psr &&& 0x8707
  savedPc  : t.wordAt (s.ssp - 4) = savedPc
  ssp      : t.ssp = s.ssp - 4
  usp      : t.usp = s.usp
  mode     : t.userMode = false
  priority : t.priority = level
  psrRest  : t.psr &&& 0x78FF = s.psr &&& 0x78FF
  pc       : t.pc = t.wordAt entry &&& 0xFFFE
  regs     : ∀ r, r ≠ .r6 → t.reg r = s.reg r
  memory   : SameMemoryBut (entryBytes s.ssp) s t
  outside  : SameOutside s t

/-- The three accesses of a handler entry in their order (spec/20_memory.md R61; spec/60_exceptions.md R178):
the PSR below SSP, a PC below it, and the table entry. -/
def entryAccesses (s : State) (savedPc entry : Word) : Except Refusal (Word × State) :=
  match s.storeWord (s.ssp - 2) (s.psr &&& 0x8707) with
  | .error e => .error e
  | .ok x =>
    match x.storeWord (s.ssp - 4) savedPc with
    | .error e => .error e
    | .ok y    => y.loadWord entry

/-- What a handler entry makes of the state after its accesses: Supervisor mode, a priority level, SSP down
by two words, the PC from the table entry's word, all else as the accesses leave it. -/
structure EntersFrom (s accessed t : State) (entryWord : Word) (level : BitVec 3) : Prop where
  ssp      : t.ssp = s.ssp - 4
  usp      : t.usp = s.usp
  mode     : t.userMode = false
  priority : t.priority = level
  psrRest  : t.psr &&& 0x78FF = s.psr &&& 0x78FF
  pc       : t.pc = entryWord &&& 0xFFFE
  regs     : ∀ r, r ≠ .r6 → t.reg r = s.reg r
  memory   : SameMemoryBut [] accessed t
  outside  : SameOutside accessed t

/-- Both words a handler entry pushes, and the table entry it reads, lie in memory. -/
abbrev entryInMemory (s : State) (entry : Word) : Prop :=
  inMemory ((s.ssp - 2) &&& 0xFFFE) ∧ inMemory ((s.ssp - 4) &&& 0xFFFE) ∧ inMemory (entry &&& 0xFFFE)

/-- Both words RTI pops lie in memory. -/
abbrev popsInMemory (s : State) : Prop :=
  inMemory (s.ssp &&& 0xFFFE) ∧ inMemory ((s.ssp + 2) &&& 0xFFFE)

/-- A source's request is accepted: it is one of the sources, it requests, and its priority is strictly
greater than the process's, as unsigned numbers (spec/60_exceptions.md R176). -/
def AcceptedAt (s : State) (src : IntSource) : Prop :=
  src ∈ s.sources ∧ src.request = true ∧ s.priority.toNat < src.pl.toNat

/-- An accepted request that no accepted request exceeds in priority (spec/60_exceptions.md R177). -/
def HighestAt (s : State) (src : IntSource) : Prop :=
  AcceptedAt s src ∧ ∀ other, AcceptedAt s other → other.pl.toNat ≤ src.pl.toNat

/-- The step from `s` to `t` is the interrupt entry of an accepted request of the highest priority at its
boundary, from the boundary's state with what is left to choose (spec/60_exceptions.md R177, R178). -/
def EntryTaken (s t : State) (src : IntSource) : Prop :=
  HighestAt s.environmentActs src ∧
    ∃ u : State, u = { s.environmentActs with choices := u.choices, wait := u.wait } ∧
      u.interruptEntry src = .ok t

/-- The source at this place has an accepted request (spec/60_exceptions.md R176). -/
def RequestAt (s : State) (i : Nat) : Prop := ∃ src, s.sources[i]? = some src ∧ AcceptedAt s src

/-- How many boundaries can pass at most before a request at this place that stays accepted is taken or held
off: the choices given, the delay left of the wait, and the free delay of the next wait where the place is not
in this one (spec/60_exceptions.md R177; log 10). -/
def entryBound (s : State) (i : Nat) : Nat :=
  s.choices.length + s.wait.delay +
    if i ∈ s.wait.places then 0 else Config.entryDelay s.wait.begun

/-- The next step runs this instruction, unless an interrupt is taken first: from the state that the
environment and the choice of no interrupt leave (spec/70_reset_and_hazards.md R209). -/
def RunsNext (i : Instr) (t : State) : Prop :=
  ∀ u, t.environmentActs.chooseInterrupt = (none, u) → step t = exec i u

/-- An outcome with its next state changed, and its stops as they are. -/
def mapNext (f : State → State) : Result → Result
  | .next t    => .next (f t)
  | .fault e   => .fault e
  | .refused e => .refused e

/-- The DR of the ten instructions that set the condition codes (spec/10_state.md R30). -/
def resultReg : Instr → Option Reg
  | .addReg dr _ _  => some dr
  | .addImm dr _ _  => some dr
  | .andReg dr _ _  => some dr
  | .andImm dr _ _  => some dr
  | .br _ _ _ _     => none
  | .ret            => none
  | .jmp _          => none
  | .jsr _          => none
  | .jsrr _         => none
  | .ldb dr _ _     => some dr
  | .ldi dr _ _     => some dr
  | .ldr dr _ _     => some dr
  | .lea dr _       => some dr
  | .not dr _       => some dr
  | .rti            => none
  | .shf dr _ _ _ _ => some dr
  | .stb _ _ _      => none
  | .sti _ _ _      => none
  | .str _ _ _      => none
  | .trap _         => none

/-- The registers an instruction writes (spec/10_state.md R22). -/
def writtenRegs : Instr → List Reg
  | .addReg dr _ _  => [dr]
  | .addImm dr _ _  => [dr]
  | .andReg dr _ _  => [dr]
  | .andImm dr _ _  => [dr]
  | .br _ _ _ _     => []
  | .ret            => []
  | .jmp _          => []
  | .jsr _          => [.r7]
  | .jsrr _         => [.r7]
  | .ldb dr _ _     => [dr]
  | .ldi dr _ _     => [dr]
  | .ldr dr _ _     => [dr]
  | .lea dr _       => [dr]
  | .not dr _       => [dr]
  | .rti            => [.r6]
  | .shf dr _ _ _ _ => [dr]
  | .stb _ _ _      => []
  | .sti _ _ _      => []
  | .str _ _ _      => []
  | .trap _         => [.r7]

/-- The memory bytes an instruction stores to from a state (spec/20_memory.md R61), with the addresses
its meaning computes; RTI's are those of the handler entry it takes in User mode. -/
def storedBytes (i : Instr) (s : State) : List Word :=
  match i with
  | .stb _ base off => [s.eaByte base off]
  | .str _ base off => [s.eaWord base off &&& 0xFFFE, (s.eaWord base off &&& 0xFFFE) + 1]
  | .sti _ base off =>
    match s.loadWord (s.eaWord base off) with
    | .ok (p, _) => [p &&& 0xFFFE, (p &&& 0xFFFE) + 1]
    | .error _   => []
  | .rti => if s.userMode then entryBytes s.ssp else []
  | .addReg .. => []
  | .addImm .. => []
  | .andReg .. => []
  | .andImm .. => []
  | .br ..     => []
  | .ret       => []
  | .jmp ..    => []
  | .jsr ..    => []
  | .jsrr ..   => []
  | .ldb ..    => []
  | .ldi ..    => []
  | .ldr ..    => []
  | .lea ..    => []
  | .not ..    => []
  | .shf ..    => []
  | .trap ..   => []

/-- A word whose opcode and mode bit select a row whose fixed bits it violates, as
spec/30_encoding.md R100 lists them. -/
def fixedFieldViolation (w : Word) : Bool :=
  match (w.extractLsb' 12 4).toNat with
  | 0x1 => !w.getLsbD 5 && w.extractLsb' 3 2 != 0b00
  | 0x5 => !w.getLsbD 5 && w.extractLsb' 3 2 != 0b00
  | 0xC => w.extractLsb' 9 3 != 0b000 || w.extractLsb' 0 6 != 0b000000
  | 0x4 => !w.getLsbD 11 && (w.extractLsb' 9 2 != 0b00 || w.extractLsb' 0 6 != 0b000000)
  | 0x9 => w.extractLsb' 0 6 != 0b111111
  | 0x8 => w.extractLsb' 0 12 != 0
  | 0xF => w.extractLsb' 8 4 != 0b0000
  | _   => false

/-- The word with the fixed bits of the row that its opcode and mode bit select put as the row has them, and
every named field as it stands (spec/30_encoding.md R82, R85, R100). -/
def withFixedBits (w : Word) : Word :=
  match (w.extractLsb' 12 4).toNat with
  | 0x1 => if w.getLsbD 5 then w else w &&& 0xFFE7
  | 0x5 => if w.getLsbD 5 then w else w &&& 0xFFE7
  | 0xC => w &&& 0xF1C0
  | 0x4 => if w.getLsbD 11 then w else w &&& 0xF9C0
  | 0x9 => w ||| 0x003F
  | 0x8 => w &&& 0xF000
  | 0xF => w &&& 0xF0FF
  | _   => w

end Sys2Proof.Machine
end

