-- ==== Sys2Proof/Certificates/Slice0/Obligations.lean ====
section
/-! DEFINITION. The statements about the model, by the rules of spec/. -/

open Sys2Proof Sys2Proof.Machine

/-! ### Encoding -/

/-- Every well-formed instruction's word decodes to it, with every operand (spec/30_encoding.md R82, R84,
R86). -/
def Obligations.DecodeOfEncode : Prop :=
  ∀ i : Instr, i.wellFormed = true → decode (encode i) = .ok i

/-- A word that decodes is the word of the instruction it decodes to, so each word has one meaning
(spec/30_encoding.md R82, R84, R86). -/
def Obligations.EncodeOfDecode : Prop :=
  ∀ (w : Word) (i : Instr), decode w = .ok i → encode i = w ∧ i.wellFormed = true

/-- The decoder rejects exactly the words spec/30_encoding.md R100 lists as fixed-field violations. -/
def Obligations.RejectedWordsViolateFixedFields : Prop :=
  ∀ w : Word, (∃ e, decode w = .error e) ↔ fixedFieldViolation w = true

/-- Under `ignore_bits` every word decodes to the row its opcode and mode bit select, with exactly the row's
named fields: to the well-formed instruction whose word it is once the row's fixed bits are put right, which
is the one `refuse` reads from that word, and from the word itself where it accepts it. The words whose fixed
bits are not right are those `refuse` rejects (spec/30_encoding.md R82, R85, R100). The spec's decision D2
(log 6). -/
def Obligations.IgnoreBitsExtendsTheDecoder : Prop :=
  ∀ w : Word,
    (∃ i : Instr, decodeUnder .ignoreBits w = .ok i ∧ i.opcode = w.extractLsb' 12 4 ∧
      i.wellFormed = true ∧ encode i = withFixedBits w ∧
      decodeUnder .refuse (withFixedBits w) = .ok i ∧
      (∀ j, decodeUnder .refuse w = .ok j → j = i)) ∧
    (withFixedBits w = w ↔ ∃ j, decodeUnder .refuse w = .ok j)

/-- Words written out from the source's examples S10 to S21 and Figure 1.2 decode to the instructions they
stand for, and print in the assembler formats of spec/30_encoding.md R104 and R105. The formats of R105 and
the aliases of SHF are the spec's decision D29; a LABEL printed as its field, and SHF's count printed with `#`,
are the model's choice (log 27).
The offsets in S14, S15 and S18 are those of spec/95_test_vectors.md section 1.3. -/
def Obligations.SourceExamplesDecode : Prop :=
  decode 0b0001010011000100 = .ok (.addReg .r2 .r3 .r4) ∧
  asmText (.addReg .r2 .r3 .r4) = "ADD R2, R3, R4" ∧
  decode 0b0001010011100111 = .ok (.addImm .r2 .r3 7) ∧
  asmText (.addImm .r2 .r3 7) = "ADD R2, R3, #7" ∧
  decode 0b0101010011000100 = .ok (.andReg .r2 .r3 .r4) ∧
  asmText (.andReg .r2 .r3 .r4) = "AND R2, R3, R4" ∧
  decode 0b0101010011100111 = .ok (.andImm .r2 .r3 7) ∧
  asmText (.andImm .r2 .r3 7) = "AND R2, R3, #7" ∧
  decode 0b0000011111111101 = .ok (.br false true true (-3)) ∧
  asmText (.br false true true (-3)) = "BRzp #-3" ∧
  decode 0b0000111000000101 = .ok (.br true true true 5) ∧
  asmText (.br true true true 5) = "BR #5" ∧
  decode 0b1100000010000000 = .ok (.jmp .r2) ∧
  asmText (.jmp .r2) = "JMP R2" ∧
  decode 0b1100000111000000 = .ok .ret ∧
  asmText .ret = "RET" ∧
  decode 0b0100100000100000 = .ok (.jsr 0x20) ∧
  asmText (.jsr 0x20) = "JSR #32" ∧
  decode 0b0100000011000000 = .ok (.jsrr .r3) ∧
  asmText (.jsrr .r3) = "JSRR R3" ∧
  decode 0b0010100010111011 = .ok (.ldb .r4 .r2 (-5)) ∧
  asmText (.ldb .r4 .r2 (-5)) = "LDB R4, R2, #-5" ∧
  decode 0b1010100010001010 = .ok (.ldi .r4 .r2 10) ∧
  asmText (.ldi .r4 .r2 10) = "LDI R4, R2, #10" ∧
  decode 0b0110001010000011 = .ok (.ldr .r1 .r2 3) ∧
  asmText (.ldr .r1 .r2 3) = "LDR R1, R2, #3" ∧
  decode 0b1110000000000111 = .ok (.lea .r0 7) ∧
  asmText (.lea .r0 7) = "LEA R0, #7" ∧
  decode 0b1001001010111111 = .ok (.not .r1 .r2) ∧
  asmText (.not .r1 .r2) = "NOT R1, R2" ∧
  decode 0b1000000000000000 = .ok .rti ∧
  asmText .rti = "RTI" ∧
  decode 0b1101001010110100 = .ok (.shf .r1 .r2 true true 4) ∧
  asmText (.shf .r1 .r2 true true 4) = "SHF R1, R2, 1, 1, #4" ∧
  shiftAliasText (.shf .r1 .r2 true true 4) = some "RSHFA R1, R2, #4" ∧
  shiftAliasText (.shf .r1 .r2 false true 4) = some "RSHFL R1, R2, #4" ∧
  shiftAliasText (.shf .r1 .r2 false false 4) = some "LSHF R1, R2, #4" ∧
  decode 0b0011001010000001 = .ok (.stb .r1 .r2 1) ∧
  asmText (.stb .r1 .r2 1) = "STB R1, R2, #1" ∧
  decode 0b1011001010000000 = .ok (.sti .r1 .r2 0) ∧
  asmText (.sti .r1 .r2 0) = "STI R1, R2, #0" ∧
  decode 0b0111001010111111 = .ok (.str .r1 .r2 (-1)) ∧
  asmText (.str .r1 .r2 (-1)) = "STR R1, R2, #-1" ∧
  decode 0b1111000000100101 = .ok (.trap 0x25) ∧
  asmText (.trap 0x25) = "TRAP x25"

/-- A label has a field exactly where its distance from the incremented PC is an even number of bytes in the
field's range, the field is half of that distance, and its target is the label
(spec/30_encoding.md R91, an inference of the spec from the target formulas). -/
def Obligations.LabelFieldReachesTheLabel : Prop :=
  ∀ (s : State) (label : Word),
    (∀ f : BitVec 9, labelField 9 s.pc label = some f ↔
      (label.toNat : Int) = s.pc.toNat + 2 + 2 * f.toInt) ∧
    ((∃ f, labelField 9 s.pc label = some f) ↔
      ∃ k : Int, -256 ≤ k ∧ k ≤ 255 ∧ (label.toNat : Int) - (s.pc.toNat + 2) = 2 * k) ∧
    (∀ f : BitVec 9, labelField 9 s.pc label = some f → s.pcRelative f = label) ∧
    (∀ f : BitVec 11, labelField 11 s.pc label = some f ↔
      (label.toNat : Int) = s.pc.toNat + 2 + 2 * f.toInt) ∧
    ((∃ f, labelField 11 s.pc label = some f) ↔
      ∃ k : Int, -1024 ≤ k ∧ k ≤ 1023 ∧ (label.toNat : Int) - (s.pc.toNat + 2) = 2 * k) ∧
    (∀ f : BitVec 11, labelField 11 s.pc label = some f → s.pcRelative f = label)

/-! ### Operand forms -/

/-- Every operand form's value, as the field's number scaled by its rule (spec/30_encoding.md R88;
spec/42_load.md R144; spec/20_memory.md R60). R88 says that the scaling for STB, STI, STR and that of
trapvect8 are not in the source: they are the spec's decisions D12 and D13 (logs 13, 14). The sums modulo
2^16 are its decision D4 (log 19). -/
def Obligations.OperandFormsExtendThenScale : Prop :=
  (∀ imm5 : BitVec 5, imm5Value imm5 = BitVec.ofInt 16 imm5.toInt) ∧
  (∀ (s : State) (base : Reg) (off : BitVec 6),
    s.eaByte base off = s.reg base + BitVec.ofInt 16 off.toInt ∧
    s.eaWord base off = s.reg base + BitVec.ofInt 16 (2 * off.toInt)) ∧
  (∀ (s : State) (off : BitVec 9), s.pcRelative off = s.pc + 2 + BitVec.ofInt 16 (2 * off.toInt)) ∧
  (∀ (s : State) (off : BitVec 11), s.pcRelative off = s.pc + 2 + BitVec.ofInt 16 (2 * off.toInt)) ∧
  (∀ v : BitVec 8, (trapEntry v).toNat = 2 * v.toNat)

/-! ### Operate instructions -/

/-- ADD, register form (spec/40_operate.md R110): the sum modulo 2^16. -/
def Obligations.AddRegisterForm : Prop :=
  ∀ (dr sr1 sr2 : Reg) (s : State),
    decode (0b0001#4 ++ dr.bits ++ sr1.bits ++ 0b000#3 ++ sr2.bits) = .ok (.addReg dr sr1 sr2) ∧
    ∃ t, exec (.addReg dr sr1 sr2) s = .next t ∧
      WritesResult s t dr (BitVec.ofNat 16 ((s.reg sr1).toNat + (s.reg sr2).toNat))

/-- ADD, immediate form (spec/40_operate.md R111): imm5 is a signed number. -/
def Obligations.AddImmediateForm : Prop :=
  ∀ (dr sr1 : Reg) (imm5 : BitVec 5) (s : State),
    decode (0b0001#4 ++ dr.bits ++ sr1.bits ++ 0b1#1 ++ imm5) = .ok (.addImm dr sr1 imm5) ∧
    ∃ t, exec (.addImm dr sr1 imm5) s = .next t ∧
      WritesResult s t dr (BitVec.ofInt 16 ((s.reg sr1).toInt + imm5.toInt))

/-- AND, register form (spec/40_operate.md R112): bit by bit. -/
def Obligations.AndRegisterForm : Prop :=
  ∀ (dr sr1 sr2 : Reg) (s : State),
    decode (0b0101#4 ++ dr.bits ++ sr1.bits ++ 0b000#3 ++ sr2.bits) = .ok (.andReg dr sr1 sr2) ∧
    ∃ t v, exec (.andReg dr sr1 sr2) s = .next t ∧ WritesResult s t dr v ∧
      ∀ k, k < 16 → v.getLsbD k = ((s.reg sr1).getLsbD k && (s.reg sr2).getLsbD k)

/-- AND, immediate form (spec/40_operate.md R113): bits 15:5 of the immediate are its bit 4. -/
def Obligations.AndImmediateForm : Prop :=
  ∀ (dr sr1 : Reg) (imm5 : BitVec 5) (s : State),
    decode (0b0101#4 ++ dr.bits ++ sr1.bits ++ 0b1#1 ++ imm5) = .ok (.andImm dr sr1 imm5) ∧
    ∃ t v, exec (.andImm dr sr1 imm5) s = .next t ∧ WritesResult s t dr v ∧
      ∀ k, k < 16 → v.getLsbD k = ((s.reg sr1).getLsbD k && imm5.getLsbD (min k 4))

/-- NOT (spec/40_operate.md R114): the bitwise complement, `xFFFF - x[SR]`. The spec's decision D10, not the
source's words (log 13). -/
def Obligations.NotComplements : Prop :=
  ∀ (dr sr : Reg) (s : State),
    decode (0b1001#4 ++ dr.bits ++ sr.bits ++ 0b111111#6) = .ok (.not dr sr) ∧
    ∃ t, exec (.not dr sr) s = .next t ∧
      WritesResult s t dr (BitVec.ofNat 16 (0xFFFF - (s.reg sr).toNat))

/-- SHF (spec/40_operate.md R115): D = 0 multiplies whatever A, D = 1 with A = 0 divides the unsigned
number, D = 1 with A = 1 divides the signed number rounding toward minus infinity. The meaning of A and D
is the spec's decision D9, not the source's words (log 12). -/
def Obligations.ShfShiftsByItsModeBits : Prop :=
  ∀ (dr sr : Reg) (a d : Bool) (imm4 : BitVec 4) (s : State),
    decode (0b1101#4 ++ dr.bits ++ sr.bits ++ BitVec.ofBool a ++ BitVec.ofBool d ++ imm4) =
      .ok (.shf dr sr a d imm4) ∧
    ∃ t, exec (.shf dr sr a d imm4) s = .next t ∧
      WritesResult s t dr
        (match d, a with
          | false, _    => BitVec.ofNat 16 ((s.reg sr).toNat * 2 ^ imm4.toNat)
          | true, false => BitVec.ofNat 16 ((s.reg sr).toNat / 2 ^ imm4.toNat)
          | true, true  => BitVec.ofInt 16 ((s.reg sr).toInt / 2 ^ imm4.toNat))

/-! ### Control instructions -/

/-- BR (spec/41_control.md R130): the branch is taken when a tested code is set, on every combination of
codes; nothing but the PC changes. -/
def Obligations.BrTestsItsCodes : Prop :=
  ∀ (n z p : Bool) (off : BitVec 9) (s : State),
    decode (0b0000#4 ++ BitVec.ofBool n ++ BitVec.ofBool z ++ BitVec.ofBool p ++ off) =
      .ok (.br n z p off) ∧
    ∃ t, exec (.br n z p off) s = .next t ∧ FrameBut [] [] s t ∧
      t.pc = (if n = true ∧ s.psr.getLsbD 2 = true ∨ z = true ∧ s.psr.getLsbD 1 = true ∨
                 p = true ∧ s.psr.getLsbD 0 = true
              then s.pc + 2 + BitVec.ofInt 16 (2 * off.toInt) else s.pc + 2) &&& 0xFFFE

/-- The 512 words x0000 to x01FF are no-ops: they only advance the PC. An inference of the spec
(spec/30_encoding.md R101) from BR's formula. -/
def Obligations.BrWithoutCodesIsANoOp : Prop :=
  ∀ w : Word, w.toNat ≤ 0x01FF → ∃ off, decode w = .ok (.br false false false off) ∧
    ∀ s : State, exec (.br false false false off) s = .next { s with pc := (s.pc + 2) &&& 0xFFFE }

/-- JMP and RET (spec/41_control.md R131, R132): the register with bit 0 dropped; RET is JMP R7. -/
def Obligations.JmpAndRetLoadThePc : Prop :=
  (∀ (base : Reg) (s : State),
    (base ≠ .r7 → decode (0b1100000#7 ++ base.bits ++ 0b000000#6) = .ok (.jmp base)) ∧
    ∃ t, exec (.jmp base) s = .next t ∧ t.pc = s.reg base &&& 0xFFFE ∧ FrameBut [] [] s t) ∧
  decode 0xC1C0 = .ok .ret ∧
  ∀ s : State, exec .ret s = exec (.jmp .r7) s ∧
    ∃ t, exec .ret s = .next t ∧ t.pc = s.r7 &&& 0xFFFE ∧ FrameBut [] [] s t

/-- JSR (spec/41_control.md R133). -/
def Obligations.JsrLinksAndJumps : Prop :=
  ∀ (off : BitVec 11) (s : State),
    decode (0b0100#4 ++ 0b1#1 ++ off) = .ok (.jsr off) ∧
    ∃ t, exec (.jsr off) s = .next t ∧ t.reg .r7 = s.pc + 2 ∧
      t.pc = (s.pc + 2 + BitVec.ofInt 16 (2 * off.toInt)) &&& 0xFFFE ∧ FrameBut [.r7] [] s t

/-- JSRR (spec/41_control.md R134): R7 is written first, so with base R7 the call falls through. The order is
the spec's decision D15 between two readings (log 16). -/
def Obligations.JsrrLinksBeforeReadingItsBase : Prop :=
  ∀ (base : Reg) (s : State),
    decode (0b0100000#7 ++ base.bits ++ 0b000000#6) = .ok (.jsrr base) ∧
    ∃ t, exec (.jsrr base) s = .next t ∧ t.reg .r7 = s.pc + 2 ∧
      t.pc = (if base = .r7 then s.pc + 2 else s.reg base) &&& 0xFFFE ∧ FrameBut [.r7] [] s t

/-! ### Load instructions -/

/-- LDB from memory (spec/42_load.md R140): the byte, zero-extended. -/
def Obligations.LdbLoadsAByteZeroExtended : Prop :=
  ∀ (dr base : Reg) (off : BitVec 6) (s : State),
    decode (0b0010#4 ++ dr.bits ++ base.bits ++ off) = .ok (.ldb dr base off) ∧
    (inMemory (s.eaByte base off) →
      ∃ t, exec (.ldb dr base off) s = .next t ∧
        WritesResult s t dr (BitVec.ofNat 16 (s.byteAt (s.eaByte base off)).toNat))

/-- LDI from memory (spec/42_load.md R141): the word whose address is the word at the effective address. -/
def Obligations.LdiLoadsAWordIndirect : Prop :=
  ∀ (dr base : Reg) (off : BitVec 6) (s : State),
    decode (0b1010#4 ++ dr.bits ++ base.bits ++ off) = .ok (.ldi dr base off) ∧
    (inMemory (s.eaWord base off &&& 0xFFFE) →
      inMemory (s.wordAt (s.eaWord base off) &&& 0xFFFE) →
      ∃ t, exec (.ldi dr base off) s = .next t ∧
        WritesResult s t dr (s.wordAt (s.wordAt (s.eaWord base off))))

/-- LDR from memory (spec/42_load.md R142). -/
def Obligations.LdrLoadsAWord : Prop :=
  ∀ (dr base : Reg) (off : BitVec 6) (s : State),
    decode (0b0110#4 ++ dr.bits ++ base.bits ++ off) = .ok (.ldr dr base off) ∧
    (inMemory (s.eaWord base off &&& 0xFFFE) →
      ∃ t, exec (.ldr dr base off) s = .next t ∧ WritesResult s t dr (s.wordAt (s.eaWord base off)))

/-- LEA (spec/42_load.md R143): the PC-relative address itself. The spec's decision D11, not the source's
words (log 13). -/
def Obligations.LeaLoadsAnAddress : Prop :=
  ∀ (dr : Reg) (off : BitVec 9) (s : State),
    decode (0b1110#4 ++ dr.bits ++ off) = .ok (.lea dr off) ∧
    ∃ t, exec (.lea dr off) s = .next t ∧
      WritesResult s t dr (s.pc + 2 + BitVec.ofInt 16 (2 * off.toInt))

/-! ### Store instructions -/

/-- STB to memory (spec/43_store.md R150): the low byte of SR, and no other byte changes. The spec's decision
D12, not the source's words (log 13). -/
def Obligations.StbStoresTheLowByte : Prop :=
  ∀ (sr base : Reg) (off : BitVec 6) (s : State),
    decode (0b0011#4 ++ sr.bits ++ base.bits ++ off) = .ok (.stb sr base off) ∧
    (inMemory (s.eaByte base off) →
      ∃ t, exec (.stb sr base off) s = .next t ∧
        (t.byteAt (s.eaByte base off)).toNat = (s.reg sr).toNat % 256 ∧
        t.pc = (s.pc + 2) &&& 0xFFFE ∧ FrameBut [] [s.eaByte base off] s t)

/-- STI to memory (spec/43_store.md R151): SR at the word whose address is the word at the effective
address, read before the store. The spec's decision D12, not the source's words (log 13). -/
def Obligations.StiStoresAWordIndirect : Prop :=
  ∀ (sr base : Reg) (off : BitVec 6) (s : State),
    decode (0b1011#4 ++ sr.bits ++ base.bits ++ off) = .ok (.sti sr base off) ∧
    (inMemory (s.eaWord base off &&& 0xFFFE) →
      inMemory (s.wordAt (s.eaWord base off) &&& 0xFFFE) →
      ∃ t, exec (.sti sr base off) s = .next t ∧
        t.wordAt (s.wordAt (s.eaWord base off)) = s.reg sr ∧ t.pc = (s.pc + 2) &&& 0xFFFE ∧
        FrameBut [] [s.wordAt (s.eaWord base off) &&& 0xFFFE,
          (s.wordAt (s.eaWord base off) &&& 0xFFFE) + 1] s t)

/-- STR to memory (spec/43_store.md R152): SR at the aligned word, low byte at the even address. The spec's
decision D12, not the source's words (log 13). -/
def Obligations.StrStoresAWord : Prop :=
  ∀ (sr base : Reg) (off : BitVec 6) (s : State),
    decode (0b0111#4 ++ sr.bits ++ base.bits ++ off) = .ok (.str sr base off) ∧
    (inMemory (s.eaWord base off &&& 0xFFFE) →
      ∃ t, exec (.str sr base off) s = .next t ∧
        (t.byteAt (s.eaWord base off &&& 0xFFFE)).toNat = (s.reg sr).toNat % 256 ∧
        (t.byteAt ((s.eaWord base off &&& 0xFFFE) + 1)).toNat = (s.reg sr).toNat / 256 ∧
        t.pc = (s.pc + 2) &&& 0xFFFE ∧
        FrameBut [] [s.eaWord base off &&& 0xFFFE, (s.eaWord base off &&& 0xFFFE) + 1] s t)

/-! ### System instructions -/

/-- TRAP (spec/44_system.md R160): R7 links, the PC comes from the entry at `2 * trapvect8`; the mode, the
priority level, both stack pointers and memory stay, for every one of the 256 vectors. The spec's
decision D13, not the source's words (log 14). -/
def Obligations.TrapCallsThroughItsTable : Prop :=
  ∀ (v : BitVec 8) (s : State),
    decode (0b11110000#8 ++ v) = .ok (.trap v) ∧
    ∃ t, exec (.trap v) s = .next t ∧ t.reg .r7 = s.pc + 2 ∧
      t.pc = s.wordAt (BitVec.ofNat 16 (2 * v.toNat)) &&& 0xFFFE ∧ FrameBut [.r7] [] s t

/-- RTI in Supervisor mode (spec/44_system.md R161): the PC and then the PSR are popped from the supervisor
stack; no other register, no byte of memory and not USP changes. The spec's decision D14, not the source's
words (log 15). -/
def Obligations.RtiPopsPcAndPsr : Prop :=
  decode 0x8000 = .ok .rti ∧
  ∀ s : State, s.userMode = false → popsInMemory s →
    ∃ t, exec .rti s = .next t ∧ t.pc = s.wordAt s.ssp &&& 0xFFFE ∧
      t.psr = s.wordAt (s.ssp + 2) &&& 0x8707 ∧ t.ssp = s.ssp + 4 ∧ t.usp = s.usp ∧
      (∀ r, r ≠ .r6 → t.reg r = s.reg r) ∧ SameMemoryBut [] s t ∧ SameOutside s t

/-- RTI in User mode under `EXC_POLICY = fault` (spec/60_exceptions.md R172): the run ends in the fault
state named after the exception. The spec's decision D16 (logs 15, 24). -/
def Obligations.RtiInUserModeFaults : Prop :=
  ∀ s : State, s.userMode = true → s.config.excPolicy = .fault →
    exec .rti s = .fault .privilegeModeViolation

/-- RTI in User mode under `EXC_POLICY = vector` (spec/60_exceptions.md R172): the handler of code x00 is
entered with `pc_inc` pushed and the priority level unchanged. The spec's decision D16 (log 24). -/
def Obligations.RtiInUserModeEntersItsHandler : Prop :=
  ∀ s : State, s.userMode = true → s.config.excPolicy = .vector →
    entryInMemory s (vectorAddr s.config.excVectors 0x00) →
    ∃ t, exec .rti s = .next t ∧
      EntersHandler s t (s.pc + 2) s.priority (vectorAddr s.config.excVectors 0x00)

/-! ### Interrupts -/

/-- Interrupt entry (spec/60_exceptions.md R178): the whole sequence, for every source. The spec's decision
D17 (log 25). -/
def Obligations.InterruptEntrySavesAndVectors : Prop :=
  ∀ (s : State) (src : IntSource),
    entryInMemory s (vectorAddr s.config.intVectors src.vector) →
    ∃ t, s.interruptEntry src = .ok t ∧
      EntersHandler s t s.pc src.pl (vectorAddr s.config.intVectors src.vector)

/-- The entry of a vector: where the configuration's first departure for it puts it, and the conventional
place where it has none (spec/60_exceptions.md R172, R179). The spec's decisions D16 and D18; a table as a
list of departures is the model's choice (log 11). -/
def Obligations.VectorEntryAddresses : Prop :=
  (∀ (table : List (BitVec 8 × Word)) (v : BitVec 8), (∀ e ∈ table, e.1 ≠ v) →
    (vectorAddr table v).toNat = 0x0100 + 2 * v.toNat) ∧
  (∀ (before rest : List (BitVec 8 × Word)) (v : BitVec 8) (a : Word), (∀ e ∈ before, e.1 ≠ v) →
    vectorAddr (before ++ (v, a) :: rest) v = a)

/-- There is an interrupt to take exactly where some request's priority exceeds the process's; so nothing
interrupts PL7, and a source at PL0 never interrupts (spec/60_exceptions.md R176). The spec's decision D17
(log 25). Where there is none, only the model's own wait ends (log 10). -/
def Obligations.AcceptanceComparesPriorities : Prop :=
  ∀ s : State,
    ((∃ src ∈ s.sources, src.request = true ∧ s.priority.toNat < src.pl.toNat) ↔ s.candidates ≠ []) ∧
    (s.candidates = [] → s.chooseInterrupt = (none, { s with wait := s.wait.over })) ∧
    (s.priority = 7 → s.chooseInterrupt = (none, { s with wait := s.wait.over })) ∧
    (∀ src u, s.chooseInterrupt = (some src, u) → src.pl ≠ 0)

/-- The interrupt taken is an accepted request of the highest priority, and choosing it changes nothing but
what is left to choose (spec/60_exceptions.md R177, R180, R181). The spec's decisions D17 and D27 (log 25);
the fields `choices` and `wait` are the model's own (log 10). -/
def Obligations.TakenInterruptIsOfHighestPriority : Prop :=
  ∀ (s : State) (src : IntSource) (u : State), s.chooseInterrupt = (some src, u) →
    src ∈ s.sources ∧ src.request = true ∧ s.priority < src.pl ∧
    (∀ other ∈ s.sources, other.request = true → s.priority < other.pl → other.pl ≤ src.pl) ∧
    u = { s with choices := u.choices, wait := u.wait }

/-- Every accepted request that no accepted request exceeds in priority can be the one taken, and with any
request accepted the entry can be deferred: the source fixes neither (spec/60_exceptions.md R176, R177,
decisions D17 and D27; log 25). That the list `choices` gives the next ones, and that past its end the entry
is deferred for the finite free delay of a wait and then performed for a highest request, is the model's
choice (log 10). A wait goes on while a request it began with has stayed accepted; else a new one begins, with
the accepted requests and a free delay of its own, so deferrals never run out. -/
def Obligations.EveryHighestRequestCanBeTaken : Prop :=
  ∀ (s : State) (src : IntSource),
    src ∈ s.sources → src.request = true → s.priority.toNat < src.pl.toNat →
    (∀ rest : List BoundaryChoice,
      ((∀ other ∈ s.sources, other.request = true → s.priority.toNat < other.pl.toNat →
          other.pl.toNat ≤ src.pl.toNat) →
        ∃ k, ({ s with choices := .take k :: rest } : State).chooseInterrupt =
          (some src, { s with choices := rest, wait := s.waitHere.over })) ∧
      ({ s with choices := .defer :: rest } : State).chooseInterrupt =
        (none, { s with choices := rest, wait := s.waitHere })) ∧
    (s.choices = [] →
      (∀ d, s.waitHere.delay = d + 1 →
        s.chooseInterrupt = (none, { s with wait := { s.waitHere with delay := d } })) ∧
      (s.waitHere.delay = 0 →
        ∃ taken, HighestAt s taken ∧
          s.chooseInterrupt = (some taken, { s with wait := s.waitHere.over }))) ∧
    ((∃ i ∈ s.wait.places, RequestAt s i) →
      s.waitHere.delay = s.wait.delay ∧ s.waitHere.begun = s.wait.begun ∧
      ∀ i, i ∈ s.waitHere.places ↔ i ∈ s.wait.places ∧ RequestAt s i) ∧
    ((∀ i ∈ s.wait.places, ¬ RequestAt s i) →
      s.waitHere.delay = Config.entryDelay s.wait.begun ∧ s.waitHere.begun = s.wait.begun + 1 ∧
      ∀ i, i ∈ s.waitHere.places ↔ RequestAt s i)

/-- A request that stays accepted is eventually taken (spec/60_exceptions.md R177, decisions D17 and D27;
spec/70_reset_and_hazards.md R208; log 25). A step whose boundary has an accepted request is the entry of one
of the highest priority, or it lowers the bound of every accepted place; and no step adds a choice. So in every
run, within the bound of a place, its request is not accepted at some boundary, or at some boundary an
interrupt of at least its priority is entered, and at the boundary after it the request is no longer accepted:
it was taken, or another one no lower holds it off. How long the bound is rests on the free delays, which are
finite and any number, so no run that the rule admits is shut out (log 10). -/
def Obligations.AcceptedRequestIsEventuallyTaken : Prop :=
  (∀ (s t : State) (i : Nat), RequestAt s.environmentActs i → step s = .next t →
    (∃ taken, EntryTaken s t taken) ∨ entryBound t i < entryBound s i) ∧
  (∀ (s t : State) (i : Nat), RequestAt s.environmentActs i → entryBound s i = 0 →
    step s = .next t → ∃ taken, EntryTaken s t taken) ∧
  (∀ s t : State, step s = .next t → t.choices.length ≤ s.choices.length) ∧
  (∀ (run : Nat → State) (i : Nat),
    (∀ n, n ≤ entryBound (run 0) i → step (run n) = .next (run (n + 1))) →
    ∃ n, n ≤ entryBound (run 0) i ∧
      (¬ RequestAt (run n).environmentActs i ∨
        ∃ taken, EntryTaken (run n) (run (n + 1)) taken ∧
          (∀ src, (run n).environmentActs.sources[i]? = some src → src.pl.toNat ≤ taken.pl.toNat) ∧
          (run (n + 1)).priority = taken.pl ∧ ¬ RequestAt (run (n + 1)).environmentActs i))

/-- RTI undoes an interrupt entry (spec/60_exceptions.md R182): whatever the handler did to the condition
codes, the registers and memory, if it is back at the same SSP in Supervisor mode with the two pushed
words intact, RTI restores the PC, the whole PSR and SSP, and leaves the registers to the handler. The
spec's decisions D14 and D17 (logs 15, 25). -/
def Obligations.RtiUndoesInterruptEntry : Prop :=
  ∀ (s : State) (src : IntSource) (t h : State), s.legal = true →
    entryInMemory s (vectorAddr s.config.intVectors src.vector) →
    s.interruptEntry src = .ok t →
    h.userMode = false → h.ssp = t.ssp → h.wordAt h.ssp = t.wordAt t.ssp →
    h.wordAt (h.ssp + 2) = t.wordAt (t.ssp + 2) →
    ∃ u, exec .rti h = .next u ∧ u.pc = s.pc ∧ u.psr = s.psr ∧ u.ssp = s.ssp ∧ u.usp = h.usp ∧
      (∀ r, r ≠ .r6 → u.reg r = h.reg r) ∧ SameMemoryBut [] h u

/-! ### Memory and devices -/

/-- A byte store to memory and a word store to memory read back, and change no other byte and nothing else
(spec/20_memory.md R54, R55, R58). That writes are the inverse of reads is the spec's decision D6 (log 21). -/
def Obligations.StoresReadBack : Prop :=
  (∀ (s : State) (a : Word) (b : Byte), inMemory a →
    ∃ t, s.storeByte a b = .ok t ∧ t.byteAt a = b ∧ SameMemoryBut [a] s t ∧
      t = { s with mem := t.mem }) ∧
  (∀ (s : State) (a : Word) (v : Word), inMemory (a &&& 0xFFFE) →
    ∃ t, s.storeWord a v = .ok t ∧ t.wordAt a = v ∧
      (t.byteAt (a &&& 0xFFFE)).toNat = v.toNat % 256 ∧
      (t.byteAt ((a &&& 0xFFFE) + 1)).toNat = v.toNat / 256 ∧
      SameMemoryBut [a &&& 0xFFFE, (a &&& 0xFFFE) + 1] s t ∧ t = { s with mem := t.mem })

/-- A word read is little-endian at the aligned address, and a word access at an odd address is the access
at the even address below (spec/20_memory.md R53, R56, R59). -/
def Obligations.WordAccessIsAlignedLittleEndian : Prop :=
  ∀ (s : State) (a : Word),
    (s.wordAt a).toNat =
      (s.byteAt (a &&& 0xFFFE)).toNat + 256 * (s.byteAt ((a &&& 0xFFFE) + 1)).toNat ∧
    s.loadWord (a &&& 0xFFFE) = s.loadWord a ∧
    ∀ v : Word, s.storeWord (a &&& 0xFFFE) v = s.storeWord a v

/-- Under `DEVICE = refuse` an instruction whose data access falls in xFE00 to xFFFF is refused, at either
access of LDI, STI and RTI, and at any access of a handler entry (spec/20_memory.md R62, the spec's
decision D19; log 8). The accesses of the stores are its decision D12, those of RTI and the entries D14, D16
and D17 (logs 13, 15, 24, 25). -/
def Obligations.DeviceRefuseStopsTheAccess : Prop :=
  ∀ s : State, s.device = .refuse →
    (∀ dr base off, ¬ inMemory (s.eaByte base off) →
      exec (.ldb dr base off) s = .refused .deviceAccess ∧
      exec (.stb dr base off) s = .refused .deviceAccess) ∧
    (∀ dr base off, ¬ inMemory (s.eaWord base off &&& 0xFFFE) →
      exec (.ldr dr base off) s = .refused .deviceAccess ∧
      exec (.str dr base off) s = .refused .deviceAccess) ∧
    (∀ dr base off, ¬ inMemory (s.eaWord base off &&& 0xFFFE) ∨
        ¬ inMemory (s.wordAt (s.eaWord base off) &&& 0xFFFE) ∧ inMemory (s.eaWord base off &&& 0xFFFE) →
      exec (.ldi dr base off) s = .refused .deviceAccess ∧
      exec (.sti dr base off) s = .refused .deviceAccess) ∧
    (s.userMode = false → ¬ popsInMemory s → exec .rti s = .refused .deviceAccess) ∧
    (s.userMode = true → s.config.excPolicy = .vector →
      ¬ entryInMemory s (vectorAddr s.config.excVectors 0x00) →
      exec .rti s = .refused .deviceAccess) ∧
    (∀ src, ¬ entryInMemory s (vectorAddr s.config.intVectors src.vector) →
      s.interruptEntry src = .error .deviceAccess)

/-- An attached device answers the byte and word accesses to its addresses, reads and writes, and moves to
the state it answers with (spec/20_memory.md R62; spec/60_exceptions.md R190; spec/42_load.md R140, R142;
decision D19). What STB and STR write is the spec's decision D12 (log 13). That an access
it does not answer is refused is the model's choice (log 8). -/
def Obligations.AttachedDeviceAnswersAccesses : Prop :=
  ∀ (s : State) (c : Nat) (dr base : Reg) (off : BitVec 6), s.device = .attached c →
    (¬ inMemory (s.eaByte base off) →
      (match Config.deviceReadByte c (s.eaByte base off) with
        | some (b, c') => ∃ t, exec (.ldb dr base off) s = .next t ∧
            WritesResult { s with device := .attached c' } t dr (BitVec.ofNat 16 b.toNat)
        | none => exec (.ldb dr base off) s = .refused .deviceAccess) ∧
      (match Config.deviceWriteByte c (s.eaByte base off) (BitVec.ofNat 8 (s.reg dr).toNat) with
        | some c' => ∃ t, exec (.stb dr base off) s = .next t ∧ t.pc = (s.pc + 2) &&& 0xFFFE ∧
            FrameBut [] [] { s with device := .attached c' } t
        | none => exec (.stb dr base off) s = .refused .deviceAccess)) ∧
    (¬ inMemory (s.eaWord base off &&& 0xFFFE) →
      (match Config.deviceReadWord c (s.eaWord base off &&& 0xFFFE) with
        | some (v, c') => ∃ t, exec (.ldr dr base off) s = .next t ∧
            WritesResult { s with device := .attached c' } t dr v
        | none => exec (.ldr dr base off) s = .refused .deviceAccess) ∧
      (match Config.deviceWriteWord c (s.eaWord base off &&& 0xFFFE) (s.reg dr) with
        | some c' => ∃ t, exec (.str dr base off) s = .next t ∧ t.pc = (s.pc + 2) &&& 0xFFFE ∧
            FrameBut [] [] { s with device := .attached c' } t
        | none => exec (.str dr base off) s = .refused .deviceAccess))

/-- LDI and STI make their two accesses in order, each to memory or to the device as its address says
(spec/42_load.md R141; spec/43_store.md R151; spec/20_memory.md R61, R63, decisions D12 and D24; logs 13,
23). -/
def Obligations.IndirectAccessesRunInOrder : Prop :=
  ∀ (s : State) (dr base : Reg) (off : BitVec 6),
    match s.loadWord (s.eaWord base off) with
    | .error e => exec (.ldi dr base off) s = .refused e ∧ exec (.sti dr base off) s = .refused e
    | .ok (p, x) =>
      (match x.loadWord p with
        | .error e   => exec (.ldi dr base off) s = .refused e
        | .ok (v, y) => ∃ t, exec (.ldi dr base off) s = .next t ∧ WritesResult y t dr v) ∧
      (match x.storeWord p (s.reg dr) with
        | .error e => exec (.sti dr base off) s = .refused e
        | .ok y    => ∃ t, exec (.sti dr base off) s = .next t ∧ t.pc = (s.pc + 2) &&& 0xFFFE ∧
            FrameBut [] [] y t)

/-- RTI and the two handler entries make their accesses in the order of spec/20_memory.md R61, each to memory
or to the device as its address says, and the first one that is not answered refuses the whole
(spec/44_system.md R161; spec/60_exceptions.md R172, R178; decisions D14, D16, D17; logs 8, 15, 24, 25). -/
def Obligations.StackAccessesRunInOrder : Prop :=
  (∀ s : State, s.userMode = false →
    match s.loadWord s.ssp with
    | .error e => exec .rti s = .refused e
    | .ok (tPc, x) =>
      match x.loadWord (s.ssp + 2) with
      | .error e => exec .rti s = .refused e
      | .ok (tPsr, y) => ∃ t, exec .rti s = .next t ∧ t.pc = tPc &&& 0xFFFE ∧
          t.psr = tPsr &&& 0x8707 ∧ t.ssp = s.ssp + 4 ∧ t.usp = s.usp ∧
          (∀ r, r ≠ .r6 → t.reg r = s.reg r) ∧ SameMemoryBut [] s t ∧ SameOutside y t) ∧
  (∀ (s : State) (src : IntSource),
    match entryAccesses s s.pc (vectorAddr s.config.intVectors src.vector) with
    | .error e => s.interruptEntry src = .error e
    | .ok (v, z) => ∃ t, s.interruptEntry src = .ok t ∧ EntersFrom s z t v src.pl) ∧
  (∀ s : State, s.userMode = true → s.config.excPolicy = .vector →
    match entryAccesses s (s.pc + 2) (vectorAddr s.config.excVectors 0x00) with
    | .error e => exec .rti s = .refused e
    | .ok (v, z) => ∃ t, exec .rti s = .next t ∧ EntersFrom s z t v s.priority)

/-! ### The step -/

/-- A step runs the decoded instruction (spec/70_reset_and_hazards.md R209): where the run is not over, no
interrupt is taken at this boundary and the word at the PC decodes, the step is `exec` of that instruction.
A fetch from xFE00 to xFFFF reads the word from an attached device in the same way, and runs from the state
the device answers with (spec/20_memory.md R62, decision D19); that an unanswered fetch is refused is the
model's choice (log 8). -/
def Obligations.StepRunsTheDecodedInstruction : Prop :=
  ∀ s t : State, s.config.haltPcs.contains s.pc = false →
    s.environmentActs.chooseInterrupt = (none, t) →
    (∀ i : Instr, inMemory (t.pc &&& 0xFFFE) →
      decodeUnder t.config.reservedPolicy (t.wordAt t.pc) = .ok i → step s = exec i t) ∧
    (∀ c : Nat, ¬ inMemory (t.pc &&& 0xFFFE) → t.device = .attached c →
      match Config.deviceReadWord c (t.pc &&& 0xFFFE) with
      | none => step s = .refused .deviceAccess
      | some (w, c') =>
        match decodeUnder t.config.reservedPolicy w with
        | .ok i    => step s = exec i { t with device := .attached c' }
        | .error _ => ∃ row, step s = .refused (.reservedEncoding row))

/-- Without a device, pending inputs or sources the state an instruction runs from is the state before the
step, in which nothing waits for an entry (spec/70_reset_and_hazards.md R209; spec/60_exceptions.md R175). -/
def Obligations.QuietBoundaryChangesNothing : Prop :=
  ∀ (s : State) (i : Instr), s.config.haltPcs.contains s.pc = false → s.device = .refuse →
    s.sources = [] → s.requestInputs = [] → inMemory (s.pc &&& 0xFFFE) →
    decodeUnder s.config.reservedPolicy (s.wordAt s.pc) = .ok i →
    step s = exec i { s with wait := s.wait.over } ∧
    (s.wait.places = [] → s.wait.delay = 0 → step s = exec i s)

/-- A step at a boundary where an interrupt is chosen is that interrupt's entry, and fetches nothing: it
answers the entry's state, or refuses where an access of the entry is refused, and where the entry stays in
memory it completes (spec/70_reset_and_hazards.md R209; spec/60_exceptions.md R177, R178; spec/20_memory.md
R62; decisions D17 and D19; logs 8, 25). -/
def Obligations.StepEntersTheChosenInterrupt : Prop :=
  ∀ (s u : State) (src : IntSource), s.config.haltPcs.contains s.pc = false →
    s.environmentActs.chooseInterrupt = (some src, u) →
    (∀ t, u.interruptEntry src = .ok t → step s = .next t) ∧
    (∀ e, u.interruptEntry src = .error e → step s = .refused e ∧ e = .deviceAccess) ∧
    (entryInMemory u (vectorAddr u.config.intVectors src.vector) →
      ∃ t, step s = .next t ∧
        EntersHandler u t u.pc src.pl (vectorAddr u.config.intVectors src.vector))

/-- A step makes no successor where the run is over, where the fetched word violates its row's fixed bits
under `RESERVED_POLICY = refuse`, and where the PC is a device address under `DEVICE = refuse`
(spec/70_reset_and_hazards.md R205; spec/30_encoding.md R100; spec/20_memory.md R62). The spec's decisions
D26, D2 and D19; that a step of a run that is over is refused is the model's choice (logs 7, 6, 8). -/
def Obligations.StepRefusals : Prop :=
  (∀ s : State, s.config.haltPcs.contains s.pc = true → step s = .refused .runOver) ∧
  (∀ s t : State, s.config.haltPcs.contains s.pc = false →
    s.environmentActs.chooseInterrupt = (none, t) →
    (inMemory (t.pc &&& 0xFFFE) → t.config.reservedPolicy = .refuse →
      fixedFieldViolation (t.wordAt t.pc) = true →
      ∃ row, step s = .refused (.reservedEncoding row)) ∧
    (¬ inMemory (t.pc &&& 0xFFFE) → t.device = .refuse → step s = .refused .deviceAccess))

/-- A store is seen by the very next fetch (spec/20_memory.md R70): after STR or STI to the address of the
next instruction the next step runs the stored word, and after STB to either of its bytes the word with that
byte replaced, whatever devices and sources there are, unless an interrupt is taken first. The spec's
decision D23 (log 23); what the stores store is its decision D12 (log 13). -/
def Obligations.StoreIsSeenByTheNextFetch : Prop :=
  ∀ (sr base : Reg) (off : BitVec 6) (s : State) (a : Word) (i : Instr),
    a = (s.pc + 2) &&& 0xFFFE → inMemory a → s.config.haltPcs.contains a = false →
    (s.eaWord base off &&& 0xFFFE = a →
      decodeUnder s.config.reservedPolicy (s.reg sr) = .ok i →
      ∃ t, exec (.str sr base off) s = .next t ∧ RunsNext i t) ∧
    (∀ p x, s.loadWord (s.eaWord base off) = .ok (p, x) → p &&& 0xFFFE = a →
      decodeUnder s.config.reservedPolicy (s.reg sr) = .ok i →
      ∃ t, exec (.sti sr base off) s = .next t ∧ RunsNext i t) ∧
    (s.eaByte base off = a →
      decodeUnder s.config.reservedPolicy (s.byteAt (a + 1) ++ (s.reg sr).extractLsb' 0 8) = .ok i →
      ∃ t, exec (.stb sr base off) s = .next t ∧ RunsNext i t) ∧
    (s.eaByte base off = a + 1 →
      decodeUnder s.config.reservedPolicy ((s.reg sr).extractLsb' 0 8 ++ s.byteAt a) = .ok i →
      ∃ t, exec (.stb sr base off) s = .next t ∧ RunsNext i t)

/-! ### Invariants and rules of the whole machine -/

/-- Every step keeps the state legal: the PC even, the undefined PSR bits 0 (spec/10_state.md R26, R33,
decisions D3 and D7; logs 17, 18), memory in the model's canonical form. -/
def Obligations.StepKeepsTheStateLegal : Prop :=
  ∀ s t : State, s.legal = true → step s = .next t → t.legal = true

/-- The reset state, which is the model's choice (logs 1 to 7), is legal. -/
def Obligations.ResetStateIsLegal : Prop := State.reset.legal = true

/-- Every launch begins in a legal state that holds all the launch gives, a well-formed one the PC and PSR
too (spec/70_reset_and_hazards.md R200, R201, decision D25): the registers, both stack pointers, the devices,
the sources and the parameters, and at each memory address the image's last byte for it. An address the image
does not give reads as a free value (R204; the model's choice between that and a fault, log 4). That a
launch that is not well formed begins in a legal state too, with bit 0 of the PC and the undefined PSR bits
cleared, is the model's choice (log 1) by spec/10_state.md R26 and R33 (decisions D3 and D7; logs 17, 18). -/
def Obligations.LaunchStateIsLegal : Prop :=
  ∀ l : Launch, l.start.legal = true ∧
    (l.wellFormed = true → l.start.pc = l.pc ∧ l.start.psr = l.psr) ∧
    l.start.pc = l.pc &&& 0xFFFE ∧ l.start.psr = l.psr &&& 0x8707 ∧
    l.start.r0 = l.r0 ∧ l.start.r1 = l.r1 ∧ l.start.r2 = l.r2 ∧ l.start.r3 = l.r3 ∧
    l.start.r4 = l.r4 ∧ l.start.r5 = l.r5 ∧ l.start.r7 = l.r7 ∧
    l.start.ssp = l.ssp ∧ l.start.usp = l.usp ∧
    l.start.device = l.device ∧ l.start.sources = l.sources ∧
    l.start.requestInputs = l.requestInputs ∧ l.start.choices = l.choices ∧
    l.start.wait = l.wait ∧
    l.start.config = l.config ∧
    ∀ a : Word, inMemory a →
      (∀ before after b, l.mem = before ++ (a.toNat, b) :: after →
        (∀ cell ∈ after, cell.1 ≠ a.toNat) → l.start.byteAt a = b) ∧
      ((∀ cell ∈ l.mem, cell.1 ≠ a.toNat) → l.start.byteAt a = Config.unwrittenByte a.toNat)

/-- THE MODEL'S OWN CHOICE (notes/assumptions/1.md to 7.md), no rule of the source: the reset state is the
conventional launch, and that launch is well formed. -/
def Obligations.ResetIsTheConventionalLaunch : Prop :=
  State.reset = Launch.conventional.start ∧ Launch.conventional.wellFormed = true

/-- The condition codes are written by the ten instructions that set them, to the codes of the value in DR
and so to exactly one of the three, and by RTI; every other instruction leaves them
(spec/10_state.md R29, R30). That SHF is one of the ten is the spec's choice between the source's prose and
its figure (spec/90_conflicts.md C2) and rests on its decision D9 (log 12); NOT and LEA rest on D10 and D11,
the stores on D12 (log 13), TRAP on D13 (log 14). -/
def Obligations.ConditionCodeWriters : Prop :=
  ∀ (i : Instr) (s t : State), exec i s = .next t →
    (∀ dr, resultReg i = some dr → t.codes = codesOf (t.reg dr)) ∧
    (resultReg i = none → i ≠ .rti → t.psr = s.psr)

/-- Every instruction writes the registers of its row of spec/10_state.md R22 and no other, and no byte of
memory but those it stores to (spec/20_memory.md R61). Both tables are inferences of the spec. The rows of
SHF, NOT, LEA, the stores, TRAP, RTI and the exception entry rest on its decisions D9 to D14 and D16 (logs 12
to 15, 24). -/
def Obligations.InstructionsWriteOnlyTheirTargets : Prop :=
  ∀ (i : Instr) (s t : State), exec i s = .next t →
    (∀ r, r ∉ writtenRegs i → t.reg r = s.reg r) ∧ SameMemoryBut (storedBytes i s) s t

/-- No step changes a parameter of the run: the record `config`, the number, priorities and vectors of the
interrupt sources, and whether a device is attached; and no instruction touches the request lines
(spec/00_scope.md R8; spec/60_exceptions.md R175, R180; spec/70_reset_and_hazards.md R210; decisions D17, D19,
D25). No instruction touches the model's own fields `requestInputs`, `choices` and `wait` either, which
is the model's choice (logs 9, 10). -/
def Obligations.ParametersStayFixed : Prop :=
  (∀ s t : State, step s = .next t →
    t.config = s.config ∧
    t.sources.map (fun src => (src.pl, src.vector)) =
      s.sources.map (fun src => (src.pl, src.vector)) ∧
    (t.device = .refuse ↔ s.device = .refuse)) ∧
  (∀ (i : Instr) (s t : State), exec i s = .next t →
    t.sources = s.sources ∧ t.requestInputs = s.requestInputs ∧ t.choices = s.choices ∧
    t.wait = s.wait)

/-- The one exception is RTI's in User mode: no other instruction, mode or policy ends in a fault, and the
only refusal of an instruction is a device access (spec/60_exceptions.md R171, decision D16; log 24). -/
def Obligations.OnlyRtiInUserModeFaults : Prop :=
  ∀ (i : Instr) (s : State),
    (∀ f, exec i s = .fault f ↔
      f = .privilegeModeViolation ∧ i = .rti ∧ s.userMode = true ∧ s.config.excPolicy = .fault) ∧
    (∀ e, exec i s = .refused e → e = .deviceAccess)

/-- No instruction but RTI changes the privilege mode or the priority level (spec/60_exceptions.md R184, an
inference of the spec). That TRAP keeps both rests on its decision D13 (log 14), and the other instructions
whose pages are lost on D9 to D12 (logs 12, 13). -/
def Obligations.OnlyRtiChangesModeOrPriority : Prop :=
  ∀ (i : Instr) (s t : State), i ≠ .rti → exec i s = .next t →
    t.userMode = s.userMode ∧ t.priority = s.priority

/-- A step enters Supervisor mode only by an interrupt entry or by the exception entry of RTI, and leaves it
only by an RTI that pops a PSR word with bit 15 = 1 (spec/60_exceptions.md R187). The spec's decisions D14,
D16 and D17 (logs 15, 24, 25). -/
def Obligations.ModeChangesOnlyAtEntriesAndRti : Prop :=
  ∀ s t : State, step s = .next t →
    (s.userMode = true → t.userMode = false →
      (∃ src u, s.environmentActs.chooseInterrupt = (some src, u)) ∨
      (∃ u v, s.environmentActs.chooseInterrupt = (none, u) ∧ u.fetchInstr = .ok (.rti, v) ∧
        v.config.excPolicy = .vector)) ∧
    (s.userMode = false → t.userMode = true →
      ∃ u v x y tPc tPsr, s.environmentActs.chooseInterrupt = (none, u) ∧
        u.fetchInstr = .ok (.rti, v) ∧ v.popSupervisor = .ok (tPc, x) ∧
        x.popSupervisor = .ok (tPsr, y) ∧ tPsr.getLsbD 15 = true)

/-- In User mode no instruction reads or writes SSP but an RTI that enters its handler: the outcome is the
same whatever SSP holds, and SSP stays (spec/10_state.md R23). R6 as a view of SSP and USP is the spec's
decision D8 (log 20), and RTI in User mode its decision D16 (log 24). -/
def Obligations.UserModeCannotReachSsp : Prop :=
  ∀ (i : Instr) (s : State) (v : Word), s.userMode = true →
    (i = .rti → s.config.excPolicy = .fault) →
    exec i { s with ssp := v } = mapNext (fun t => { t with ssp := v }) (exec i s) ∧
    ∀ t, exec i s = .next t → t.ssp = s.ssp

/-- In Supervisor mode no instruction reads or writes USP, RTI among them (spec/10_state.md R23;
spec/44_system.md R161). R6 as a view of SSP and USP is the spec's decision D8 (log 20), and RTI its decision
D14 (log 15). -/
def Obligations.SupervisorModeCannotReachUsp : Prop :=
  ∀ (i : Instr) (s : State) (v : Word), s.userMode = false →
    exec i { s with usp := v } = mapNext (fun t => { t with usp := v }) (exec i s) ∧
    ∀ t, exec i s = .next t → t.usp = s.usp

/-! ### The environment -/

/-- What happens outside the processor before a step (spec/60_exceptions.md R175, R190; decisions D17, D19):
an attached device acts on its own and then drives every source's request line by the source's place;
without one the next input list sets the lines in the order of the sources, and a source past its end, or
with no list left, keeps its line. Nothing else changes. The form of the device and of the inputs is the
model's choice (logs 8, 9). -/
def Obligations.EnvironmentDrivesRequestLines : Prop :=
  ∀ s : State,
    s.environmentActs = { s with
      device := s.environmentActs.device, sources := s.environmentActs.sources,
      requestInputs := s.environmentActs.requestInputs } ∧
    (∀ c, s.device = .attached c →
      s.environmentActs.device = .attached (Config.deviceTick c) ∧
      s.environmentActs.requestInputs = s.requestInputs ∧
      ∀ i : Nat, s.environmentActs.sources[i]? = s.sources[i]?.map fun src : IntSource =>
        { src with request := Config.deviceRequest (Config.deviceTick c) i }) ∧
    (∀ (lines : List Bool) (rest : List (List Bool)), s.device = .refuse →
      s.requestInputs = lines :: rest →
      s.environmentActs.device = .refuse ∧ s.environmentActs.requestInputs = rest ∧
      ∀ i : Nat, s.environmentActs.sources[i]? = s.sources[i]?.map fun src : IntSource =>
        { src with request := lines[i]?.getD src.request }) ∧
    (s.device = .refuse → s.requestInputs = [] → s.environmentActs = s)
end

