-- ==== Sys2Proof/Laws/Decode.lean ====
section
/-! SUPPORT. The decoder opcode by opcode, and the fields of encoded words. -/

namespace Sys2Proof

/-! ### Fields of words built by appending -/

/-- A field that lies in the upper part of an append. -/
theorem extract_append_high {m n : Nat} (x : BitVec m) (y : BitVec n) (lo len : Nat) (h : n ≤ lo) :
    (x ++ y).extractLsb' lo len = x.extractLsb' (lo - n) len := by
  apply BitVec.eq_of_getLsbD_eq
  intro i hi
  have h1 : ¬ lo + i < n := by omega
  have h2 : lo + i - n = lo - n + i := by omega
  simp [BitVec.getLsbD_append, h1, h2]

/-- A field that lies in the lower part of an append. -/
theorem extract_append_low {m n : Nat} (x : BitVec m) (y : BitVec n) (lo len : Nat)
    (h : lo + len ≤ n) : (x ++ y).extractLsb' lo len = y.extractLsb' lo len := by
  apply BitVec.eq_of_getLsbD_eq
  intro i hi
  have h1 : lo + i < n := by omega
  simp [BitVec.getLsbD_append, h1]

/-- The whole of a bit vector as a field. -/
theorem extract_all {n : Nat} (x : BitVec n) : x.extractLsb' 0 n = x := by
  apply BitVec.eq_of_getLsbD_eq
  intro i hi
  simp [hi]

theorem encodeDRBase_opcode (op : BitVec 4) (dr base : Reg) (low : BitVec 6) :
    (encodeDRBase op dr base low).extractLsb' 12 4 = op :=
  (extract_append_high (op ++ dr.bits ++ base.bits) low 12 4 (by omega)).trans <|
    (extract_append_high (op ++ dr.bits) base.bits 6 4 (by omega)).trans <|
      (extract_append_high op dr.bits 3 4 (by omega)).trans (extract_all op)

theorem encodeDRBase_dr (op : BitVec 4) (dr base : Reg) (low : BitVec 6) :
    (encodeDRBase op dr base low).extractLsb' 9 3 = dr.bits :=
  (extract_append_high (op ++ dr.bits ++ base.bits) low 9 3 (by omega)).trans <|
    (extract_append_high (op ++ dr.bits) base.bits 3 3 (by omega)).trans <|
      (extract_append_low op dr.bits 0 3 (by omega)).trans (extract_all _)

theorem encodeDRBase_base (op : BitVec 4) (dr base : Reg) (low : BitVec 6) :
    (encodeDRBase op dr base low).extractLsb' 6 3 = base.bits :=
  (extract_append_high (op ++ dr.bits ++ base.bits) low 6 3 (by omega)).trans <|
    (extract_append_low (op ++ dr.bits) base.bits 0 3 (by omega)).trans (extract_all _)

theorem encodeDRBase_low (op : BitVec 4) (dr base : Reg) (low : BitVec 6) :
    (encodeDRBase op dr base low).extractLsb' 0 6 = low :=
  (extract_append_low (op ++ dr.bits ++ base.bits) low 0 6 (by omega)).trans (extract_all _)

@[simp] theorem Reg.ofBits_bits (r : Reg) : Reg.ofBits r.bits = r := by cases r <;> rfl

/-- The eight 3-bit numbers and the eight registers correspond (spec/10_state.md R20). -/
@[simp] theorem Reg.bits_ofBits (k : BitVec 3) : (Reg.ofBits k).bits = k := by
  revert k
  decide

/-! ### The row an opcode selects -/

/-- Bits 15:12 of a word under a mask that has them all. -/
theorem opcode_of_mask (w mask pattern : Word) (hm : mask.extractLsb' 12 4 = 0b1111#4)
    (h : (w &&& mask == pattern) = true) : pattern.extractLsb' 12 4 = w.extractLsb' 12 4 := by
  rw [← eq_of_beq h]
  apply BitVec.eq_of_getLsbD_eq
  intro i hi
  have hk := congrArg (fun x => BitVec.getLsbD x i) hm
  have h1 : (0b1111#4).getLsbD i = true := by interval_cases i <;> rfl
  simp only [BitVec.getLsbD_extractLsb', hi, decide_true, Bool.true_and, h1] at hk
  simp [hi, hk]

/-- A search in a table all of whose rows fix the opcode looks only at the rows of the word's opcode. -/
theorem find_row_of_opcode (table : List OpcodeRow) (w : Word) (op : BitVec 4)
    (hop : w.extractLsb' 12 4 = op) (ht : ∀ row ∈ table, row.mask.extractLsb' 12 4 = 0b1111#4) :
    table.find? (fun row => w &&& row.mask == row.pattern) =
      (table.filter fun row => row.pattern.extractLsb' 12 4 == op).find?
        (fun row => w &&& row.mask == row.pattern) := by
  induction table with
  | nil => rfl
  | cons row rest ih =>
    have ih' := ih fun r hr => ht r (by simp [hr])
    cases hyes : (w &&& row.mask == row.pattern) with
    | true =>
      have hp := opcode_of_mask w row.mask row.pattern (ht row (by simp)) hyes
      have hf : (row.pattern.extractLsb' 12 4 == op) = true := by
        rw [hp, hop]; exact beq_self_eq_true op
      simp only [List.filter_cons, hf, if_true, List.find?_cons, hyes]
    | false =>
      simp only [List.filter_cons, List.find?_cons, hyes, ih']
      split
      · simp only [List.find?_cons, hyes]
      · rfl

theorem opcodeTable_masks : ∀ row ∈ opcodeTable, row.mask.extractLsb' 12 4 = 0b1111#4 := by
  decide

/-- What the decoder answers for an opcode with one row. -/
theorem decode_of_one_row (w : Word) (op : BitVec 4) (a : OpcodeRow) (hop : w.extractLsb' 12 4 = op)
    (hrows : (opcodeTable.filter fun row => row.pattern.extractLsb' 12 4 == op) = [a]) :
    decode w = if w &&& a.mask = a.pattern then .ok (a.build w)
      else .error (.reservedEncoding (decodeIgnoringBits w).mnemonic) := by
  unfold decode
  rw [find_row_of_opcode opcodeTable w op hop opcodeTable_masks, hrows]
  by_cases ha : w &&& a.mask = a.pattern <;> simp [ha]

/-- What the decoder answers for an opcode with two rows. -/
theorem decode_of_two_rows (w : Word) (op : BitVec 4) (a b : OpcodeRow)
    (hop : w.extractLsb' 12 4 = op)
    (hrows : (opcodeTable.filter fun row => row.pattern.extractLsb' 12 4 == op) = [a, b]) :
    decode w = if w &&& a.mask = a.pattern then .ok (a.build w)
      else if w &&& b.mask = b.pattern then .ok (b.build w)
      else .error (.reservedEncoding (decodeIgnoringBits w).mnemonic) := by
  unfold decode
  rw [find_row_of_opcode opcodeTable w op hop opcodeTable_masks, hrows]
  by_cases ha : w &&& a.mask = a.pattern <;> by_cases hb : w &&& b.mask = b.pattern <;>
    simp [ha, hb]

/-- A word under the mask of its opcode. -/
theorem and_opcode_mask (w : Word) : w &&& 0xF000 = w.extractLsb' 12 4 ++ 0#12 := by
  apply BitVec.eq_of_getLsbD_eq
  intro i hi
  rw [BitVec.getLsbD_and, BitVec.getLsbD_append]
  interval_cases i <;> simp

/-- A row that fixes the opcode alone accepts every word of that opcode. -/
theorem decode_of_plain_row (w : Word) (op : BitVec 4) (name : String) (build : Word → Instr)
    (hop : w.extractLsb' 12 4 = op)
    (hrows : (opcodeTable.filter fun row => row.pattern.extractLsb' 12 4 == op) =
      [⟨name, op ++ 0#12, 0xF000, build⟩]) : decode w = .ok (build w) := by
  rw [decode_of_one_row w op _ hop hrows]
  exact if_pos (by rw [and_opcode_mask, hop])

/-! One lemma for each opcode whose row fixes nothing else (spec/30_encoding.md R84). -/

theorem decode_br (w : Word) (h : w.extractLsb' 12 4 = 0b0000#4) : decode w =
    .ok (.br (w.getLsbD 11) (w.getLsbD 10) (w.getLsbD 9) (w.extractLsb' 0 9)) :=
  decode_of_plain_row w _ _ _ h rfl

theorem decode_ldb (w : Word) (h : w.extractLsb' 12 4 = 0b0010#4) :
    decode w = .ok (.ldb (fieldDR w) (fieldBase w) (w.extractLsb' 0 6)) :=
  decode_of_plain_row w _ _ _ h rfl

theorem decode_stb (w : Word) (h : w.extractLsb' 12 4 = 0b0011#4) :
    decode w = .ok (.stb (fieldDR w) (fieldBase w) (w.extractLsb' 0 6)) :=
  decode_of_plain_row w _ _ _ h rfl

theorem decode_ldr (w : Word) (h : w.extractLsb' 12 4 = 0b0110#4) :
    decode w = .ok (.ldr (fieldDR w) (fieldBase w) (w.extractLsb' 0 6)) :=
  decode_of_plain_row w _ _ _ h rfl

theorem decode_str (w : Word) (h : w.extractLsb' 12 4 = 0b0111#4) :
    decode w = .ok (.str (fieldDR w) (fieldBase w) (w.extractLsb' 0 6)) :=
  decode_of_plain_row w _ _ _ h rfl

theorem decode_ldi (w : Word) (h : w.extractLsb' 12 4 = 0b1010#4) :
    decode w = .ok (.ldi (fieldDR w) (fieldBase w) (w.extractLsb' 0 6)) :=
  decode_of_plain_row w _ _ _ h rfl

theorem decode_sti (w : Word) (h : w.extractLsb' 12 4 = 0b1011#4) :
    decode w = .ok (.sti (fieldDR w) (fieldBase w) (w.extractLsb' 0 6)) :=
  decode_of_plain_row w _ _ _ h rfl

theorem decode_shf (w : Word) (h : w.extractLsb' 12 4 = 0b1101#4) : decode w = .ok
    (.shf (fieldDR w) (fieldBase w) (w.getLsbD 5) (w.getLsbD 4) (w.extractLsb' 0 4)) :=
  decode_of_plain_row w _ _ _ h rfl

theorem decode_lea (w : Word) (h : w.extractLsb' 12 4 = 0b1110#4) :
    decode w = .ok (.lea (fieldDR w) (w.extractLsb' 0 9)) :=
  decode_of_plain_row w _ _ _ h rfl

/-! The opcodes whose rows fix further bits: the row's own condition decides. -/

theorem decode_add (w : Word) (h : w.extractLsb' 12 4 = 0b0001#4) : decode w =
    if w &&& 0xF038 = 0x1000 then .ok (.addReg (fieldDR w) (fieldBase w) (fieldSR2 w))
    else if w &&& 0xF020 = 0x1020 then .ok (.addImm (fieldDR w) (fieldBase w) (w.extractLsb' 0 5))
    else .error (.reservedEncoding (decodeIgnoringBits w).mnemonic) :=
  decode_of_two_rows w _ _ _ h rfl

theorem decode_and (w : Word) (h : w.extractLsb' 12 4 = 0b0101#4) : decode w =
    if w &&& 0xF038 = 0x5000 then .ok (.andReg (fieldDR w) (fieldBase w) (fieldSR2 w))
    else if w &&& 0xF020 = 0x5020 then .ok (.andImm (fieldDR w) (fieldBase w) (w.extractLsb' 0 5))
    else .error (.reservedEncoding (decodeIgnoringBits w).mnemonic) :=
  decode_of_two_rows w _ _ _ h rfl

theorem decode_jsr (w : Word) (h : w.extractLsb' 12 4 = 0b0100#4) : decode w =
    if w &&& 0xF800 = 0x4800 then .ok (.jsr (w.extractLsb' 0 11))
    else if w &&& 0xFE3F = 0x4000 then .ok (.jsrr (fieldBase w))
    else .error (.reservedEncoding (decodeIgnoringBits w).mnemonic) :=
  decode_of_two_rows w _ _ _ h rfl

theorem decode_jmp (w : Word) (h : w.extractLsb' 12 4 = 0b1100#4) : decode w =
    if w &&& 0xFFFF = 0xC1C0 then .ok .ret
    else if w &&& 0xFE3F = 0xC000 then .ok (.jmp (fieldBase w))
    else .error (.reservedEncoding (decodeIgnoringBits w).mnemonic) :=
  decode_of_two_rows w _ _ _ h rfl

theorem decode_rti (w : Word) (h : w.extractLsb' 12 4 = 0b1000#4) : decode w =
    if w &&& 0xFFFF = 0x8000 then .ok .rti
    else .error (.reservedEncoding (decodeIgnoringBits w).mnemonic) :=
  decode_of_one_row w _ _ h rfl

theorem decode_not (w : Word) (h : w.extractLsb' 12 4 = 0b1001#4) : decode w =
    if w &&& 0xF03F = 0x903F then .ok (.not (fieldDR w) (fieldBase w))
    else .error (.reservedEncoding (decodeIgnoringBits w).mnemonic) :=
  decode_of_one_row w _ _ h rfl

theorem decode_trap (w : Word) (h : w.extractLsb' 12 4 = 0b1111#4) : decode w =
    if w &&& 0xFF00 = 0xF000 then .ok (.trap (w.extractLsb' 0 8))
    else .error (.reservedEncoding (decodeIgnoringBits w).mnemonic) :=
  decode_of_one_row w _ _ h rfl

end Sys2Proof
end

