-- ==== Sys2Proof/Laws/Memory.lean ====
section
/-! SUPPORT. Memory: a read after a write, and the canonical form every operation keeps. -/

namespace Sys2Proof.Machine

/-! ### Reads after writes -/

theorem Memory.listed_erase (m : Memory) (a x : Nat) :
    (m.erase a).listed x = if x = a then none else m.listed x := by
  induction m with
  | nil => simp [Memory.erase, Memory.listed]
  | cons cell rest ih =>
    obtain ⟨k, v⟩ := cell
    simp only [Memory.erase, List.filter_cons] at ih ⊢
    by_cases hk : k = a
    · simp only [hk, bne_self_eq_false, Bool.false_eq_true, if_false, ih, Memory.listed]
      by_cases hx : x = a
      · simp [hx]
      · simp [hx, Ne.symm hx]
    · by_cases hx : k = x
      · simp [hx, Memory.listed, hx ▸ hk]
      · simp [hk, hx, Memory.listed, ih]

theorem Memory.listed_insert (m : Memory) (a : Nat) (b : Byte) (x : Nat)
    (h : ∀ cell ∈ m, cell.1 ≠ a) :
    (m.insert a b).listed x = if x = a then some b else m.listed x := by
  induction m with
  | nil =>
    simp only [Memory.insert, Memory.listed]
    by_cases hx : x = a
    · simp [hx]
    · simp [hx, Ne.symm hx]
  | cons cell rest ih =>
    obtain ⟨k, v⟩ := cell
    have hk : k ≠ a := h (k, v) (by simp)
    have ih' := ih fun c hc => h c (by simp [hc])
    simp only [Memory.insert]
    split
    · simp only [Memory.listed]
      by_cases hx : x = a
      · simp [hx]
      · simp [hx, Ne.symm hx]
    · simp only [Memory.listed, ih']
      by_cases hx : k = x
      · simp [hx, hx ▸ hk]
      · simp [hx]

theorem Memory.erase_keys (m : Memory) (a : Nat) : ∀ cell ∈ m.erase a, cell.1 ≠ a := by
  intro cell h
  simpa [Memory.erase] using (List.mem_filter.mp h).2

/-- What is listed after a byte write of a memory address: the byte there, and every other as before. -/
theorem Memory.listed_write (m : Memory) (a : Nat) (b : Byte) (x : Nat) (ha : a < deviceBase) :
    (m.write a b).listed x = if x = a then some b else m.listed x := by
  rw [Memory.write, if_neg (by omega), Memory.listed_insert _ _ _ _ (m.erase_keys a), Memory.listed_erase]
  by_cases hx : x = a <;> simp [hx]

/-- A byte read after a byte write of a memory address: the byte there, and every other as before. -/
theorem Memory.read_write (m : Memory) (a : Nat) (b : Byte) (x : Nat) (ha : a < deviceBase) :
    (m.write a b).read x = if x = a then b else m.read x := by
  simp only [Memory.read, Memory.listed_write m a b x ha]
  by_cases hx : x = a <;> simp [hx]

/-- A byte read after a word write of a memory address. -/
theorem Memory.read_writeWord (m : Memory) (a : Nat) (v : Word) (x : Nat) (ha : a + 1 < deviceBase) :
    (m.writeWord a v).read x =
      if x = a + 1 then v.extractLsb' 8 8 else if x = a then v.extractLsb' 0 8 else m.read x := by
  rw [Memory.writeWord, Memory.read_write _ _ _ _ ha, Memory.read_write _ _ _ _ (by omega)]

/-- A byte write at a device address changes no memory. -/
theorem Memory.write_device (m : Memory) (a : Nat) (b : Byte) (ha : deviceBase ≤ a) :
    m.write a b = m := by
  simp [Memory.write, ha]

/-! ### The canonical form -/

/-- The bound below which a canonical memory lists nothing, as a proposition. -/
def Memory.above (low : Option Nat) (k : Nat) : Prop := ∀ l, low = some l → l < k

theorem Memory.wfAbove_cons (low : Option Nat) (k : Nat) (v : Byte) (rest : Memory) :
    Memory.wfAbove low ((k, v) :: rest) = true ↔
      Memory.above low k ∧ k < deviceBase ∧ Memory.wfAbove (some k) rest = true := by
  cases low <;> simp [Memory.wfAbove, Memory.above, and_assoc]

theorem Memory.wfAbove_weaken (low low' : Option Nat) (m : Memory)
    (h : ∀ k, Memory.above low' k → Memory.above low k)
    (hm : Memory.wfAbove low' m = true) : Memory.wfAbove low m = true := by
  cases m with
  | nil => rfl
  | cons cell rest =>
    obtain ⟨k, v⟩ := cell
    rw [Memory.wfAbove_cons] at hm ⊢
    exact ⟨h k hm.1, hm.2⟩

theorem Memory.wfAbove_erase (low : Option Nat) (m : Memory) (a : Nat)
    (hm : Memory.wfAbove low m = true) : Memory.wfAbove low (m.erase a) = true := by
  induction m generalizing low with
  | nil => rfl
  | cons cell rest ih =>
    obtain ⟨k, v⟩ := cell
    rw [Memory.wfAbove_cons] at hm
    obtain ⟨hlow, hk, hrest⟩ := hm
    have hr := ih (some k) hrest
    simp only [Memory.erase, List.filter_cons] at hr ⊢
    split
    · exact (Memory.wfAbove_cons low k v _).mpr ⟨hlow, hk, hr⟩
    · refine Memory.wfAbove_weaken low (some k) _ (fun j hj l hl => ?_) hr
      exact Nat.lt_trans (hlow l hl) (hj k rfl)

theorem Memory.wfAbove_insert (low : Option Nat) (m : Memory) (a : Nat) (b : Byte)
    (hm : Memory.wfAbove low m = true) (hlow : Memory.above low a) (ha : a < deviceBase)
    (hkeys : ∀ cell ∈ m, cell.1 ≠ a) :
    Memory.wfAbove low (m.insert a b) = true := by
  induction m generalizing low with
  | nil => exact (Memory.wfAbove_cons low a b []).mpr ⟨hlow, ha, rfl⟩
  | cons cell rest ih =>
    obtain ⟨k, v⟩ := cell
    have hm' := (Memory.wfAbove_cons low k v rest).mp hm
    have hka : k ≠ a := hkeys (k, v) (by simp)
    simp only [Memory.insert]
    split
    · next hlt =>
      refine (Memory.wfAbove_cons low a b _).mpr ⟨hlow, ha, ?_⟩
      exact (Memory.wfAbove_cons _ _ _ _).mpr ⟨fun l hl => by cases hl; exact hlt, hm'.2⟩
    · next hge =>
      refine (Memory.wfAbove_cons low k v _).mpr ⟨hm'.1, hm'.2.1, ?_⟩
      exact ih (some k) hm'.2.2 (fun l hl => by cases hl; omega)
        (fun c hc => hkeys c (by simp [hc]))

/-- A canonical memory lists nothing at or below its bound. -/
theorem Memory.listed_of_wfAbove (m : Memory) (l a : Nat) (hm : Memory.wfAbove (some l) m = true)
    (ha : a ≤ l) : m.listed a = none := by
  induction m generalizing l with
  | nil => rfl
  | cons cell rest ih =>
    obtain ⟨k, v⟩ := cell
    obtain ⟨hlow, -, hrest⟩ := (Memory.wfAbove_cons (some l) k v rest).mp hm
    have hk := hlow l rfl
    simp only [Memory.listed]
    rw [if_neg (by omega), ih k hrest (by omega)]

/-- The form is canonical: two memories that list the same bytes are equal. -/
theorem Memory.eq_of_listed (m n : Memory) (low low' : Option Nat) (hm : Memory.wfAbove low m = true)
    (hn : Memory.wfAbove low' n = true) (h : ∀ a, m.listed a = n.listed a) : m = n := by
  induction m generalizing n low low' with
  | nil =>
    cases n with
    | nil => rfl
    | cons d ns => have := h d.1; simp [Memory.listed] at this
  | cons c ms ih =>
    cases n with
    | nil => have := h c.1; simp [Memory.listed] at this
    | cons d ns =>
      obtain ⟨k, v⟩ := c
      obtain ⟨j, w⟩ := d
      have hms := ((Memory.wfAbove_cons low k v ms).mp hm).2.2
      have hns := ((Memory.wfAbove_cons low' j w ns).mp hn).2.2
      have hkj : k = j := by
        rcases Nat.lt_trichotomy k j with hlt | heq | hlt
        · have := h k
          simp [Memory.listed, Nat.ne_of_gt hlt, Memory.listed_of_wfAbove ns j k hns (by omega)] at this
        · exact heq
        · have := h j
          simp [Memory.listed, Nat.ne_of_gt hlt, Memory.listed_of_wfAbove ms k j hms (by omega)] at this
      subst hkj
      have hvw : v = w := by simpa [Memory.listed] using h k
      rw [hvw, ih ns (some k) (some k) hms hns fun a => ?_]
      by_cases ha : k = a
      · subst ha
        rw [Memory.listed_of_wfAbove ms k k hms (Nat.le_refl k),
          Memory.listed_of_wfAbove ns k k hns (Nat.le_refl k)]
      · simpa [Memory.listed, ha] using h a

/-- A byte write keeps the canonical form. -/
theorem Memory.wf_write (m : Memory) (a : Nat) (b : Byte) (hm : m.wf = true) :
    (m.write a b).wf = true := by
  simp only [Memory.write]
  split
  · exact hm
  · next ha =>
    exact Memory.wfAbove_insert none _ a b (Memory.wfAbove_erase none m a hm) (fun l hl => by cases hl)
      (by omega) (m.erase_keys a)

/-- A word write keeps the canonical form. -/
theorem Memory.wf_writeWord (m : Memory) (a : Nat) (v : Word) (hm : m.wf = true) :
    (m.writeWord a v).wf = true :=
  Memory.wf_write _ _ _ (Memory.wf_write _ _ _ hm)

/-- The memory of any image has the canonical form. -/
theorem Memory.wf_ofImage (image : List Host.Cell) : (Memory.ofImage image).wf = true := by
  have key : ∀ (cells : List Host.Cell) (m : Memory), m.wf = true →
      (cells.foldl (fun m cell => m.write cell.1 cell.2) m).wf = true := by
    intro cells
    induction cells with
    | nil => exact fun m h => h
    | cons c rest ih => exact fun m h => ih _ (Memory.wf_write m c.1 c.2 h)
  exact key image [] rfl

/-- An image with a further cell writes that cell last. -/
theorem Memory.ofImage_snoc (image : List Host.Cell) (cell : Host.Cell) :
    Memory.ofImage (image ++ [cell]) = (Memory.ofImage image).write cell.1 cell.2 := by
  simp [Memory.ofImage]

/-- A memory read after a write of any address, the device addresses among them. -/
theorem Memory.read_write_other (m : Memory) (a : Nat) (b : Byte) (x : Nat) (h : a ≠ x) :
    (m.write a b).read x = m.read x := by
  by_cases ha : a < deviceBase
  · rw [Memory.read_write _ _ _ _ ha, if_neg (Ne.symm h)]
  · rw [Memory.write_device _ _ _ (by omega)]

/-- Cells of other addresses written in turn leave a byte as it was. -/
theorem Memory.read_writes_other (cells : List Host.Cell) (m : Memory) (x : Nat)
    (h : ∀ cell ∈ cells, cell.1 ≠ x) :
    (cells.foldl (fun m cell => m.write cell.1 cell.2) m).read x = m.read x := by
  induction cells generalizing m with
  | nil => rfl
  | cons c rest ih =>
    rw [List.foldl_cons, ih _ fun d hd => h d (by simp [hd]),
      Memory.read_write_other _ _ _ _ (h c (by simp))]

/-- The memory right after reset has the canonical form. -/
theorem Memory.wf_reset : State.reset.mem.wf = true := rfl

end Sys2Proof.Machine
end

