-- ==== Sys2Proof/Laws/State.lean ====
section
/-! SUPPORT. One lemma per field per update of the state, so that no proof unfolds a record update. -/

namespace Sys2Proof.Machine

/-! ### A write of the PC -/

@[simp] theorem State.setPc_pc (s : State) (t : Word) :
    (s.setPc t).pc = alignWord t := rfl
@[simp] theorem State.setPc_r0 (s : State) (t : Word) :
    (s.setPc t).r0 = s.r0 := rfl
@[simp] theorem State.setPc_r1 (s : State) (t : Word) :
    (s.setPc t).r1 = s.r1 := rfl
@[simp] theorem State.setPc_r2 (s : State) (t : Word) :
    (s.setPc t).r2 = s.r2 := rfl
@[simp] theorem State.setPc_r3 (s : State) (t : Word) :
    (s.setPc t).r3 = s.r3 := rfl
@[simp] theorem State.setPc_r4 (s : State) (t : Word) :
    (s.setPc t).r4 = s.r4 := rfl
@[simp] theorem State.setPc_r5 (s : State) (t : Word) :
    (s.setPc t).r5 = s.r5 := rfl
@[simp] theorem State.setPc_r7 (s : State) (t : Word) :
    (s.setPc t).r7 = s.r7 := rfl
@[simp] theorem State.setPc_ssp (s : State) (t : Word) :
    (s.setPc t).ssp = s.ssp := rfl
@[simp] theorem State.setPc_usp (s : State) (t : Word) :
    (s.setPc t).usp = s.usp := rfl
@[simp] theorem State.setPc_psr (s : State) (t : Word) :
    (s.setPc t).psr = s.psr := rfl
@[simp] theorem State.setPc_mem (s : State) (t : Word) :
    (s.setPc t).mem = s.mem := rfl
@[simp] theorem State.setPc_device (s : State) (t : Word) :
    (s.setPc t).device = s.device := rfl
@[simp] theorem State.setPc_sources (s : State) (t : Word) :
    (s.setPc t).sources = s.sources := rfl
@[simp] theorem State.setPc_requestInputs (s : State) (t : Word) :
    (s.setPc t).requestInputs = s.requestInputs := rfl
@[simp] theorem State.setPc_choices (s : State) (t : Word) :
    (s.setPc t).choices = s.choices := rfl
@[simp] theorem State.setPc_wait (s : State) (t : Word) :
    (s.setPc t).wait = s.wait := rfl
@[simp] theorem State.setPc_config (s : State) (t : Word) :
    (s.setPc t).config = s.config := rfl

/-! ### The advance to the next instruction -/

@[simp] theorem State.advance_pc (s : State) :
    (s.advance).pc = alignWord (s.pc + 2) := rfl
@[simp] theorem State.advance_r0 (s : State) :
    (s.advance).r0 = s.r0 := rfl
@[simp] theorem State.advance_r1 (s : State) :
    (s.advance).r1 = s.r1 := rfl
@[simp] theorem State.advance_r2 (s : State) :
    (s.advance).r2 = s.r2 := rfl
@[simp] theorem State.advance_r3 (s : State) :
    (s.advance).r3 = s.r3 := rfl
@[simp] theorem State.advance_r4 (s : State) :
    (s.advance).r4 = s.r4 := rfl
@[simp] theorem State.advance_r5 (s : State) :
    (s.advance).r5 = s.r5 := rfl
@[simp] theorem State.advance_r7 (s : State) :
    (s.advance).r7 = s.r7 := rfl
@[simp] theorem State.advance_ssp (s : State) :
    (s.advance).ssp = s.ssp := rfl
@[simp] theorem State.advance_usp (s : State) :
    (s.advance).usp = s.usp := rfl
@[simp] theorem State.advance_psr (s : State) :
    (s.advance).psr = s.psr := rfl
@[simp] theorem State.advance_mem (s : State) :
    (s.advance).mem = s.mem := rfl
@[simp] theorem State.advance_device (s : State) :
    (s.advance).device = s.device := rfl
@[simp] theorem State.advance_sources (s : State) :
    (s.advance).sources = s.sources := rfl
@[simp] theorem State.advance_requestInputs (s : State) :
    (s.advance).requestInputs = s.requestInputs := rfl
@[simp] theorem State.advance_choices (s : State) :
    (s.advance).choices = s.choices := rfl
@[simp] theorem State.advance_wait (s : State) :
    (s.advance).wait = s.wait := rfl
@[simp] theorem State.advance_config (s : State) :
    (s.advance).config = s.config := rfl

/-! ### A write of the whole PSR -/

@[simp] theorem State.writePsr_pc (s : State) (v : Word) :
    (s.writePsr v).pc = s.pc := rfl
@[simp] theorem State.writePsr_r0 (s : State) (v : Word) :
    (s.writePsr v).r0 = s.r0 := rfl
@[simp] theorem State.writePsr_r1 (s : State) (v : Word) :
    (s.writePsr v).r1 = s.r1 := rfl
@[simp] theorem State.writePsr_r2 (s : State) (v : Word) :
    (s.writePsr v).r2 = s.r2 := rfl
@[simp] theorem State.writePsr_r3 (s : State) (v : Word) :
    (s.writePsr v).r3 = s.r3 := rfl
@[simp] theorem State.writePsr_r4 (s : State) (v : Word) :
    (s.writePsr v).r4 = s.r4 := rfl
@[simp] theorem State.writePsr_r5 (s : State) (v : Word) :
    (s.writePsr v).r5 = s.r5 := rfl
@[simp] theorem State.writePsr_r7 (s : State) (v : Word) :
    (s.writePsr v).r7 = s.r7 := rfl
@[simp] theorem State.writePsr_ssp (s : State) (v : Word) :
    (s.writePsr v).ssp = s.ssp := rfl
@[simp] theorem State.writePsr_usp (s : State) (v : Word) :
    (s.writePsr v).usp = s.usp := rfl
@[simp] theorem State.writePsr_psr (s : State) (v : Word) :
    (s.writePsr v).psr = v &&& psrMask := rfl
@[simp] theorem State.writePsr_mem (s : State) (v : Word) :
    (s.writePsr v).mem = s.mem := rfl
@[simp] theorem State.writePsr_device (s : State) (v : Word) :
    (s.writePsr v).device = s.device := rfl
@[simp] theorem State.writePsr_sources (s : State) (v : Word) :
    (s.writePsr v).sources = s.sources := rfl
@[simp] theorem State.writePsr_requestInputs (s : State) (v : Word) :
    (s.writePsr v).requestInputs = s.requestInputs := rfl
@[simp] theorem State.writePsr_choices (s : State) (v : Word) :
    (s.writePsr v).choices = s.choices := rfl
@[simp] theorem State.writePsr_wait (s : State) (v : Word) :
    (s.writePsr v).wait = s.wait := rfl
@[simp] theorem State.writePsr_config (s : State) (v : Word) :
    (s.writePsr v).config = s.config := rfl

/-! ### The entry to Supervisor mode -/

@[simp] theorem State.enterSupervisor_pc (s : State) :
    (s.enterSupervisor).pc = s.pc := rfl
@[simp] theorem State.enterSupervisor_r0 (s : State) :
    (s.enterSupervisor).r0 = s.r0 := rfl
@[simp] theorem State.enterSupervisor_r1 (s : State) :
    (s.enterSupervisor).r1 = s.r1 := rfl
@[simp] theorem State.enterSupervisor_r2 (s : State) :
    (s.enterSupervisor).r2 = s.r2 := rfl
@[simp] theorem State.enterSupervisor_r3 (s : State) :
    (s.enterSupervisor).r3 = s.r3 := rfl
@[simp] theorem State.enterSupervisor_r4 (s : State) :
    (s.enterSupervisor).r4 = s.r4 := rfl
@[simp] theorem State.enterSupervisor_r5 (s : State) :
    (s.enterSupervisor).r5 = s.r5 := rfl
@[simp] theorem State.enterSupervisor_r7 (s : State) :
    (s.enterSupervisor).r7 = s.r7 := rfl
@[simp] theorem State.enterSupervisor_ssp (s : State) :
    (s.enterSupervisor).ssp = s.ssp := rfl
@[simp] theorem State.enterSupervisor_usp (s : State) :
    (s.enterSupervisor).usp = s.usp := rfl
@[simp] theorem State.enterSupervisor_psr (s : State) :
    (s.enterSupervisor).psr = s.psr &&& 0x7FFF := rfl
@[simp] theorem State.enterSupervisor_mem (s : State) :
    (s.enterSupervisor).mem = s.mem := rfl
@[simp] theorem State.enterSupervisor_device (s : State) :
    (s.enterSupervisor).device = s.device := rfl
@[simp] theorem State.enterSupervisor_sources (s : State) :
    (s.enterSupervisor).sources = s.sources := rfl
@[simp] theorem State.enterSupervisor_requestInputs (s : State) :
    (s.enterSupervisor).requestInputs = s.requestInputs := rfl
@[simp] theorem State.enterSupervisor_choices (s : State) :
    (s.enterSupervisor).choices = s.choices := rfl
@[simp] theorem State.enterSupervisor_wait (s : State) :
    (s.enterSupervisor).wait = s.wait := rfl
@[simp] theorem State.enterSupervisor_config (s : State) :
    (s.enterSupervisor).config = s.config := rfl

/-! ### A write of the priority level -/

@[simp] theorem State.setPriority_pc (s : State) (pl : BitVec 3) :
    (s.setPriority pl).pc = s.pc := rfl
@[simp] theorem State.setPriority_r0 (s : State) (pl : BitVec 3) :
    (s.setPriority pl).r0 = s.r0 := rfl
@[simp] theorem State.setPriority_r1 (s : State) (pl : BitVec 3) :
    (s.setPriority pl).r1 = s.r1 := rfl
@[simp] theorem State.setPriority_r2 (s : State) (pl : BitVec 3) :
    (s.setPriority pl).r2 = s.r2 := rfl
@[simp] theorem State.setPriority_r3 (s : State) (pl : BitVec 3) :
    (s.setPriority pl).r3 = s.r3 := rfl
@[simp] theorem State.setPriority_r4 (s : State) (pl : BitVec 3) :
    (s.setPriority pl).r4 = s.r4 := rfl
@[simp] theorem State.setPriority_r5 (s : State) (pl : BitVec 3) :
    (s.setPriority pl).r5 = s.r5 := rfl
@[simp] theorem State.setPriority_r7 (s : State) (pl : BitVec 3) :
    (s.setPriority pl).r7 = s.r7 := rfl
@[simp] theorem State.setPriority_ssp (s : State) (pl : BitVec 3) :
    (s.setPriority pl).ssp = s.ssp := rfl
@[simp] theorem State.setPriority_usp (s : State) (pl : BitVec 3) :
    (s.setPriority pl).usp = s.usp := rfl
@[simp] theorem State.setPriority_psr (s : State) (pl : BitVec 3) :
    (s.setPriority pl).psr = (s.psr &&& 0xF8FF) ||| shl (zext16 pl) 8 := rfl
@[simp] theorem State.setPriority_mem (s : State) (pl : BitVec 3) :
    (s.setPriority pl).mem = s.mem := rfl
@[simp] theorem State.setPriority_device (s : State) (pl : BitVec 3) :
    (s.setPriority pl).device = s.device := rfl
@[simp] theorem State.setPriority_sources (s : State) (pl : BitVec 3) :
    (s.setPriority pl).sources = s.sources := rfl
@[simp] theorem State.setPriority_requestInputs (s : State) (pl : BitVec 3) :
    (s.setPriority pl).requestInputs = s.requestInputs := rfl
@[simp] theorem State.setPriority_choices (s : State) (pl : BitVec 3) :
    (s.setPriority pl).choices = s.choices := rfl
@[simp] theorem State.setPriority_wait (s : State) (pl : BitVec 3) :
    (s.setPriority pl).wait = s.wait := rfl
@[simp] theorem State.setPriority_config (s : State) (pl : BitVec 3) :
    (s.setPriority pl).config = s.config := rfl

/-! ### The level an entry sets -/

@[simp] theorem State.setLevel_some (s : State) (pl : BitVec 3) :
    s.setLevel (some pl) = s.setPriority pl := rfl
@[simp] theorem State.setLevel_none (s : State) : s.setLevel none = s := rfl
@[simp] theorem State.setLevel_pc (s : State) (level : Option (BitVec 3)) :
    (s.setLevel level).pc = s.pc := by cases level <;> rfl
@[simp] theorem State.setLevel_r0 (s : State) (level : Option (BitVec 3)) :
    (s.setLevel level).r0 = s.r0 := by cases level <;> rfl
@[simp] theorem State.setLevel_r1 (s : State) (level : Option (BitVec 3)) :
    (s.setLevel level).r1 = s.r1 := by cases level <;> rfl
@[simp] theorem State.setLevel_r2 (s : State) (level : Option (BitVec 3)) :
    (s.setLevel level).r2 = s.r2 := by cases level <;> rfl
@[simp] theorem State.setLevel_r3 (s : State) (level : Option (BitVec 3)) :
    (s.setLevel level).r3 = s.r3 := by cases level <;> rfl
@[simp] theorem State.setLevel_r4 (s : State) (level : Option (BitVec 3)) :
    (s.setLevel level).r4 = s.r4 := by cases level <;> rfl
@[simp] theorem State.setLevel_r5 (s : State) (level : Option (BitVec 3)) :
    (s.setLevel level).r5 = s.r5 := by cases level <;> rfl
@[simp] theorem State.setLevel_r7 (s : State) (level : Option (BitVec 3)) :
    (s.setLevel level).r7 = s.r7 := by cases level <;> rfl
@[simp] theorem State.setLevel_ssp (s : State) (level : Option (BitVec 3)) :
    (s.setLevel level).ssp = s.ssp := by cases level <;> rfl
@[simp] theorem State.setLevel_usp (s : State) (level : Option (BitVec 3)) :
    (s.setLevel level).usp = s.usp := by cases level <;> rfl
@[simp] theorem State.setLevel_mem (s : State) (level : Option (BitVec 3)) :
    (s.setLevel level).mem = s.mem := by cases level <;> rfl
@[simp] theorem State.setLevel_device (s : State) (level : Option (BitVec 3)) :
    (s.setLevel level).device = s.device := by cases level <;> rfl
@[simp] theorem State.setLevel_sources (s : State) (level : Option (BitVec 3)) :
    (s.setLevel level).sources = s.sources := by cases level <;> rfl
@[simp] theorem State.setLevel_requestInputs (s : State) (level : Option (BitVec 3)) :
    (s.setLevel level).requestInputs = s.requestInputs := by cases level <;> rfl
@[simp] theorem State.setLevel_choices (s : State) (level : Option (BitVec 3)) :
    (s.setLevel level).choices = s.choices := by cases level <;> rfl
@[simp] theorem State.setLevel_wait (s : State) (level : Option (BitVec 3)) :
    (s.setLevel level).wait = s.wait := by cases level <;> rfl
@[simp] theorem State.setLevel_config (s : State) (level : Option (BitVec 3)) :
    (s.setLevel level).config = s.config := by cases level <;> rfl

/-! ### A write of the condition codes -/

@[simp] theorem State.setcc_pc (s : State) (v : Word) :
    (s.setcc v).pc = s.pc := rfl
@[simp] theorem State.setcc_r0 (s : State) (v : Word) :
    (s.setcc v).r0 = s.r0 := rfl
@[simp] theorem State.setcc_r1 (s : State) (v : Word) :
    (s.setcc v).r1 = s.r1 := rfl
@[simp] theorem State.setcc_r2 (s : State) (v : Word) :
    (s.setcc v).r2 = s.r2 := rfl
@[simp] theorem State.setcc_r3 (s : State) (v : Word) :
    (s.setcc v).r3 = s.r3 := rfl
@[simp] theorem State.setcc_r4 (s : State) (v : Word) :
    (s.setcc v).r4 = s.r4 := rfl
@[simp] theorem State.setcc_r5 (s : State) (v : Word) :
    (s.setcc v).r5 = s.r5 := rfl
@[simp] theorem State.setcc_r7 (s : State) (v : Word) :
    (s.setcc v).r7 = s.r7 := rfl
@[simp] theorem State.setcc_ssp (s : State) (v : Word) :
    (s.setcc v).ssp = s.ssp := rfl
@[simp] theorem State.setcc_usp (s : State) (v : Word) :
    (s.setcc v).usp = s.usp := rfl
@[simp] theorem State.setcc_psr (s : State) (v : Word) :
    (s.setcc v).psr = (s.psr &&& 0xFFF8) ||| ccBits v := rfl
@[simp] theorem State.setcc_mem (s : State) (v : Word) :
    (s.setcc v).mem = s.mem := rfl
@[simp] theorem State.setcc_device (s : State) (v : Word) :
    (s.setcc v).device = s.device := rfl
@[simp] theorem State.setcc_sources (s : State) (v : Word) :
    (s.setcc v).sources = s.sources := rfl
@[simp] theorem State.setcc_requestInputs (s : State) (v : Word) :
    (s.setcc v).requestInputs = s.requestInputs := rfl
@[simp] theorem State.setcc_choices (s : State) (v : Word) :
    (s.setcc v).choices = s.choices := rfl
@[simp] theorem State.setcc_wait (s : State) (v : Word) :
    (s.setcc v).wait = s.wait := rfl
@[simp] theorem State.setcc_config (s : State) (v : Word) :
    (s.setcc v).config = s.config := rfl

/-! ### A write of the current stack pointer -/

@[simp] theorem State.setSp_pc (s : State) (v : Word) :
    (s.setSp v).pc = s.pc := by
  unfold State.setSp; split <;> rfl
@[simp] theorem State.setSp_r0 (s : State) (v : Word) :
    (s.setSp v).r0 = s.r0 := by
  unfold State.setSp; split <;> rfl
@[simp] theorem State.setSp_r1 (s : State) (v : Word) :
    (s.setSp v).r1 = s.r1 := by
  unfold State.setSp; split <;> rfl
@[simp] theorem State.setSp_r2 (s : State) (v : Word) :
    (s.setSp v).r2 = s.r2 := by
  unfold State.setSp; split <;> rfl
@[simp] theorem State.setSp_r3 (s : State) (v : Word) :
    (s.setSp v).r3 = s.r3 := by
  unfold State.setSp; split <;> rfl
@[simp] theorem State.setSp_r4 (s : State) (v : Word) :
    (s.setSp v).r4 = s.r4 := by
  unfold State.setSp; split <;> rfl
@[simp] theorem State.setSp_r5 (s : State) (v : Word) :
    (s.setSp v).r5 = s.r5 := by
  unfold State.setSp; split <;> rfl
@[simp] theorem State.setSp_r7 (s : State) (v : Word) :
    (s.setSp v).r7 = s.r7 := by
  unfold State.setSp; split <;> rfl
@[simp] theorem State.setSp_psr (s : State) (v : Word) :
    (s.setSp v).psr = s.psr := by
  unfold State.setSp; split <;> rfl
@[simp] theorem State.setSp_mem (s : State) (v : Word) :
    (s.setSp v).mem = s.mem := by
  unfold State.setSp; split <;> rfl
@[simp] theorem State.setSp_device (s : State) (v : Word) :
    (s.setSp v).device = s.device := by
  unfold State.setSp; split <;> rfl
@[simp] theorem State.setSp_sources (s : State) (v : Word) :
    (s.setSp v).sources = s.sources := by
  unfold State.setSp; split <;> rfl
@[simp] theorem State.setSp_requestInputs (s : State) (v : Word) :
    (s.setSp v).requestInputs = s.requestInputs := by
  unfold State.setSp; split <;> rfl
@[simp] theorem State.setSp_choices (s : State) (v : Word) :
    (s.setSp v).choices = s.choices := by
  unfold State.setSp; split <;> rfl
@[simp] theorem State.setSp_wait (s : State) (v : Word) :
    (s.setSp v).wait = s.wait := by
  unfold State.setSp; split <;> rfl
@[simp] theorem State.setSp_config (s : State) (v : Word) :
    (s.setSp v).config = s.config := by
  unfold State.setSp; split <;> rfl

theorem State.setSp_ssp (s : State) (v : Word) :
    (s.setSp v).ssp = if s.userMode then s.ssp else v := by
  unfold State.setSp; split <;> rfl
theorem State.setSp_usp (s : State) (v : Word) :
    (s.setSp v).usp = if s.userMode then v else s.usp := by
  unfold State.setSp; split <;> rfl

/-! ### A write of a general purpose register -/

@[simp] theorem State.setReg_pc (s : State) (r : Reg) (v : Word) :
    (s.setReg r v).pc = s.pc := by
  cases r <;> simp [State.setReg]
@[simp] theorem State.setReg_psr (s : State) (r : Reg) (v : Word) :
    (s.setReg r v).psr = s.psr := by
  cases r <;> simp [State.setReg]
@[simp] theorem State.setReg_mem (s : State) (r : Reg) (v : Word) :
    (s.setReg r v).mem = s.mem := by
  cases r <;> simp [State.setReg]
@[simp] theorem State.setReg_device (s : State) (r : Reg) (v : Word) :
    (s.setReg r v).device = s.device := by
  cases r <;> simp [State.setReg]
@[simp] theorem State.setReg_sources (s : State) (r : Reg) (v : Word) :
    (s.setReg r v).sources = s.sources := by
  cases r <;> simp [State.setReg]
@[simp] theorem State.setReg_requestInputs (s : State) (r : Reg) (v : Word) :
    (s.setReg r v).requestInputs = s.requestInputs := by
  cases r <;> simp [State.setReg]
@[simp] theorem State.setReg_choices (s : State) (r : Reg) (v : Word) :
    (s.setReg r v).choices = s.choices := by
  cases r <;> simp [State.setReg]
@[simp] theorem State.setReg_wait (s : State) (r : Reg) (v : Word) :
    (s.setReg r v).wait = s.wait := by
  cases r <;> simp [State.setReg]
@[simp] theorem State.setReg_config (s : State) (r : Reg) (v : Word) :
    (s.setReg r v).config = s.config := by
  cases r <;> simp [State.setReg]

/-! ### The result of an instruction that sets the condition codes -/

@[simp] theorem State.loadResult_pc (s : State) (r : Reg) (v : Word) :
    (s.loadResult r v).pc = alignWord (s.pc + 2) := by
  simp [State.loadResult]
@[simp] theorem State.loadResult_psr (s : State) (r : Reg) (v : Word) :
    (s.loadResult r v).psr = (s.psr &&& 0xFFF8) ||| ccBits v := by
  simp [State.loadResult]
@[simp] theorem State.loadResult_mem (s : State) (r : Reg) (v : Word) :
    (s.loadResult r v).mem = s.mem := by
  simp [State.loadResult]
@[simp] theorem State.loadResult_device (s : State) (r : Reg) (v : Word) :
    (s.loadResult r v).device = s.device := by
  simp [State.loadResult]
@[simp] theorem State.loadResult_sources (s : State) (r : Reg) (v : Word) :
    (s.loadResult r v).sources = s.sources := by
  simp [State.loadResult]
@[simp] theorem State.loadResult_requestInputs (s : State) (r : Reg) (v : Word) :
    (s.loadResult r v).requestInputs = s.requestInputs := by
  simp [State.loadResult]
@[simp] theorem State.loadResult_choices (s : State) (r : Reg) (v : Word) :
    (s.loadResult r v).choices = s.choices := by
  simp [State.loadResult]
@[simp] theorem State.loadResult_wait (s : State) (r : Reg) (v : Word) :
    (s.loadResult r v).wait = s.wait := by
  simp [State.loadResult]
@[simp] theorem State.loadResult_config (s : State) (r : Reg) (v : Word) :
    (s.loadResult r v).config = s.config := by
  simp [State.loadResult]

end Sys2Proof.Machine
end

