-- ==== Sys2Proof/Laws/Ops.lean ====
section
/-! SUPPORT. For each shared operation, what it can do: the lemmas proofs cite instead of unfolding it. -/

namespace Sys2Proof.Machine

/-! ### Aligned addresses -/

theorem alignWord_eq_mask (a : Word) : a &&& 0xFFFE = alignWord a := rfl

theorem alignWord_toNat (a : Word) : (alignWord a).toNat = a.toNat / 2 * 2 := by
  have h : alignWord a = (a >>> 1) <<< 1 := by
    apply BitVec.eq_of_getLsbD_eq
    intro i hi
    simp only [alignWord, BitVec.getLsbD_and, BitVec.getLsbD_shiftLeft, BitVec.getLsbD_ushiftRight]
    rcases i with _ | i
    · simp
    · have hb : (0xFFFE : Word).getLsbD (i + 1) = decide (i + 1 < 16) := by
        have hi' : i < 15 := by omega
        interval_cases i <;> rfl
      rw [hb]
      simp [Nat.add_comm, Bool.and_comm]
  rw [h, BitVec.toNat_shiftLeft, BitVec.toNat_ushiftRight, Nat.shiftLeft_eq,
    Nat.shiftRight_eq_div_pow]
  have := a.isLt
  omega

@[simp] theorem alignWord_alignWord (a : Word) : alignWord (alignWord a) = alignWord a := by
  apply BitVec.eq_of_toNat_eq
  simp only [alignWord_toNat]
  omega

@[simp] theorem alignWord_getLsbD_zero (a : Word) : (alignWord a).getLsbD 0 = false := by
  simp [alignWord]

theorem alignWord_succ_toNat (a : Word) : (alignWord a + 1).toNat = a.toNat / 2 * 2 + 1 := by
  have h1 : (1 : Word).toNat = 1 := rfl
  rw [BitVec.toNat_add, alignWord_toNat, h1]
  have := a.isLt
  omega

theorem alignWord_succ_ne (a : Word) : alignWord a + 1 ≠ alignWord a := by
  intro h
  have := congrArg BitVec.toNat h
  rw [alignWord_succ_toNat, alignWord_toNat] at this
  omega

/-- An even address is its own aligned address. -/
theorem alignWord_of_even (a : Word) (h : a.getLsbD 0 = false) : alignWord a = a := by
  apply BitVec.eq_of_toNat_eq
  rw [alignWord_toNat]
  have : a.toNat % 2 = 0 := by
    have h2 : a.toNat.testBit 0 = false := h
    simpa [Nat.testBit_zero] using h2
  omega

theorem isDevice_eq_false {a : Word} : isDevice a = false ↔ a.toNat < deviceBase := by
  simp [isDevice]

theorem isDevice_eq_true {a : Word} : isDevice a = true ↔ deviceBase ≤ a.toNat := by
  simp [isDevice]

/-- The device addresses are the last region of the memory map (spec/20_memory.md R51, R62). -/
theorem isDevice_iff_region (a : Word) : isDevice a = true ↔ regionOf a = .deviceRegisters := by
  rw [isDevice_eq_true]
  have e1 : (0x00FF : Word).toNat = 0x00FF := rfl
  have e2 : (0x01FF : Word).toNat = 0x01FF := rfl
  have e3 : (0x2FFF : Word).toNat = 0x2FFF := rfl
  have e4 : (0xFDFF : Word).toNat = 0xFDFF := rfl
  simp only [regionOf, deviceBase, BitVec.le_def, e1, e2, e3, e4]
  repeat' split
  all_goals simp
  all_goals omega

/-! ### Registers -/

@[simp] theorem State.reg_r7 (s : State) : s.reg .r7 = s.r7 := rfl

theorem State.userMode_congr {s t : State} (h : t.psr = s.psr) : t.userMode = s.userMode := by
  simp [State.userMode, h]

/-- Two states with the same registers and PSR read every register alike. -/
theorem State.reg_congr {s t : State} (h0 : t.r0 = s.r0) (h1 : t.r1 = s.r1) (h2 : t.r2 = s.r2)
    (h3 : t.r3 = s.r3) (h4 : t.r4 = s.r4) (h5 : t.r5 = s.r5) (h7 : t.r7 = s.r7)
    (hm : t.userMode = s.userMode) (hsp : t.ssp = s.ssp) (hu : t.usp = s.usp) (r : Reg) :
    t.reg r = s.reg r := by
  cases r <;> simp [State.reg, State.sp, *]

@[simp] theorem State.setReg_userMode (s : State) (r : Reg) (v : Word) :
    (s.setReg r v).userMode = s.userMode := State.userMode_congr (by simp)

/-- A written register reads as written. -/
@[simp] theorem State.reg_setReg_same (s : State) (r : Reg) (v : Word) : (s.setReg r v).reg r = v := by
  cases r with
  | r6 =>
    have hm : (s.setSp v).userMode = s.userMode := State.userMode_congr (by simp)
    simp only [State.setReg, State.reg, State.sp, hm, State.setSp_ssp, State.setSp_usp]
    split <;> rfl
  | _ => rfl

@[simp] theorem State.sp_setReg_other (s : State) (r : Reg) (v : Word) (h : r ≠ .r6) :
    (s.setReg r v).sp = s.sp := by
  have hm := s.setReg_userMode r v
  simp only [State.sp, hm]
  cases r <;> first | rfl | exact absurd rfl h

/-- Every other register reads as before. -/
theorem State.reg_setReg_other (s : State) (r q : Reg) (v : Word) (h : q ≠ r) :
    (s.setReg r v).reg q = s.reg q := by
  by_cases hq : q = .r6
  · subst hq
    exact s.sp_setReg_other r v (Ne.symm h)
  · cases r with
    | r6 => cases q <;> simp_all [State.reg, State.setReg]
    | _ => cases q <;> simp_all [State.reg, State.setReg]

/-- The stack pointer of the mode that is not current keeps its value. -/
theorem State.otherMode_setReg (s : State) (r : Reg) (v : Word) :
    (if s.userMode then (s.setReg r v).ssp else (s.setReg r v).usp) =
      if s.userMode then s.ssp else s.usp := by
  cases r with
  | r6 =>
    simp only [State.setReg, State.setSp_ssp, State.setSp_usp]
    split <;> rfl
  | _ => rfl

@[simp] theorem State.reg_setPc (s : State) (t : Word) (r : Reg) : (s.setPc t).reg r = s.reg r := by
  cases r <;> rfl

@[simp] theorem State.reg_advance (s : State) (r : Reg) : s.advance.reg r = s.reg r := by
  cases r <;> rfl

/-! ### The PSR -/

theorem ccBits_low (v : Word) : ccBits v = 0b100 ∨ ccBits v = 0b010 ∨ ccBits v = 0b001 := by
  unfold ccBits
  split
  · exact .inl rfl
  · split
    · exact .inr (.inl rfl)
    · exact .inr (.inr rfl)

/-- `setcc` leaves every PSR bit but the three codes. -/
theorem State.setcc_getLsbD (s : State) (v : Word) (k : Nat) (hk : 3 ≤ k) :
    (s.setcc v).psr.getLsbD k = s.psr.getLsbD k := by
  simp only [State.setcc_psr, BitVec.getLsbD_or, BitVec.getLsbD_and]
  by_cases h : k < 16
  · rcases ccBits_low v with hc | hc | hc <;> rw [hc] <;> interval_cases k <;> simp
  · rw [BitVec.getLsbD_of_ge _ _ (by omega), BitVec.getLsbD_of_ge _ _ (by omega),
      BitVec.getLsbD_of_ge _ _ (by omega)]
    rfl

@[simp] theorem State.setcc_userMode (s : State) (v : Word) : (s.setcc v).userMode = s.userMode :=
  s.setcc_getLsbD v 15 (by omega)

@[simp] theorem State.reg_setcc (s : State) (v : Word) (r : Reg) : (s.setcc v).reg r = s.reg r :=
  State.reg_congr (s := s) (t := s.setcc v) rfl rfl rfl rfl rfl rfl rfl (s.setcc_userMode v) rfl rfl r

@[simp] theorem State.enterSupervisor_userMode (s : State) : s.enterSupervisor.userMode = false := by
  simp [State.userMode]

/-! ### Loads: what they answer -/

theorem State.loadByte_memory (s : State) (a : Word) (h : a.toNat < deviceBase) :
    s.loadByte a = .ok (s.byteAt a, s) := by
  simp [State.loadByte, isDevice_eq_false.mpr h]

theorem State.loadWord_memory (s : State) (a : Word) (h : (alignWord a).toNat < deviceBase) :
    s.loadWord a = .ok (s.wordAt a, s) := by
  simp [State.loadWord, isDevice_eq_false.mpr h]

theorem State.loadByte_refuse (s : State) (a : Word) (h : deviceBase ≤ a.toNat)
    (hd : s.device = .refuse) : s.loadByte a = .error .deviceAccess := by
  simp [State.loadByte, isDevice_eq_true.mpr h, hd]

theorem State.loadWord_refuse (s : State) (a : Word) (h : deviceBase ≤ (alignWord a).toNat)
    (hd : s.device = .refuse) : s.loadWord a = .error .deviceAccess := by
  simp [State.loadWord, isDevice_eq_true.mpr h, hd]

/-- A byte read changes the device's state at most. -/
theorem State.loadByte_ok {s t : State} {a : Word} {b : Byte} (h : s.loadByte a = .ok (b, t)) :
    t = { s with device := t.device } := by
  unfold State.loadByte at h
  repeat' split at h
  all_goals cases h
  all_goals rfl

/-- A word read changes the device's state at most. -/
theorem State.loadWord_ok {s t : State} {a v : Word} (h : s.loadWord a = .ok (v, t)) :
    t = { s with device := t.device } := by
  unfold State.loadWord at h
  repeat' split at h
  all_goals cases h
  all_goals rfl

theorem State.loadByte_error {s : State} {a : Word} {e : Refusal} (h : s.loadByte a = .error e) :
    e = .deviceAccess := by
  unfold State.loadByte at h
  repeat' split at h
  all_goals cases h
  all_goals rfl

theorem State.loadWord_error {s : State} {a : Word} {e : Refusal} (h : s.loadWord a = .error e) :
    e = .deviceAccess := by
  unfold State.loadWord at h
  repeat' split at h
  all_goals cases h
  all_goals rfl

/-! ### Stores: what they answer -/

theorem State.storeByte_memory (s : State) (a : Word) (b : Byte) (h : a.toNat < deviceBase) :
    s.storeByte a b = .ok { s with mem := s.mem.write a.toNat b } := by
  simp [State.storeByte, isDevice_eq_false.mpr h]

theorem State.storeWord_memory (s : State) (a v : Word) (h : (alignWord a).toNat < deviceBase) :
    s.storeWord a v = .ok { s with mem := s.mem.writeWord (alignWord a).toNat v } := by
  simp [State.storeWord, isDevice_eq_false.mpr h]

theorem State.storeByte_refuse (s : State) (a : Word) (b : Byte) (h : deviceBase ≤ a.toNat)
    (hd : s.device = .refuse) : s.storeByte a b = .error .deviceAccess := by
  simp [State.storeByte, isDevice_eq_true.mpr h, hd]

theorem State.storeWord_refuse (s : State) (a v : Word) (h : deviceBase ≤ (alignWord a).toNat)
    (hd : s.device = .refuse) : s.storeWord a v = .error .deviceAccess := by
  simp [State.storeWord, isDevice_eq_true.mpr h, hd]

/-- A byte store writes one byte of memory, or changes the device's state. -/
theorem State.storeByte_ok {s t : State} {a : Word} {b : Byte} (h : s.storeByte a b = .ok t) :
    (a.toNat < deviceBase ∧ t = { s with mem := s.mem.write a.toNat b }) ∨
      (deviceBase ≤ a.toNat ∧ t = { s with device := t.device }) := by
  unfold State.storeByte at h
  by_cases hd : isDevice a = true
  · rw [if_pos hd] at h
    refine .inr ⟨isDevice_eq_true.mp hd, ?_⟩
    repeat' split at h
    all_goals cases h
    rfl
  · rw [if_neg hd] at h
    cases h
    exact .inl ⟨isDevice_eq_false.mp (by simpa using hd), rfl⟩

/-- A word store writes the two bytes of the aligned word, or changes the device's state. -/
theorem State.storeWord_ok {s t : State} {a v : Word} (h : s.storeWord a v = .ok t) :
    ((alignWord a).toNat < deviceBase ∧
        t = { s with mem := s.mem.writeWord (alignWord a).toNat v }) ∨
      (deviceBase ≤ (alignWord a).toNat ∧ t = { s with device := t.device }) := by
  unfold State.storeWord at h
  by_cases hd : isDevice (alignWord a) = true
  · rw [if_pos hd] at h
    refine .inr ⟨isDevice_eq_true.mp hd, ?_⟩
    repeat' split at h
    all_goals cases h
    rfl
  · rw [if_neg hd] at h
    cases h
    exact .inl ⟨isDevice_eq_false.mp (by simpa using hd), rfl⟩

theorem State.storeByte_error {s : State} {a : Word} {b : Byte} {e : Refusal}
    (h : s.storeByte a b = .error e) : e = .deviceAccess := by
  unfold State.storeByte at h
  repeat' split at h
  all_goals cases h
  all_goals rfl

theorem State.storeWord_error {s : State} {a v : Word} {e : Refusal}
    (h : s.storeWord a v = .error e) : e = .deviceAccess := by
  unfold State.storeWord at h
  repeat' split at h
  all_goals cases h
  all_goals rfl

/-! ### What a stored byte or word reads as -/

/-- The bytes of memory after a byte write. -/
theorem State.byteAt_write (s : State) (a : Word) (b : Byte) (x : Word) (h : a.toNat < deviceBase) :
    ({ s with mem := s.mem.write a.toNat b } : State).byteAt x = if x = a then b else s.byteAt x := by
  simp only [State.byteAt, Memory.read_write _ _ _ _ h, BitVec.toNat_inj]

/-- The bytes of memory after a word write. -/
theorem State.byteAt_writeWord (s : State) (a v x : Word) (h : (alignWord a).toNat < deviceBase) :
    ({ s with mem := s.mem.writeWord (alignWord a).toNat v } : State).byteAt x =
      if x = alignWord a + 1 then v.extractLsb' 8 8
      else if x = alignWord a then v.extractLsb' 0 8 else s.byteAt x := by
  have hs : (alignWord a).toNat + 1 = (alignWord a + 1).toNat := by
    rw [alignWord_succ_toNat, alignWord_toNat]
  have h1 : (alignWord a).toNat + 1 < deviceBase := by
    rw [alignWord_toNat] at h ⊢
    simp only [deviceBase] at h ⊢
    omega
  simp only [State.byteAt, Memory.read_writeWord _ _ _ _ h1, hs, BitVec.toNat_inj]

/-- A word written reads back whole. -/
theorem State.wordAt_writeWord (s : State) (a v : Word) (h : (alignWord a).toNat < deviceBase) :
    ({ s with mem := s.mem.writeWord (alignWord a).toNat v } : State).wordAt a = v := by
  simp only [State.wordAt, State.byteAt_writeWord _ _ _ _ h, if_true]
  rw [if_neg (alignWord_succ_ne a).symm]
  ext i hi
  simp only [BitVec.getElem_append, BitVec.getElem_extractLsb']
  by_cases h8 : i < 8
  · simp [h8, BitVec.getLsbD, BitVec.getElem_eq_testBit_toNat]
  · have e : 8 + (i - 8) = i := by omega
    simp only [h8, dite_false, e]
    exact (BitVec.getLsbD_eq_getElem (by omega))

/-- The word at one aligned address is as before a word write at another. -/
theorem State.wordAt_writeWord_other (s : State) (a x v : Word) (h : (alignWord a).toNat < deviceBase)
    (hne : alignWord x ≠ alignWord a) :
    ({ s with mem := s.mem.writeWord (alignWord a).toNat v } : State).wordAt x = s.wordAt x := by
  have h0 : (alignWord x).toNat ≠ (alignWord a).toNat := fun e => hne (BitVec.eq_of_toNat_eq e)
  have e1 : alignWord x + 1 ≠ alignWord a + 1 := fun e =>
    hne (by simpa using e)
  have e2 : alignWord x + 1 ≠ alignWord a := fun e => by
    have := congrArg BitVec.toNat e
    rw [alignWord_succ_toNat, alignWord_toNat] at this
    omega
  have e3 : alignWord x ≠ alignWord a + 1 := fun e => by
    have := congrArg BitVec.toNat e
    rw [alignWord_succ_toNat, alignWord_toNat] at this
    omega
  simp only [State.wordAt, State.byteAt_writeWord _ _ _ _ h, if_neg e1, if_neg e2, if_neg e3, if_neg hne]

/-! ### Stack operations and handler entry -/

theorem State.pushSupervisor_memory (s : State) (v : Word)
    (h : (alignWord (s.ssp - 2)).toNat < deviceBase) :
    s.pushSupervisor v =
      .ok { s with ssp := s.ssp - 2, mem := s.mem.writeWord (alignWord (s.ssp - 2)).toNat v } :=
  State.storeWord_memory _ _ _ h

theorem State.popSupervisor_memory (s : State) (h : (alignWord s.ssp).toNat < deviceBase) :
    s.popSupervisor = .ok (s.wordAt s.ssp, { s with ssp := s.ssp + 2 }) := by
  rw [State.popSupervisor, State.loadWord_memory s _ h]
  rfl

/-- A push moves SSP and writes one word of memory or changes the device's state. -/
theorem State.pushSupervisor_ok {s t : State} {v : Word} (h : s.pushSupervisor v = .ok t) :
    t = { s with ssp := s.ssp - 2, mem := t.mem, device := t.device } ∧
      (t.mem = s.mem ∨ (alignWord (s.ssp - 2)).toNat < deviceBase ∧
        t.mem = s.mem.writeWord (alignWord (s.ssp - 2)).toNat v) := by
  rcases State.storeWord_ok h with ⟨ha, ht⟩ | ⟨_, ht⟩
  · rw [ht]
    exact ⟨rfl, .inr ⟨ha, rfl⟩⟩
  · rw [ht]
    exact ⟨rfl, .inl rfl⟩

/-- A pop moves SSP and changes the device's state at most. -/
theorem State.popSupervisor_ok {s t : State} {v : Word} (h : s.popSupervisor = .ok (v, t)) :
    t = { s with ssp := s.ssp + 2, device := t.device } := by
  unfold State.popSupervisor at h
  cases hl : s.loadWord s.ssp with
  | error e => simp only [bind, Except.bind, hl] at h; cases h
  | ok p =>
    obtain ⟨w, u⟩ := p
    have hu := State.loadWord_ok hl
    simp only [bind, Except.bind, hl] at h
    cases h
    rw [hu]

theorem State.pushSupervisor_error {s : State} {v : Word} {e : Refusal}
    (h : s.pushSupervisor v = .error e) : e = .deviceAccess :=
  State.storeWord_error h

theorem State.popSupervisor_error {s : State} {e : Refusal} (h : s.popSupervisor = .error e) :
    e = .deviceAccess := by
  unfold State.popSupervisor at h
  cases hl : s.loadWord s.ssp with
  | error e' => simp only [bind, Except.bind, hl] at h; cases h; exact State.loadWord_error hl
  | ok p => simp only [bind, Except.bind, hl] at h; cases h

/-- A handler entry that answers: its three accesses answered, in this order. -/
theorem State.enterHandler_ok {s t : State} {savedPc entry : Word} {level : Option (BitVec 3)}
    (h : s.enterHandler savedPc level entry = .ok t) :
    ∃ (s1 s2 s4 : State) (v : Word), s.enterSupervisor.pushSupervisor s.readPsr = .ok s1 ∧
      s1.pushSupervisor savedPc = .ok s2 ∧
      (s2.setLevel level).loadWord entry = .ok (v, s4) ∧
      t = s4.setPc v := by
  unfold State.enterHandler at h
  cases h1 : s.enterSupervisor.pushSupervisor s.readPsr with
  | error e => simp only [bind, Except.bind, h1] at h; cases h
  | ok s1 =>
    simp only [bind, Except.bind, h1] at h
    cases h2 : s1.pushSupervisor savedPc with
    | error e => simp only [h2] at h; cases h
    | ok s2 =>
      simp only [h2] at h
      split at h
      · cases h
      · next p h4 =>
        cases h
        exact ⟨s1, s2, p.2, p.1, rfl, h2, h4, rfl⟩

/-- A handler entry that is refused is refused for a device access. -/
theorem State.enterHandler_error {s : State} {savedPc entry : Word} {level : Option (BitVec 3)}
    {e : Refusal} (h : s.enterHandler savedPc level entry = .error e) : e = .deviceAccess := by
  unfold State.enterHandler at h
  cases h1 : s.enterSupervisor.pushSupervisor s.readPsr with
  | error e' => simp only [bind, Except.bind, h1] at h; cases h; exact State.pushSupervisor_error h1
  | ok s1 =>
    simp only [bind, Except.bind, h1] at h
    cases h2 : s1.pushSupervisor savedPc with
    | error e' =>
      simp only [h2] at h; cases h; exact State.pushSupervisor_error h2
    | ok s2 =>
      simp only [h2] at h
      split at h
      · next e' h4 => cases h; exact State.loadWord_error h4
      · cases h

/-- A return that answers: its two pops answered, in this order. -/
theorem State.returnFromHandler_ok {s t : State} (h : s.returnFromHandler = .ok t) :
    ∃ (tPc : Word) (s1 : State) (tPsr : Word) (s2 : State),
      s.popSupervisor = .ok (tPc, s1) ∧ s1.popSupervisor = .ok (tPsr, s2) ∧
      t = (s2.writePsr tPsr).setPc tPc := by
  unfold State.returnFromHandler at h
  cases h1 : s.popSupervisor with
  | error e => simp only [bind, Except.bind, h1] at h; cases h
  | ok p =>
    obtain ⟨tPc, s1⟩ := p
    simp only [bind, Except.bind, h1] at h
    cases h2 : s1.popSupervisor with
    | error e => simp only [h2] at h; cases h
    | ok q =>
      obtain ⟨tPsr, s2⟩ := q
      simp only [h2] at h
      cases h
      exact ⟨tPc, s1, tPsr, s2, rfl, h2, rfl⟩

/-- A return that is refused is refused for a device access. -/
theorem State.returnFromHandler_error {s : State} {e : Refusal} (h : s.returnFromHandler = .error e) :
    e = .deviceAccess := by
  unfold State.returnFromHandler at h
  cases h1 : s.popSupervisor with
  | error e' => simp only [bind, Except.bind, h1] at h; cases h; exact State.popSupervisor_error h1
  | ok p =>
    obtain ⟨tPc, s1⟩ := p
    simp only [bind, Except.bind, h1] at h
    cases h2 : s1.popSupervisor with
    | error e' => simp only [h2] at h; cases h; exact State.popSupervisor_error h2
    | ok q => simp only [h2] at h; cases h

/-! ### The answer of an operation as an outcome -/

@[simp] theorem finish_ok (t : State) : finish (.ok t) = .next t := rfl
@[simp] theorem finish_error (e : Refusal) : finish (.error e) = .refused e := rfl

theorem finish_eq_next {r : Except Refusal State} {t : State} : finish r = .next t ↔ r = .ok t := by
  cases r <;> simp [finish]

theorem finish_eq_refused {r : Except Refusal State} {e : Refusal} :
    finish r = .refused e ↔ r = .error e := by
  cases r <;> simp [finish]

theorem finish_ne_fault {r : Except Refusal State} {f : Fault} : finish r ≠ .fault f := by
  cases r <;> simp [finish]

/-! ### The boundary -/

/-- Outside the processor only the device, its sources' requests and the inputs change. -/
theorem State.environmentActs_frame (s : State) :
    s.environmentActs = { s with
      device := s.environmentActs.device, sources := s.environmentActs.sources,
      requestInputs := s.environmentActs.requestInputs } := by
  unfold State.environmentActs
  repeat' split
  all_goals rfl

/-- Choosing an interrupt changes only what is left to choose. -/
theorem State.chooseInterrupt_frame (s : State) :
    (s.chooseInterrupt).2 =
      { s with choices := (s.chooseInterrupt).2.choices, wait := (s.chooseInterrupt).2.wait } := by
  unfold State.chooseInterrupt
  repeat' split
  all_goals rfl

/-- A fetch changes the device's state at most. -/
theorem State.fetchInstr_ok {s t : State} {i : Instr} (h : s.fetchInstr = .ok (i, t)) :
    ∃ w, s.loadWord s.pc = .ok (w, t) ∧ decodeUnder s.config.reservedPolicy w = .ok i := by
  unfold State.fetchInstr at h
  cases hl : s.loadWord s.pc with
  | error e => simp only [bind, Except.bind, hl] at h; cases h
  | ok p =>
    obtain ⟨w, u⟩ := p
    simp only [bind, Except.bind, hl] at h
    split at h
    · next i' hd => cases h; exact ⟨w, rfl, hd⟩
    · cases h
    · cases h

end Sys2Proof.Machine
end

