-- ==== Sys2Proof/Laws/Frames.lean ====
section
/-! SUPPORT. The shared endings of instructions in the terms of Safety.lean. -/

namespace Sys2Proof.Machine

theorem SameOutside.refl (s : State) : SameOutside s s := ⟨rfl, rfl, rfl, rfl, rfl, rfl⟩

theorem SameMemoryBut.of_mem_eq {s t : State} (bytes : List Word) (h : t.mem = s.mem) :
    SameMemoryBut bytes s t := fun a _ => by simp [State.byteAt, h]

/-- `codesOf` is what `setcc` writes (spec/10_state.md R29). -/
theorem State.codes_setcc (s : State) (v : Word) : (s.setcc v).codes = codesOf v := by
  have key : ∀ c : Word, c = 0b100 ∨ c = 0b010 ∨ c = 0b001 → ∀ k, k < 3 →
      ((s.psr &&& 0xFFF8) ||| c).getLsbD k = c.getLsbD k := by
    intro c _ k hk
    rw [BitVec.getLsbD_or, BitVec.getLsbD_and]
    interval_cases k <;> simp
  simp only [State.codes, State.ccN, State.ccZ, State.ccP, State.setcc_psr,
    key _ (ccBits_low v) 2 (by omega), key _ (ccBits_low v) 1 (by omega),
    key _ (ccBits_low v) 0 (by omega)]
  have hmsb : v.getLsbD 15 = decide (v.toInt < 0) := by
    have h := BitVec.toInt_neg_iff (x := v)
    have hb : v.getLsbD 15 = decide (2 ^ 15 ≤ v.toNat) := by
      exact (BitVec.msb_eq_decide v)
    rw [hb]
    simp only [h, decide_eq_decide]
    omega
  unfold ccBits codesOf
  rw [hmsb]
  by_cases h1 : v.toInt < 0
  · simp [h1]
  · by_cases h2 : v = 0
    · simp [h2]
    · have h0 : ¬ v = 0#16 := h2
      have h3 : v.toInt ≠ 0 := fun e => h2 (BitVec.eq_of_toInt_eq (by simpa using e))
      simp [h1, h0, h3]

/-- The PSR bits beside the codes after `setcc`. -/
theorem State.setcc_psrRest (s : State) (v : Word) :
    (s.setcc v).psr &&& 0xFFF8 = s.psr &&& 0xFFF8 := by
  rw [State.setcc_psr]
  apply BitVec.eq_of_getLsbD_eq
  intro i hi
  simp only [BitVec.getLsbD_and, BitVec.getLsbD_or]
  rcases ccBits_low v with h | h | h <;> rw [h] <;> interval_cases i <;> simp

/-- The ending of the instructions that set the condition codes. -/
theorem State.loadResult_writesResult (s : State) (dr : Reg) (v : Word) :
    WritesResult s (s.loadResult dr v) dr v where
  result  := by simp [State.loadResult]
  codes   := State.codes_setcc (s.setReg dr v) v
  pc      := by simp [alignWord]
  regs    := fun r hr => by
    rw [State.loadResult, State.reg_advance, State.reg_setcc, State.reg_setReg_other _ _ _ _ hr]
  otherSp := by
    have hm : (s.loadResult dr v).userMode = s.userMode :=
      (State.setcc_userMode (s.setReg dr v) v).trans (s.setReg_userMode dr v)
    simp only [State.otherSp, hm]
    exact s.otherMode_setReg dr v
  psrRest := by
    have h := State.setcc_psrRest (s.setReg dr v) v
    rwa [State.setReg_psr] at h
  memory  := SameMemoryBut.of_mem_eq _ (by simp)
  outside := ⟨by simp, by simp, by simp, by simp, by simp, by simp⟩

/-- The ending of the instructions that write only the PC. -/
theorem State.setPc_frame (s : State) (t : Word) : FrameBut [] [] s (s.setPc t) where
  regs    := fun r _ => s.reg_setPc t r
  otherSp := rfl
  psr     := rfl
  memory  := SameMemoryBut.of_mem_eq _ rfl
  outside := ⟨rfl, rfl, rfl, rfl, rfl, rfl⟩

/-- The ending of the instructions that link in a register and write the PC. -/
theorem State.setReg_setPc_frame (s : State) (r : Reg) (v t : Word) :
    FrameBut [r] [] s ((s.setReg r v).setPc t) where
  regs    := fun q hq => by
    rw [State.reg_setPc, State.reg_setReg_other _ _ _ _ (by simpa using hq)]
  otherSp := by
    have hm : ((s.setReg r v).setPc t).userMode = s.userMode := s.setReg_userMode r v
    simp only [State.otherSp, hm]
    exact s.otherMode_setReg r v
  psr     := by simp
  memory  := SameMemoryBut.of_mem_eq _ (by simp)
  outside := ⟨by simp, by simp, by simp, by simp, by simp, by simp⟩

end Sys2Proof.Machine
end

