-- ==== Sys2Proof/Laws/PerInstr.lean ====
section
/-! SUPPORT. One lemma per constructor of `Instr` for each family of statements about syntax. -/

namespace Sys2Proof.Laws

/-- Bits 15:12 of an instruction's word are its opcode in the map of spec/30_encoding.md R87. -/
def OpcodeField.Statement (i : Instr) : Prop := (encode i).extractLsb' 12 4 = i.opcode

theorem OpcodeField.addReg (dr : Reg) (sr1 : Reg) (sr2 : Reg) :
    OpcodeField.Statement (Instr.addReg dr sr1 sr2) := encodeDRBase_opcode _ _ _ _

theorem OpcodeField.addImm (dr : Reg) (sr1 : Reg) (imm5 : BitVec 5) :
    OpcodeField.Statement (Instr.addImm dr sr1 imm5) := encodeDRBase_opcode _ _ _ _

theorem OpcodeField.andReg (dr : Reg) (sr1 : Reg) (sr2 : Reg) :
    OpcodeField.Statement (Instr.andReg dr sr1 sr2) := encodeDRBase_opcode _ _ _ _

theorem OpcodeField.andImm (dr : Reg) (sr1 : Reg) (imm5 : BitVec 5) :
    OpcodeField.Statement (Instr.andImm dr sr1 imm5) := encodeDRBase_opcode _ _ _ _

theorem OpcodeField.br (n : Bool) (z : Bool) (p : Bool) (off : BitVec 9) :
    OpcodeField.Statement (Instr.br n z p off) := by
  have h := extract_append_high
    (0b0000#4 ++ BitVec.ofBool n ++ BitVec.ofBool z ++ BitVec.ofBool p) off 12 4 (by omega)
  refine h.trans ?_
  cases n <;> cases z <;> cases p <;> rfl

theorem OpcodeField.ret :
    OpcodeField.Statement (Instr.ret) := rfl

theorem OpcodeField.jmp (base : Reg) :
    OpcodeField.Statement (Instr.jmp base) := by
  cases base <;> rfl

theorem OpcodeField.jsr (off : BitVec 11) :
    OpcodeField.Statement (Instr.jsr off) := by
  have h := extract_append_high (0b0100#4 ++ 0b1#1) off 12 4 (by omega)
  exact h

theorem OpcodeField.jsrr (base : Reg) :
    OpcodeField.Statement (Instr.jsrr base) := by
  cases base <;> rfl

theorem OpcodeField.ldb (dr : Reg) (base : Reg) (off : BitVec 6) :
    OpcodeField.Statement (Instr.ldb dr base off) := encodeDRBase_opcode _ _ _ _

theorem OpcodeField.ldi (dr : Reg) (base : Reg) (off : BitVec 6) :
    OpcodeField.Statement (Instr.ldi dr base off) := encodeDRBase_opcode _ _ _ _

theorem OpcodeField.ldr (dr : Reg) (base : Reg) (off : BitVec 6) :
    OpcodeField.Statement (Instr.ldr dr base off) := encodeDRBase_opcode _ _ _ _

theorem OpcodeField.lea (dr : Reg) (off : BitVec 9) :
    OpcodeField.Statement (Instr.lea dr off) := by
  have h := extract_append_high (0b1110#4 ++ dr.bits) off 12 4 (by omega)
  exact h.trans ((extract_append_high 0b1110#4 dr.bits 3 4 (by omega)).trans (extract_all _))

theorem OpcodeField.not (dr : Reg) (sr : Reg) :
    OpcodeField.Statement (Instr.not dr sr) := encodeDRBase_opcode _ _ _ _

theorem OpcodeField.rti :
    OpcodeField.Statement (Instr.rti) := rfl

theorem OpcodeField.shf (dr : Reg) (sr : Reg) (a : Bool) (d : Bool) (imm4 : BitVec 4) :
    OpcodeField.Statement (Instr.shf dr sr a d imm4) := encodeDRBase_opcode _ _ _ _

theorem OpcodeField.stb (sr : Reg) (base : Reg) (off : BitVec 6) :
    OpcodeField.Statement (Instr.stb sr base off) := encodeDRBase_opcode _ _ _ _

theorem OpcodeField.sti (sr : Reg) (base : Reg) (off : BitVec 6) :
    OpcodeField.Statement (Instr.sti sr base off) := encodeDRBase_opcode _ _ _ _

theorem OpcodeField.str (sr : Reg) (base : Reg) (off : BitVec 6) :
    OpcodeField.Statement (Instr.str sr base off) := encodeDRBase_opcode _ _ _ _

theorem OpcodeField.trap (v : BitVec 8) :
    OpcodeField.Statement (Instr.trap v) := by
  have h := extract_append_high (0b1111#4 ++ 0b0000#4) v 12 4 (by omega)
  exact h

end Sys2Proof.Laws
end

