-- ==== Sys2Proof/Laws/Step.lean ====
section
/-! SUPPORT. What an instruction boundary, a step and a handler entry can do. -/

namespace Sys2Proof.Machine

/-- A source is accepted when it requests with a priority above the process's (spec/60_exceptions.md R176). -/
theorem State.accepts_iff (s : State) (src : IntSource) :
    s.accepts src = true ↔ src.request = true ∧ s.priority < src.pl := by
  simp [State.accepts]

/-- The candidates are the accepted sources that no accepted source exceeds (spec/60_exceptions.md R177). -/
theorem State.mem_candidates (s : State) (src : IntSource) :
    src ∈ s.candidates ↔ (src ∈ s.sources ∧ s.accepts src = true) ∧
      ∀ other ∈ s.sources, s.accepts other = true → other.pl ≤ src.pl := by
  simp only [State.candidates, List.mem_filter, List.all_eq_true, decide_eq_true_eq, and_imp]

@[simp] theorem State.candidates_choices (s : State) (choices : List BoundaryChoice) :
    ({ s with choices := choices } : State).candidates = s.candidates := rfl
@[simp] theorem State.candidates_wait (s : State) (wait : Wait) :
    ({ s with wait := wait } : State).candidates = s.candidates := rfl
@[simp] theorem State.waitHere_choices (s : State) (choices : List BoundaryChoice) :
    ({ s with choices := choices } : State).waitHere = s.waitHere := rfl

/-- The accepted places are those of the accepted sources. -/
theorem State.mem_acceptedPlaces (s : State) (i : Nat) :
    i ∈ s.acceptedPlaces ↔ ∃ src, s.sources[i]? = some src ∧ s.accepts src = true := by
  simp only [State.acceptedPlaces, List.mem_filter, List.mem_range, Option.any_eq_true]
  constructor
  · exact fun h => h.2
  · rintro ⟨src, h, ha⟩
    exact ⟨(List.getElem?_eq_some_iff.mp h).1, src, h, ha⟩

/-- The wait at a boundary: the one before it, or a new one that holds every accepted place
(spec/60_exceptions.md R177). -/
theorem State.waitHere_cases (s : State) :
    (s.waitHere = { places := s.acceptedPlaces, delay := Config.entryDelay s.wait.begun,
                    begun := s.wait.begun + 1 } ∧ ∀ i ∈ s.wait.places, i ∉ s.acceptedPlaces) ∨
    (s.waitHere.delay = s.wait.delay ∧ s.waitHere.begun = s.wait.begun ∧
      ∀ i, i ∈ s.waitHere.places ↔ i ∈ s.wait.places ∧ i ∈ s.acceptedPlaces) := by
  unfold State.waitHere
  split
  · next h => exact .inl ⟨rfl, by simpa using h⟩
  · next place places h =>
    refine .inr ⟨rfl, rfl, fun i => ?_⟩
    rw [← h]
    simp

/-- A picked source is one of the equal ones. -/
theorem pickSource_mem (first : IntSource) (others : List IntSource) (k : Nat) :
    pickSource first others k ∈ first :: others := by
  unfold pickSource
  split
  · simp
  · next other rest =>
    have hk : k % ((other :: rest).length + 1) < (first :: other :: rest).length :=
      Nat.mod_lt k (Nat.succ_pos _)
    rw [List.getD_eq_getElem?_getD, List.getElem?_eq_getElem hk]
    exact List.getElem_mem hk

/-- Each of the equal sources is picked by some count. -/
theorem exists_pickSource (first : IntSource) (others : List IntSource) (src : IntSource)
    (h : src ∈ first :: others) : ∃ k, pickSource first others k = src := by
  obtain ⟨k, hk, he⟩ := List.getElem_of_mem h
  refine ⟨k, ?_⟩
  unfold pickSource
  split
  · exact (List.mem_singleton.mp h).symm
  · next other rest =>
    have : k % ((other :: rest).length + 1) = k := Nat.mod_eq_of_lt hk
    rw [this, List.getD_eq_getElem?_getD, List.getElem?_eq_getElem hk]
    exact he

/-- What the choice at a boundary can answer: nothing to take; a deferral that uses up a choice or one of the
wait's delay; or one of the candidates, by a choice or at the end of the delay (spec/60_exceptions.md
R177). -/
theorem State.chooseInterrupt_cases (s : State) :
    (s.candidates = [] ∧ s.chooseInterrupt = (none, { s with wait := s.wait.over })) ∨
    (s.candidates ≠ [] ∧
      ((∃ rest, s.choices = .defer :: rest ∧
          s.chooseInterrupt = (none, { s with choices := rest, wait := s.waitHere })) ∨
        (∃ d, s.choices = [] ∧ s.waitHere.delay = d + 1 ∧
          s.chooseInterrupt = (none, { s with wait := { s.waitHere with delay := d } })))) ∨
    (∃ src ∈ s.candidates,
      (s.choices = [] ∧ s.waitHere.delay = 0 ∧
        s.chooseInterrupt = (some src, { s with wait := s.waitHere.over })) ∨
      ∃ k rest, s.choices = .take k :: rest ∧
        s.chooseInterrupt = (some src, { s with choices := rest, wait := s.waitHere.over })) := by
  unfold State.chooseInterrupt
  cases hc : s.candidates with
  | nil => exact .inl ⟨rfl, rfl⟩
  | cons first others =>
    right
    cases hch : s.choices with
    | nil =>
      cases hd : s.waitHere.delay with
      | zero => exact .inr ⟨_, pickSource_mem first others (Config.tieBreak s.waitHere.begun),
          .inl ⟨rfl, rfl, rfl⟩⟩
      | succ d => exact .inl ⟨by simp, .inr ⟨d, rfl, rfl, rfl⟩⟩
    | cons c rest =>
      cases c with
      | defer => exact .inl ⟨by simp, .inl ⟨rest, rfl, rfl⟩⟩
      | take k => exact .inr ⟨_, pickSource_mem first others k, .inr ⟨k, rest, rfl, rfl⟩⟩

/-- What a step that answers did: the entry of the chosen interrupt, or the instruction fetched
(spec/70_reset_and_hazards.md R209). -/
theorem step_next {s t : State} (h : step s = .next t) :
    s.runOver = false ∧
    ((∃ src u, s.environmentActs.chooseInterrupt = (some src, u) ∧ u.interruptEntry src = .ok t) ∨
     (∃ u i v, s.environmentActs.chooseInterrupt = (none, u) ∧ u.fetchInstr = .ok (i, v) ∧
       exec i v = .next t)) := by
  unfold step at h
  cases ho : s.runOver with
  | true => simp [ho] at h
  | false =>
    refine ⟨rfl, ?_⟩
    simp only [ho, Bool.false_eq_true, if_false] at h
    cases hc : s.environmentActs.chooseInterrupt with
    | mk chosen u =>
      simp only [hc] at h
      cases chosen with
      | some src => exact .inl ⟨src, u, rfl, finish_eq_next.mp h⟩
      | none =>
        right
        unfold State.runInstr at h
        cases hf : u.fetchInstr with
        | error e => simp [hf] at h
        | ok p => exact ⟨u, p.1, p.2, rfl, hf, by simpa only [hf] using h⟩

/-- What a boundary leaves as it was: the environment and the choice touch neither the PC nor memory nor a
parameter nor a register. -/
theorem State.boundary_frame {s u : State} {chosen : Option IntSource}
    (hc : s.environmentActs.chooseInterrupt = (chosen, u)) :
    u = { s with
      device := s.environmentActs.device, sources := s.environmentActs.sources,
      requestInputs := s.environmentActs.requestInputs, choices := u.choices, wait := u.wait } := by
  have h := s.environmentActs.chooseInterrupt_frame
  rw [hc] at h
  rw [s.environmentActs_frame] at h
  exact h

/-- A step at a boundary where an interrupt is chosen is what its entry answers. -/
theorem step_of_interrupt {s u : State} {src : IntSource} (ho : s.runOver = false)
    (hc : s.environmentActs.chooseInterrupt = (some src, u)) : step s = finish (u.interruptEntry src) := by
  simp [step, ho, hc]

/-- A step that takes no interrupt and fetches an instruction is that instruction. -/
theorem step_of_fetch {s u v : State} {i : Instr} (ho : s.runOver = false)
    (hc : s.environmentActs.chooseInterrupt = (none, u)) (hf : u.fetchInstr = .ok (i, v)) :
    step s = exec i v := by
  simp [step, ho, hc, State.runInstr, hf]

/-- A handler entry whose three accesses lie in memory (spec/60_exceptions.md R178). -/
theorem State.enterHandler_memory (s : State) (savedPc entry : Word) (level : Option (BitVec 3))
    (h1 : (alignWord (s.ssp - 2)).toNat < deviceBase)
    (h2 : (alignWord (s.ssp - 2 - 2)).toNat < deviceBase)
    (h3 : (alignWord entry).toNat < deviceBase) :
    ∃ s0 s1 s2 : State, s0 = s.enterSupervisor ∧
      s1 = { s0 with
              ssp := s.ssp - 2,
              mem := s.mem.writeWord (alignWord (s.ssp - 2)).toNat s.readPsr } ∧
      s2 = { s1 with
              ssp := s.ssp - 2 - 2,
              mem := s1.mem.writeWord (alignWord (s.ssp - 2 - 2)).toNat savedPc } ∧
      s.enterHandler savedPc level entry =
        .ok ((s2.setLevel level).setPc ((s2.setLevel level).wordAt entry)) := by
  refine ⟨_, _, _, rfl, rfl, rfl, ?_⟩
  have e1 := State.pushSupervisor_memory s.enterSupervisor s.readPsr h1
  have e2 := State.pushSupervisor_memory
    { s.enterSupervisor with
        ssp := s.ssp - 2,
        mem := s.mem.writeWord (alignWord (s.ssp - 2)).toNat s.readPsr } savedPc h2
  have e3 := fun u : State => u.loadWord_memory entry h3
  unfold State.enterHandler
  simp only [bind, Except.bind, pure, Except.pure, State.enterSupervisor_ssp, State.enterSupervisor_mem]
    at e1 e2 ⊢
  rw [e1]
  simp only
  rw [e2]
  simp only [e3]

end Sys2Proof.Machine
end

