-- ==== Sys2Proof/Tests/Slice0.lean ====
section
/-! SUPPORT. Tests by the spec's own vectors (spec/95_test_vectors.md), and for every statement with hypotheses a
state and operands that meet them. -/

namespace Sys2Proof.Tests

open Sys2Proof Sys2Proof.Machine

set_option maxRecDepth 20000

/-! ### Which terms are instructions -/

theorem test_jmp_r7_is_ill_formed : Instr.wellFormed (.jmp .r7) = false := by decide

theorem test_jmp_r6_is_well_formed : Instr.wellFormed (.jmp .r6) = true := by decide

/-! ### Decoding: words written out by spec/30_encoding.md R84, field by field -/

theorem test_decode_addReg : decode 0b0001_001_010_0_00_011 = .ok (.addReg .r1 .r2 .r3) := by decide
theorem test_decode_addImm : decode 0b0001_001_010_1_00011 = .ok (.addImm .r1 .r2 3) := by decide
theorem test_decode_andReg : decode 0b0101_010_011_0_00_100 = .ok (.andReg .r2 .r3 .r4) := by decide
theorem test_decode_andImm : decode 0b0101_001_010_1_10000 = .ok (.andImm .r1 .r2 (-16)) := by decide
theorem test_decode_br : decode 0b0000_100_000000101 = .ok (.br true false false 5) := by decide
theorem test_decode_ret : decode 0b1100_000_111_000000 = .ok .ret := by decide
theorem test_decode_jmp : decode 0b1100_000_110_000000 = .ok (.jmp .r6) := by decide
theorem test_decode_jsr : decode 0b0100_1_10000000000 = .ok (.jsr (-1024)) := by decide
theorem test_decode_jsrr : decode 0b0100_0_00_111_000000 = .ok (.jsrr .r7) := by decide
theorem test_decode_ldb : decode 0b0010_100_010_111011 = .ok (.ldb .r4 .r2 (-5)) := by decide
theorem test_decode_ldi : decode 0b1010_100_010_001010 = .ok (.ldi .r4 .r2 10) := by decide
theorem test_decode_ldr : decode 0b0110_001_010_000011 = .ok (.ldr .r1 .r2 3) := by decide
theorem test_decode_lea : decode 0b1110_001_100000000 = .ok (.lea .r1 (-256)) := by decide
theorem test_decode_not : decode 0b1001_001_010_111111 = .ok (.not .r1 .r2) := by decide
theorem test_decode_rti : decode 0b1000_000000000000 = .ok .rti := by decide
theorem test_decode_shf : decode 0b1101_001_010_1_0_0100 = .ok (.shf .r1 .r2 true false 4) := by decide
theorem test_decode_stb : decode 0b0011_001_010_000001 = .ok (.stb .r1 .r2 1) := by decide
theorem test_decode_sti : decode 0b1011_001_010_000000 = .ok (.sti .r1 .r2 0) := by decide
theorem test_decode_str : decode 0b0111_001_010_111111 = .ok (.str .r1 .r2 (-1)) := by decide
theorem test_decode_trap : decode 0b1111_0000_00100101 = .ok (.trap 0x25) := by decide

/-- The refused words of 95_test_vectors.md section 2.1, each by the row it violates. -/
theorem test_decode_refuses :
    ([0x1288, 0x1290, 0x5298, 0x92BE, 0x9280, 0xC081, 0xC280, 0x40C1, 0x42C0, 0x8001, 0xF125].map decode) =
      ["ADD", "ADD", "AND", "NOT", "NOT", "JMP", "JMP", "JSRR", "JSRR", "RTI", "TRAP"].map
        (fun row => .error (.reservedEncoding row)) := by decide

/-- The same section's words under `ignore_bits`. -/
theorem test_decode_ignoring_bits :
    ([0x1288, 0xC081, 0x8001, 0xF125, 0x92BE].map (decodeUnder .ignoreBits)) =
      [.ok (.addReg .r1 .r2 .r0), .ok (.jmp .r2), .ok .rti, .ok (.trap 0x25), .ok (.not .r1 .r2)] := by
  decide

theorem test_decodeTableWord : decodeTableWord 16 0xE007 = some (.lea .r0 7) ∧
    decodeTableWord 16 0x1288 = none := by decide

/-- R91's example on BR's page: LOOP at x3004 from x3008 is the offset -3. -/
theorem test_label_loop : labelField 9 0x3008 0x3004 = some (-3) := by decide

theorem test_asm_text :
    asmText (.br false true true (-3)) = "BRzp #-3" ∧ asmText (.br true true true 5) = "BR #5" ∧
    asmText (.trap 0x25) = "TRAP x25" ∧ asmText (.shf .r1 .r2 true false 4) = "SHF R1, R2, 1, 0, #4" ∧
    shiftAliasText (.shf .r1 .r2 true true 4) = some "RSHFA R1, R2, #4" := by
  decide

/-! ### One step of each instruction -/

/-- The next state of an answer, if it has one. -/
def nextOf : Result → Option State
  | .next t    => some t
  | .fault _   => none
  | .refused _ => none

/-- Some view of the state after one step that fetches the given word at the PC. -/
def after {α : Type} (w : Nat) (s : State) (view : State → α) : Option α :=
  (nextOf (step (s.withFetchWord 16 w))).map view

/-- The start state of a single-instruction vector: spec/95_test_vectors.md, Conventions. -/
def base : State := State.reset

/-- The same under `EXC_POLICY = vector`. -/
def vectoring : State := { base with config := { base.config with excPolicy := .vector } }

theorem test_add_wraps_into_sign :
    after 0x1283 { base with r2 := 0x7FFF, r3 := 0x0001 } (fun t => (t.r1, t.codes, t.pc)) =
      some (0x8000, (true, false, false), 0x3002) := by decide

theorem test_add_same_register : after 0x1241 { base with r1 := 0x8000 } (fun t => (t.r1, t.codes)) =
    some (0x0000, (false, true, false)) := by decide

theorem test_addImm_writes_usp_in_user_mode :
    after 0x1DBE { base with usp := 0x4000 } (fun t => (t.usp, t.ssp, t.psr)) =
      some (0x3FFE, 0x3000, 0x8001) := by decide

theorem test_addImm_writes_ssp_in_supervisor_mode :
    after 0x1DBE { base with usp := 0x4000, psr := 0x0002 } (fun t => (t.usp, t.ssp, t.psr)) =
      some (0x4000, 0x2FFE, 0x0001) := by decide

theorem test_and_register : after 0x54C4 { base with r3 := 0xF0F0, r4 := 0xFF00 }
    (fun t => (t.r2, t.codes)) = some (0xF000, (true, false, false)) := by decide

theorem test_and_immediate_extends : after 0x52B0 { base with r2 := 0x1234 }
    (fun t => (t.r1, t.codes)) = some (0x1230, (false, false, true)) := by decide

theorem test_not : after 0x92BF { base with r2 := 0x00FF } (fun t => (t.r1, t.codes)) =
    some (0xFF00, (true, false, false)) := by decide

theorem test_shf_arithmetic : after 0xD2B4 { base with r2 := 0xF0F0 } (fun t => (t.r1, t.codes)) =
    some (0xFF0F, (true, false, false)) := by decide

theorem test_shf_left_ignores_a : after 0xD2A4 { base with r2 := 0xF0F0 } (fun t => (t.r1, t.codes)) =
    some (0x0F00, (false, false, true)) := by decide

theorem test_br_taken_back : after 0x07FD { base with pc := 0x3008 } State.pc = some 0x3004 := by decide

theorem test_br_without_codes_falls_through : after 0x0E05 { base with psr := 0x8000 } State.pc =
    some 0x3002 := by decide

theorem test_jmp_drops_bit_0 : after 0xC080 { base with r2 := 0x4001 } (fun t => (t.pc, t.r2)) =
    some (0x4000, 0x4001) := by decide

theorem test_ret : after 0xC1C0 { base with r7 := 0x3007 } (fun t => (t.pc, t.r7)) =
    some (0x3006, 0x3007) := by decide

theorem test_jsr_backward : after 0x4C00 base (fun t => (t.pc, t.r7)) = some (0x2802, 0x3002) := by decide

theorem test_jsrr : after 0x40C0 { base with pc := 0x3010, r3 := 0x5001 } (fun t => (t.pc, t.r7)) =
    some (0x5000, 0x3012) := by decide

theorem test_jsrr_r7_falls_through : after 0x41C0 { base with pc := 0x3010, r7 := 0x5000 }
    (fun t => (t.pc, t.r7)) = some (0x3012, 0x3012) := by decide

theorem test_ldb_zero_extends : after 0x28BB { base with r2 := 0x4005, mem := [(0x4000, 0xC3)] }
    (fun t => (t.r4, t.codes)) = some (0x00C3, (false, false, true)) := by decide

theorem test_ldb_wraps : after 0x2281 { base with r2 := 0xFFFF, mem := [(0x0000, 0x5A)] }
    State.r1 = some 0x005A := by decide

theorem test_ldr_little_endian : after 0x6283
    { base with r2 := 0x4000, mem := [(0x4006, 0x34), (0x4007, 0x12)] } (fun t => (t.r1, t.codes)) =
      some (0x1234, (false, false, true)) := by decide

theorem test_ldr_odd_base : after 0x6280
    { base with r2 := 0x4001, mem := [(0x4000, 0xEF), (0x4001, 0xBE), (0x4002, 0x11)] }
    (fun t => (t.r1, t.codes)) = some (0xBEEF, (true, false, false)) := by decide

theorem test_ldi : after 0xA88A
    { base with r2 := 0x4000, mem := [(0x4014, 0x00), (0x4015, 0x50), (0x5000, 0x01), (0x5001, 0x80)] }
    (fun t => (t.r4, t.codes)) = some (0x8001, (true, false, false)) := by decide

theorem test_lea_of_device_address : after 0xE27F { base with pc := 0xFD00 } (fun t => (t.r1, t.codes)) =
    some (0xFE00, (true, false, false)) := by decide

theorem test_stb_low_byte : after 0x3281
    { base with r1 := 0xABCD, r2 := 0x4000, mem := [(0x4000, 0x22), (0x4001, 0x11)] }
    (fun t => (t.wordAt 0x4000, t.psr)) = some (0xCD22, 0x8002) := by decide

theorem test_str_odd_base : after 0x7280
    { base with r1 := 0xA55A, r2 := 0x4003, mem := [(0x4002, 0xFF), (0x4003, 0xFF), (0x4004, 0x77)] }
    (fun t => (t.byteAt 0x4002, t.byteAt 0x4003, t.byteAt 0x4004)) = some (0x5A, 0xA5, 0x77) := by decide

theorem test_sti_reads_pointer_first : after 0xB280
    { base with r1 := 0xBEEF, r2 := 0x4000, mem := [(0x4000, 0x01), (0x4001, 0x40)] }
    (fun t => t.wordAt 0x4000) = some 0xBEEF := by decide

theorem test_trap : after 0xF025 { base with pc := 0x3006, mem := [(0x004A, 0x00), (0x004B, 0x04)] }
    (fun t => (t.r7, t.pc, t.psr)) = some (0x3008, 0x0400, 0x8002) := by decide

theorem test_trap_entry_bit_0 : after 0xF000 { base with mem := [(0x0000, 0x01), (0x0001, 0x03)] }
    (fun t => (t.r7, t.pc)) = some (0x3002, 0x0300) := by decide

/-- The supervisor of the vectors of section 2.15. -/
def supervisor : State := { base with pc := 0x0400, psr := 0x0402, ssp := 0x2FFC, usp := 0xF000 }

theorem test_rti_to_user : after 0x8000
    { supervisor with mem := [(0x2FFC, 0x08), (0x2FFD, 0x30), (0x2FFE, 0x01), (0x2FFF, 0x80)] }
    (fun t => (t.pc, t.psr, t.ssp, t.usp, t.reg .r6)) =
      some (0x3008, 0x8001, 0x3000, 0xF000, 0xF000) := by decide

/-- RTI in User mode under the default `EXC_POLICY`: section 2.15, first row. -/
theorem test_rti_in_user_mode_faults :
    (match step (base.withFetchWord 16 0x8000) with
     | .fault f   => some f
     | .next _    => none
     | .refused _ => none) = some .privilegeModeViolation := by decide

theorem test_rti_masks_psr_and_pc : after 0x8000
    { supervisor with ssp := 0x2FF8,
                      mem := [(0x2FF8, 0x55), (0x2FF9, 0x04), (0x2FFA, 0xFD), (0x2FFB, 0x7A)] }
    (fun t => (t.pc, t.psr, t.ssp)) = some (0x0454, 0x0205, 0x2FFC) := by decide

/-! ### Interrupt entry: section 2.16 -/

/-- The interrupted user of the first vector, at the end of its wait, with a word x0000 at its PC. -/
def interrupted : State :=
  { base with pc := 0x3008, psr := 0x8001, usp := 0xFDF0,
              mem := [(0x0120, 0x00), (0x0121, 0x12), (0x3008, 0x00), (0x3009, 0x00)],
              sources := [{ pl := 4, vector := 0x10, request := true }],
              wait := { places := [0], delay := 0, begun := 1 } }

/-- The same with one boundary of the wait's delay left. -/
def delayed : State := { interrupted with wait := { places := [0], delay := 1, begun := 1 } }

theorem test_interrupt_entry : after 0x0000 interrupted
    (fun t => (t.wordAt 0x2FFE, t.wordAt 0x2FFC, t.ssp, t.usp, t.psr, t.pc)) =
      some (0x8001, 0x3008, 0x2FFC, 0xFDF0, 0x0401, 0x1200) := by decide

theorem test_interrupt_needs_a_higher_priority :
    after 0x0000 { interrupted with psr := 0x0404, pc := 0x1204 } State.pc = some 0x1206 := by decide

/-- A deferred interrupt lets the next instruction run first (spec/60_exceptions.md R177). -/
theorem test_interrupt_deferred :
    after 0x0000 { interrupted with choices := [.defer] } (fun t => (t.pc, t.choices)) =
      some (0x300A, []) := by decide

/-- So does one whose wait has some of its delay left. -/
theorem test_interrupt_delayed :
    after 0x0000 delayed (fun t => (t.pc, t.wait)) =
      some (0x300A, { places := [0], delay := 0, begun := 1 }) := by decide

/-! ### The host's names and the launch -/

theorem test_reset_is_the_conventional_launch : Launch.conventional.start = State.reset := by decide

theorem test_withFetchWord_runs_first : after 0xE007 base (fun t => (t.r0, t.pc)) =
    some (0x3010, 0x3002) := by decide

/-! ### The hypotheses of every statement can be met -/

theorem witness_EncodeOfDecode : decode 0xC1C0 = .ok .ret := by decide

theorem witness_DecodeOfEncode : Instr.wellFormed (.shf .r7 .r0 true true 15) = true := by decide

theorem witness_IgnoreBitsExtendsTheDecoder : decodeUnder .refuse 0xF0FF = .ok (.trap 0xFF) := by decide

/-- Words of spec/95_test_vectors.md section 2.1 under `ignore_bits`, and x42C0, whose mode bit selects JSRR. -/
theorem test_ignore_bits_reads_the_named_fields :
    decodeUnder .ignoreBits 0x1288 = .ok (.addReg .r1 .r2 .r0) ∧ withFixedBits 0x1288 = 0x1280 ∧
    decodeUnder .ignoreBits 0xF125 = .ok (.trap 0x25) ∧ withFixedBits 0xF125 = 0xF025 ∧
    decodeUnder .ignoreBits 0x42C0 = .ok (.jsrr .r3) ∧ withFixedBits 0x42C0 = 0x40C0 ∧
    decodeUnder .ignoreBits 0x92BE = .ok (.not .r1 .r2) ∧ withFixedBits 0x92BE = 0x92BF := by decide

/-- The least and the greatest distance of either field, and the ones past them, which have none. -/
theorem witness_LabelFieldReachesTheLabel :
    labelField 9 0x3000 0x2E02 = some (-256) ∧ labelField 9 0x3000 0x3200 = some 255 ∧
    labelField 9 0x3000 0x2E00 = none ∧ labelField 9 0x3000 0x3202 = none ∧
    labelField 11 0x3000 0x2802 = some (-1024) ∧ labelField 11 0x3000 0x3800 = some 1023 ∧
    labelField 11 0x3000 0x2800 = none ∧ labelField 11 0x3000 0x3802 = none ∧
    labelField 9 0x3000 0x3005 = none := by decide

theorem witness_BrWithoutCodesIsANoOp : (0x01FF : Word).toNat ≤ 0x01FF := by decide

theorem witness_JmpAndRetLoadThePc : Reg.r6 ≠ Reg.r7 := by decide

/-- The last memory address, for a byte and for a word. -/
def edge : State := { base with r2 := 0xFDFF, r3 := 0xFDFE, mem := [(0xFDFE, 0xFE), (0xFDFF, 0xFD)] }

theorem witness_LdbLoadsAByteZeroExtended : inMemory (edge.eaByte .r2 0) := by decide

theorem witness_LdrLoadsAWord : inMemory (edge.eaWord .r2 0 &&& 0xFFFE) := by decide

theorem witness_LdiLoadsAWordIndirect : inMemory (edge.eaWord .r3 0 &&& 0xFFFE) ∧
    inMemory (edge.wordAt (edge.eaWord .r3 0) &&& 0xFFFE) := by decide

theorem witness_StbStoresTheLowByte : inMemory (edge.eaByte .r3 1) := by decide

theorem witness_StrStoresAWord : inMemory (edge.eaWord .r3 0 &&& 0xFFFE) := by decide

theorem witness_StiStoresAWordIndirect : inMemory (edge.eaWord .r2 0 &&& 0xFFFE) ∧
    inMemory (edge.wordAt (edge.eaWord .r2 0) &&& 0xFFFE) := by decide

theorem witness_RtiPopsPcAndPsr : ({ base with psr := 0x0002, ssp := 0xFDFC } : State).userMode = false ∧
    popsInMemory { base with psr := 0x0002, ssp := 0xFDFC } := by decide

theorem witness_RtiInUserModeFaults : base.userMode = true ∧ base.config.excPolicy = .fault := by
  decide

theorem witness_RtiInUserModeEntersItsHandler :
    vectoring.userMode = true ∧ vectoring.config.excPolicy = .vector ∧
    entryInMemory vectoring (vectorAddr vectoring.config.excVectors 0x00) := by decide

/-- The least and the greatest SSP whose two pushes lie in memory. -/
theorem witness_InterruptEntrySavesAndVectors :
    entryInMemory { interrupted with ssp := 0x0004 } (vectorAddr interrupted.config.intVectors 0x10) ∧
    entryInMemory { interrupted with ssp := 0xFE01 } (vectorAddr interrupted.config.intVectors 0xFF) := by
  decide

/-- A vector listed after another one, and one that is not listed. -/
theorem witness_VectorEntryAddresses :
    (∀ e ∈ [((0x01 : BitVec 8), (0x4000 : Word))], e.1 ≠ 0xFF) ∧
    vectorAddr [(0x01, 0x4000), (0xFF, 0x5000)] 0xFF = 0x5000 ∧
    vectorAddr [(0x01, 0x4000)] 0xFF = 0x02FE := by
  refine ⟨fun e he => ?_, rfl, rfl⟩
  rw [List.mem_singleton.mp he]
  decide

theorem witness_AcceptanceComparesPriorities :
    ({ interrupted with psr := 0x0702 } : State).priority = 7 ∧
    interrupted.chooseInterrupt =
      (some { pl := 4, vector := 0x10, request := true }, { interrupted with wait := interrupted.wait.over }) := by
  decide

/-- Two equal sources above a lower one. -/
def contested : State :=
  { interrupted with sources := [{ pl := 2, vector := 1, request := true },
                                 { pl := 4, vector := 2, request := true },
                                 { pl := 4, vector := 3, request := true }],
                     choices := [.take 1] }

theorem witness_TakenInterruptIsOfHighestPriority :
    contested.chooseInterrupt = (some { pl := 4, vector := 3, request := true },
      { contested with choices := [], wait := contested.waitHere.over }) := by decide

/-- The last of the two equal sources meets every premise. -/
theorem witness_EveryHighestRequestCanBeTaken :
    (let src : IntSource := { pl := 4, vector := 3, request := true }
     src ∈ contested.sources ∧ src.request = true ∧ contested.priority.toNat < src.pl.toNat ∧
     ∀ other ∈ contested.sources, other.request = true → contested.priority.toNat < other.pl.toNat →
       other.pl.toNat ≤ src.pl.toNat) := by decide

/-- Past the end of the list: a wait with some of its delay left, one at its end, and one whose request was
not accepted any more. -/
theorem witness_EveryHighestRequestCanBeTaken_wait :
    delayed.choices = [] ∧ delayed.waitHere.delay = 0 + 1 ∧ interrupted.choices = [] ∧
    interrupted.waitHere.delay = 0 ∧ 0 ∈ delayed.acceptedPlaces ∧
    ({ delayed with psr := 0x0701 } : State).acceptedPlaces = [] := by decide

/-- The states of the run from a state, as long as its steps answer. -/
def runFrom (s : State) : Nat → State
  | 0     => s
  | n + 1 => (nextOf (step (runFrom s n))).getD (runFrom s n)

theorem runFrom_step (s : State) (n : Nat) (h : (nextOf (step (runFrom s n))).isSome = true) :
    step (runFrom s n) = .next (runFrom s (n + 1)) := by
  show step (runFrom s n) = .next ((nextOf (step (runFrom s n))).getD (runFrom s n))
  cases hs : step (runFrom s n) with
  | next t    => rfl
  | fault f   => rw [hs] at h; cases h
  | refused e => rw [hs] at h; cases h

theorem requestAt_delayed (s : State) (h : s.environmentActs.sources[0]? =
    some { pl := 4, vector := 0x10, request := true })
    (hp : s.environmentActs.priority.toNat < 4) : RequestAt s.environmentActs 0 :=
  ⟨_, h, List.mem_of_getElem? h, rfl, hp⟩

/-- The single steps: one that defers, and one at the end of the bound. -/
theorem witness_AcceptedRequestIsEventuallyTaken_step :
    (nextOf (step delayed)).isSome = true ∧ RequestAt delayed.environmentActs 0 ∧
    (nextOf (step interrupted)).isSome = true ∧ RequestAt interrupted.environmentActs 0 ∧
    entryBound interrupted 0 = 0 :=
  ⟨by decide, requestAt_delayed _ rfl (by decide), by decide, requestAt_delayed _ rfl (by decide), rfl⟩

/-- The run: a boundary that the delay lets pass and the entry, within the bound. -/
theorem witness_AcceptedRequestIsEventuallyTaken_run :
    entryBound (runFrom delayed 0) 0 = 1 ∧
    (∀ n, n ≤ 1 → step (runFrom delayed n) = .next (runFrom delayed (n + 1))) ∧
    (runFrom delayed 2).pc = 0x1200 := by
  refine ⟨rfl, fun n hn => runFrom_step _ _ ?_, by decide⟩
  interval_cases n <;> decide

/-- A handler's state that came back to its own SSP, having changed a register, the codes and memory. -/
def handlerDone : Option State :=
  match interrupted.interruptEntry { pl := 4, vector := 0x10, request := true } with
  | .ok t    => some { t with r0 := 0x1234, psr := 0x0404, mem := t.mem.write 0x5000 0x77 }
  | .error _ => none

theorem witness_RtiUndoesInterruptEntry : interrupted.legal = true ∧
    entryInMemory interrupted (vectorAddr interrupted.config.intVectors 0x10) ∧
    ∃ t h, interrupted.interruptEntry { pl := 4, vector := 0x10, request := true } = .ok t ∧
      handlerDone = some h ∧ h.userMode = false ∧ h.ssp = t.ssp ∧ h.wordAt h.ssp = t.wordAt t.ssp ∧
      h.wordAt (h.ssp + 2) = t.wordAt (t.ssp + 2) := by
  refine ⟨by decide, by decide, _, _, rfl, rfl, by decide, by decide, by decide, by decide⟩

theorem witness_StoresReadBack : inMemory (0xFDFF : Word) ∧ inMemory ((0xFDFF : Word) &&& 0xFFFE) := by decide

/-- R2 at the first device address, R4 at a pointer to it. -/
def atDevice : State :=
  { base with r2 := 0xFE00, r4 := 0x4000, mem := [(0x4000, 0x00), (0x4001, 0xFE)] }

theorem witness_DeviceRefuseStopsTheAccess_data : atDevice.device = .refuse ∧
    ¬ inMemory (atDevice.eaByte .r2 0) ∧ ¬ inMemory (atDevice.eaWord .r2 0 &&& 0xFFFE) ∧
    ¬ inMemory (atDevice.wordAt (atDevice.eaWord .r4 0) &&& 0xFFFE) ∧
    inMemory (atDevice.eaWord .r4 0 &&& 0xFFFE) := by decide

theorem witness_DeviceRefuseStopsTheAccess_return :
    ({ base with psr := 0x0002, ssp := 0xFDFE } : State).userMode = false ∧
    ¬ popsInMemory { base with psr := 0x0002, ssp := 0xFDFE } := by decide

theorem witness_DeviceRefuseStopsTheAccess_entry :
    ({ vectoring with ssp := 0x0002 } : State).userMode = true ∧ vectoring.config.excPolicy = .vector ∧
    ¬ entryInMemory { vectoring with ssp := 0x0002 } (vectorAddr vectoring.config.excVectors 0x00) ∧
    ¬ entryInMemory { base with ssp := 0xFE02 } (vectorAddr base.config.intVectors 0x10) := by decide

theorem witness_AttachedDeviceAnswersAccesses :
    ({ atDevice with device := .attached 5 } : State).device = .attached 5 ∧
    ¬ inMemory (({ atDevice with device := .attached 5 } : State).eaByte .r2 0) ∧
    ¬ inMemory (({ atDevice with device := .attached 5 } : State).eaWord .r2 1 &&& 0xFFFE) := by decide

theorem witness_StackAccessesRunInOrder : supervisor.userMode = false ∧ vectoring.userMode = true ∧
    vectoring.config.excPolicy = .vector := by decide

/-- A program of one STR that overwrites the next instruction, a word x0000, with `LEA R0, #7`. -/
def rewriting : State :=
  ({ base with r1 := 0xE007, r2 := 0x3002, mem := [(0x3002, 0x00), (0x3003, 0x00)] } : State).withFetchWord 16 0x7280

theorem witness_StepRunsTheDecodedInstruction : rewriting.config.haltPcs.contains rewriting.pc = false ∧
    rewriting.environmentActs.chooseInterrupt = (none, rewriting) ∧ inMemory (rewriting.pc &&& 0xFFFE) ∧
    decodeUnder rewriting.config.reservedPolicy (rewriting.wordAt rewriting.pc) =
      .ok (.str .r1 .r2 0) := by decide

/-- The first device address with a device attached. -/
theorem witness_StepRunsTheDecodedInstruction_device :
    (let s := { base with pc := 0xFE00, device := .attached 5 }
     s.config.haltPcs.contains s.pc = false ∧
     s.environmentActs.chooseInterrupt = (none, s.environmentActs) ∧
     ¬ inMemory (s.environmentActs.pc &&& 0xFFFE) ∧
     s.environmentActs.device = .attached (Config.deviceTick 5)) :=
  ⟨by decide, rfl, by decide, rfl⟩

theorem witness_QuietBoundaryChangesNothing : rewriting.config.haltPcs.contains rewriting.pc = false ∧
    rewriting.device = .refuse ∧ rewriting.sources = [] ∧ rewriting.requestInputs = [] ∧
    inMemory (rewriting.pc &&& 0xFFFE) ∧
    decodeUnder rewriting.config.reservedPolicy (rewriting.wordAt rewriting.pc) =
      .ok (.str .r1 .r2 0) := by decide

/-- The request of the first vector of section 2.16, raised by the environment at this boundary. -/
theorem witness_StepEntersTheChosenInterrupt :
    (let s := { interrupted with sources := [{ pl := 4, vector := 0x10, request := false }],
                                 requestInputs := [[true]] }
     s.config.haltPcs.contains s.pc = false ∧
     s.environmentActs.chooseInterrupt =
       (some { pl := 4, vector := 0x10, request := true },
         { interrupted with wait := interrupted.wait.over }) ∧
     entryInMemory interrupted (vectorAddr interrupted.config.intVectors 0x10)) := by decide

/-- The stack of the entry lies among the device addresses. -/
theorem witness_StepEntersTheChosenInterrupt_refused :
    (let s := { interrupted with ssp := 0x0000 }
     let u := { s with wait := s.wait.over }
     s.config.haltPcs.contains s.pc = false ∧
     s.environmentActs.chooseInterrupt = (some { pl := 4, vector := 0x10, request := true }, u) ∧
     u.interruptEntry { pl := 4, vector := 0x10, request := true } = .error .deviceAccess) := by decide

theorem witness_StepRefusals_over :
    base.config.haltPcs.contains ({ base with pc := 0x0000 } : State).pc = true := by decide

theorem witness_StepRefusals_word :
    (let s := base.withFetchWord 16 0x8001
     s.config.haltPcs.contains s.pc = false ∧ s.environmentActs.chooseInterrupt = (none, s) ∧
     inMemory (s.pc &&& 0xFFFE) ∧ s.config.reservedPolicy = .refuse ∧
     fixedFieldViolation (s.wordAt s.pc) = true) := by decide

theorem witness_StepRefusals_device :
    (let s := { base with pc := 0xFE00 }
     s.config.haltPcs.contains s.pc = false ∧ s.environmentActs.chooseInterrupt = (none, s) ∧
     ¬ inMemory (s.pc &&& 0xFFFE) ∧ s.device = .refuse) := by decide

/-- STR at its own address plus 2, and STB there and at the byte above. -/
theorem witness_StoreIsSeenByTheNextFetch :
    (0x3002 : Word) = (rewriting.pc + 2) &&& 0xFFFE ∧ inMemory 0x3002 ∧
    rewriting.config.haltPcs.contains 0x3002 = false ∧
    rewriting.eaWord .r2 0 &&& 0xFFFE = 0x3002 ∧
    decodeUnder rewriting.config.reservedPolicy (rewriting.reg .r1) = .ok (.lea .r0 7) ∧
    rewriting.eaByte .r2 0 = 0x3002 ∧
    decodeUnder rewriting.config.reservedPolicy
      (rewriting.byteAt 0x3003 ++ (rewriting.reg .r1).extractLsb' 0 8) =
        .ok (.br false false false 7) ∧
    rewriting.eaByte .r2 1 = 0x3003 ∧
    decodeUnder rewriting.config.reservedPolicy
      ((rewriting.reg .r1).extractLsb' 0 8 ++ rewriting.byteAt 0x3002) =
        .ok (.br false true true 0x100) := by decide

/-- STI through a word at x4000 that points at the next instruction. -/
theorem witness_StoreIsSeenByTheNextFetch_sti :
    (let s := { base with r1 := 0xE007, r2 := 0x4000, mem := [(0x4000, 0x02), (0x4001, 0x30)] }
     s.loadWord (s.eaWord .r2 0) = .ok (0x3002, s) ∧ (0x3002 : Word) &&& 0xFFFE = (s.pc + 2) &&& 0xFFFE ∧
     s.config.haltPcs.contains 0x3002 = false ∧
     decodeUnder s.config.reservedPolicy (s.reg .r1) = .ok (.lea .r0 7)) := by decide

/-- A boundary with a source whose request is not accepted: no interrupt is taken, so the next instruction
runs. -/
theorem witness_StoreIsSeenByTheNextFetch_boundary :
    (let s := { rewriting with sources := [{ pl := 0, vector := 0x10, request := true }] }
     s.environmentActs.chooseInterrupt = (none, s)) := by decide

theorem witness_StepKeepsTheStateLegal : rewriting.legal = true ∧
    (nextOf (step rewriting)).isSome = true := by decide

theorem witness_LaunchStateIsLegal :
    ({ Launch.conventional with mem := [(0x3000, 0x07), (0x3001, 0xE0), (0xFDFF, 0x01)],
                                sources := [{ pl := 7, vector := 0x7F, request := false }] } :
      Launch).wellFormed = true := by decide

/-- An image that gives an address twice: the later byte stands, at the last memory address too, and an
address it does not give reads as a free value. -/
theorem witness_LaunchStateIsLegal_image :
    (let l := { Launch.conventional with mem := [(0x3000, 0x07), (0xFDFF, 0x01), (0x3000, 0x09)] }
     l.mem = [(0x3000, 0x07), (0xFDFF, 0x01)] ++ ((0x3000 : Word).toNat, 0x09) :: [] ∧
     l.start.byteAt 0x3000 = 0x09 ∧ l.start.byteAt 0xFDFF = 0x01 ∧
     (∀ cell ∈ l.mem, cell.1 ≠ (0x0000 : Word).toNat) ∧ l.start.byteAt 0x0000 = Config.unwrittenByte 0) :=
  ⟨rfl, rfl, rfl, by decide, rfl⟩

theorem witness_ConditionCodeWriters :
    (nextOf (exec (.lea .r6 7) base)).isSome = true ∧ resultReg (.lea .r6 7) = some .r6 ∧
    (nextOf (exec (.trap 0) base)).isSome = true ∧ resultReg (.trap 0) = none := by decide

theorem witness_InstructionsWriteOnlyTheirTargets :
    (nextOf (exec (.sti .r1 .r2 0) edge)).isSome = true ∧ (nextOf (exec .rti vectoring)).isSome = true := by
  decide

theorem witness_ParametersStayFixed : (nextOf (step contested)).isSome = true ∧
    (nextOf (exec .ret contested)).isSome = true := by decide

theorem witness_OnlyRtiInUserModeFaults :
    (match exec (.ldb .r1 .r2 0) atDevice with
     | .refused e => e = .deviceAccess
     | _          => False) := rfl

theorem witness_OnlyRtiChangesModeOrPriority : Instr.ret ≠ .rti ∧
    (nextOf (exec .ret base)).isSome = true := by decide

/-- Into Supervisor mode by an interrupt entry and by RTI's exception entry. -/
theorem witness_ModeChangesOnlyAtEntriesAndRti_in :
    interrupted.userMode = true ∧ (nextOf (step interrupted)).map State.userMode = some false ∧
    vectoring.userMode = true ∧ after 0x8000 vectoring State.userMode = some false := by decide

/-- Out of it by the RTI of `test_rti_to_user`. -/
theorem witness_ModeChangesOnlyAtEntriesAndRti_out : supervisor.userMode = false ∧
    after 0x8000 { supervisor with mem := [(0x2FFE, 0x00), (0x2FFF, 0x80)] } State.userMode = some true := by decide

theorem witness_UserModeCannotReachSsp : base.userMode = true ∧ Instr.str .r6 .r6 0 ≠ .rti ∧
    (nextOf (exec (.str .r6 .r6 0) edge)).isSome = true := by decide

/-- RTI under the default `EXC_POLICY` meets the premise too. -/
theorem witness_UserModeCannotReachSsp_rti : base.userMode = true ∧ base.config.excPolicy = .fault := by
  decide

/-- An attached device, an input list shorter than the sources, and neither. -/
theorem witness_EnvironmentDrivesRequestLines :
    ({ contested with device := .attached 5 } : State).device = .attached 5 ∧
    contested.device = .refuse ∧
    (({ contested with requestInputs := [[false, false]] } : State).environmentActs.sources.map
      IntSource.request) = [false, false, true] ∧ contested.requestInputs = [] := by decide

theorem witness_SupervisorModeCannotReachUsp : supervisor.userMode = false ∧
    (nextOf (exec .rti supervisor)).isSome = true := by decide

end Sys2Proof.Tests
end

section
/-! SUPPORT. What an instruction that answers did: the accesses of each instruction that reaches memory, in
their order. -/

namespace Sys2Proof.Machine

theorem bind_eq_ok {ε α β : Type} {x : Except ε α} {f : α → Except ε β} {b : β} :
    x >>= f = .ok b ↔ ∃ a, x = .ok a ∧ f a = .ok b := by
  cases x <;> simp [bind, Except.bind]

theorem pure_eq_ok {ε α : Type} {a b : α} : (pure a : Except ε α) = .ok b ↔ b = a := by
  simp [pure, Except.pure, eq_comm]

theorem execLdb_eq_next {dr base : Reg} {off : BitVec 6} {s t : State} :
    execLdb dr base off s = .next t ↔
      ∃ b s1, s.loadByte (s.eaByte base off) = .ok (b, s1) ∧ t = s1.loadResult dr (zext16 b) := by
  simp only [execLdb, finish_eq_next, bind_eq_ok, pure_eq_ok, Prod.exists]

theorem execLdi_eq_next {dr base : Reg} {off : BitVec 6} {s t : State} :
    execLdi dr base off s = .next t ↔
      ∃ p s1, s.loadWord (s.eaWord base off) = .ok (p, s1) ∧
        ∃ v s2, s1.loadWord p = .ok (v, s2) ∧ t = s2.loadResult dr v := by
  simp only [execLdi, finish_eq_next, bind_eq_ok, pure_eq_ok, Prod.exists]

theorem execLdr_eq_next {dr base : Reg} {off : BitVec 6} {s t : State} :
    execLdr dr base off s = .next t ↔
      ∃ v s1, s.loadWord (s.eaWord base off) = .ok (v, s1) ∧ t = s1.loadResult dr v := by
  simp only [execLdr, finish_eq_next, bind_eq_ok, pure_eq_ok, Prod.exists]

theorem execStb_eq_next {sr base : Reg} {off : BitVec 6} {s t : State} :
    execStb sr base off s = .next t ↔
      ∃ s1, s.storeByte (s.eaByte base off) ((s.reg sr).extractLsb' 0 8) = .ok s1 ∧ t = s1.advance := by
  simp only [execStb, finish_eq_next, bind_eq_ok, pure_eq_ok]

theorem execSti_eq_next {sr base : Reg} {off : BitVec 6} {s t : State} :
    execSti sr base off s = .next t ↔
      ∃ p s1, s.loadWord (s.eaWord base off) = .ok (p, s1) ∧
        ∃ s2, s1.storeWord p (s.reg sr) = .ok s2 ∧ t = s2.advance := by
  simp only [execSti, finish_eq_next, bind_eq_ok, pure_eq_ok, Prod.exists]

theorem execStr_eq_next {sr base : Reg} {off : BitVec 6} {s t : State} :
    execStr sr base off s = .next t ↔
      ∃ s1, s.storeWord (s.eaWord base off) (s.reg sr) = .ok s1 ∧ t = s1.advance := by
  simp only [execStr, finish_eq_next, bind_eq_ok, pure_eq_ok]

theorem execTrap_eq_next {trapvect8 : BitVec 8} {s t : State} :
    execTrap trapvect8 s = .next t ↔
      ∃ v s1, (s.setReg .r7 s.pcInc).loadWord (trapEntry trapvect8) = .ok (v, s1) ∧ t = s1.setPc v := by
  simp only [execTrap, finish_eq_next, bind_eq_ok, pure_eq_ok, Prod.exists]

/-- RTI answers with a state by its return in Supervisor mode, or by its exception's handler entry in User
mode under `EXC_POLICY = vector` (spec/44_system.md R161; spec/60_exceptions.md R172). -/
theorem execRti_eq_next {s t : State} :
    execRti s = .next t ↔
      (s.userMode = false ∧ s.returnFromHandler = .ok t) ∨
      (s.userMode = true ∧ s.config.excPolicy = .vector ∧
        s.enterHandler s.pcInc none
          (vectorAddr s.config.excVectors privilegeModeViolationCode) = .ok t) := by
  unfold execRti State.raisePrivilegeModeViolation
  cases s.userMode with
  | false => simp [finish_eq_next]
  | true  => cases s.config.excPolicy <;> simp [finish_eq_next]

/-- BR ends in a write of the PC, whether it is taken or not (spec/41_control.md R130). -/
theorem execBr_eq_setPc (n z p : Bool) (off : BitVec 9) (s : State) :
    ∃ a, execBr n z p off s = .next (s.setPc a) := by
  unfold execBr
  split
  · exact ⟨_, rfl⟩
  · exact ⟨_, rfl⟩

end Sys2Proof.Machine
end

section
/-! SUPPORT. What outside the processor and its memory an instruction can change: the state of an attached
device, and nothing else. -/

namespace Sys2Proof.Machine

/-- Everything outside the processor and its memory is as before, but for the state of an attached device:
`SameOutside` with a device that may have answered accesses. -/
structure SameOutsideButDevice (s t : State) : Prop where
  device        : t.device = .refuse ↔ s.device = .refuse
  sources       : t.sources = s.sources
  requestInputs : t.requestInputs = s.requestInputs
  choices       : t.choices = s.choices
  wait          : t.wait = s.wait
  config        : t.config = s.config

theorem SameOutside.butDevice {s t : State} (h : SameOutside s t) : SameOutsideButDevice s t :=
  ⟨by rw [h.device], h.sources, h.requestInputs, h.choices, h.wait, h.config⟩

theorem SameOutsideButDevice.trans {s t u : State} (h₁ : SameOutsideButDevice s t)
    (h₂ : SameOutsideButDevice t u) : SameOutsideButDevice s u where
  device        := h₂.device.trans h₁.device
  sources       := h₂.sources.trans h₁.sources
  requestInputs := h₂.requestInputs.trans h₁.requestInputs
  choices       := h₂.choices.trans h₁.choices
  wait          := h₂.wait.trans h₁.wait
  config        := h₂.config.trans h₁.config

/-! ### Updates of the state that reach nothing outside -/

theorem State.setPc_outside (s : State) (a : Word) : SameOutside s (s.setPc a) := (s.setPc_frame a).outside

theorem State.advance_outside (s : State) : SameOutside s s.advance := s.setPc_outside s.pcInc

theorem State.setReg_outside (s : State) (r : Reg) (v : Word) : SameOutside s (s.setReg r v) :=
  ⟨by simp, by simp, by simp, by simp, by simp, by simp⟩

theorem State.loadResult_outside (s : State) (dr : Reg) (v : Word) : SameOutside s (s.loadResult dr v) :=
  (s.loadResult_writesResult dr v).outside

theorem State.enterSupervisor_outside (s : State) : SameOutside s s.enterSupervisor :=
  ⟨rfl, rfl, rfl, rfl, rfl, rfl⟩

theorem State.setLevel_outside (s : State) (level : Option (BitVec 3)) :
    SameOutside s (s.setLevel level) :=
  ⟨by simp, by simp, by simp, by simp, by simp, by simp⟩

theorem State.writePsr_outside (s : State) (v : Word) : SameOutside s (s.writePsr v) :=
  ⟨rfl, rfl, rfl, rfl, rfl, rfl⟩

/-! ### Accesses: an attached device may change its state and stays attached (spec/20_memory.md R62) -/

/-- What an access that a device answers leaves: the device is still attached. -/
theorem SameOutsideButDevice.of_attached {s : State} {c c' : Nat} (hd : s.device = .attached c) :
    SameOutsideButDevice s { s with device := .attached c' } :=
  ⟨by simp [hd], rfl, rfl, rfl, rfl, rfl⟩

theorem State.loadByte_outside {s t : State} {a : Word} {b : Byte} (h : s.loadByte a = .ok (b, t)) :
    SameOutsideButDevice s t := by
  unfold State.loadByte at h
  repeat' split at h
  all_goals cases h
  · next hd _ _ _ => exact .of_attached hd
  · exact (SameOutside.refl s).butDevice

theorem State.loadWord_outside {s t : State} {a v : Word} (h : s.loadWord a = .ok (v, t)) :
    SameOutsideButDevice s t := by
  unfold State.loadWord at h
  repeat' split at h
  all_goals cases h
  · next hd _ _ _ => exact .of_attached hd
  · exact (SameOutside.refl s).butDevice

theorem State.storeByte_outside {s t : State} {a : Word} {b : Byte} (h : s.storeByte a b = .ok t) :
    SameOutsideButDevice s t := by
  unfold State.storeByte at h
  repeat' split at h
  all_goals cases h
  · next hd _ _ _ => exact .of_attached hd
  · exact SameOutside.butDevice ⟨rfl, rfl, rfl, rfl, rfl, rfl⟩

theorem State.storeWord_outside {s t : State} {a v : Word} (h : s.storeWord a v = .ok t) :
    SameOutsideButDevice s t := by
  unfold State.storeWord at h
  repeat' split at h
  all_goals cases h
  · next hd _ _ _ => exact .of_attached hd
  · exact SameOutside.butDevice ⟨rfl, rfl, rfl, rfl, rfl, rfl⟩

theorem State.pushSupervisor_outside {s t : State} {v : Word} (h : s.pushSupervisor v = .ok t) :
    SameOutsideButDevice s t :=
  have moved : SameOutside s { s with ssp := s.ssp - 2 } := ⟨rfl, rfl, rfl, rfl, rfl, rfl⟩
  moved.butDevice.trans (State.storeWord_outside h)

theorem State.popSupervisor_outside {s t : State} {v : Word} (h : s.popSupervisor = .ok (v, t)) :
    SameOutsideButDevice s t := by
  simp only [State.popSupervisor, bind_eq_ok, pure_eq_ok, Prod.exists, Prod.mk.injEq] at h
  obtain ⟨w, u, hload, rfl, rfl⟩ := h
  have moved : SameOutside u { u with ssp := u.ssp + 2 } := ⟨rfl, rfl, rfl, rfl, rfl, rfl⟩
  exact (State.loadWord_outside hload).trans moved.butDevice

theorem State.enterHandler_outside {s t : State} {savedPc entry : Word} {level : Option (BitVec 3)}
    (h : s.enterHandler savedPc level entry = .ok t) : SameOutsideButDevice s t := by
  obtain ⟨s1, s2, s3, v, hpushPsr, hpushPc, hload, rfl⟩ := State.enterHandler_ok h
  exact s.enterSupervisor_outside.butDevice
    |>.trans (State.pushSupervisor_outside hpushPsr)
    |>.trans (State.pushSupervisor_outside hpushPc)
    |>.trans (s2.setLevel_outside level).butDevice
    |>.trans (State.loadWord_outside hload)
    |>.trans (s3.setPc_outside v).butDevice

theorem State.returnFromHandler_outside {s t : State} (h : s.returnFromHandler = .ok t) :
    SameOutsideButDevice s t := by
  obtain ⟨tPc, s1, tPsr, s2, hpopPc, hpopPsr, rfl⟩ := State.returnFromHandler_ok h
  exact (State.popSupervisor_outside hpopPc)
    |>.trans (State.popSupervisor_outside hpopPsr)
    |>.trans (s2.writePsr_outside tPsr).butDevice
    |>.trans ((s2.writePsr tPsr).setPc_outside tPc).butDevice

theorem State.fetchInstr_outside {s t : State} {i : Instr} (h : s.fetchInstr = .ok (i, t)) :
    SameOutsideButDevice s t := by
  obtain ⟨w, hload, _⟩ := State.fetchInstr_ok h
  exact State.loadWord_outside hload

/-! ### Instructions -/

/-- No instruction changes anything outside the processor and its memory but the state of an attached
device: it is its accesses, in their order, and an ending inside the processor. -/
theorem exec_outside {i : Instr} {s t : State} (h : exec i s = .next t) : SameOutsideButDevice s t := by
  cases i with
  | addReg | addImm | andReg | andImm | not | shf | lea =>
    cases h
    exact (s.loadResult_outside _ _).butDevice
  | br n z p off =>
    obtain ⟨a, hbr⟩ := execBr_eq_setPc n z p off s
    cases hbr.symm.trans h
    exact (s.setPc_outside a).butDevice
  | ret | jmp =>
    cases h
    exact (s.setPc_outside _).butDevice
  | jsr | jsrr =>
    cases h
    exact (s.setReg_setPc_frame .r7 _ _).outside.butDevice
  | ldb dr base off =>
    obtain ⟨b, s1, hload, rfl⟩ := execLdb_eq_next.mp h
    exact (State.loadByte_outside hload).trans (s1.loadResult_outside dr _).butDevice
  | ldi dr base off =>
    obtain ⟨p, s1, hpointer, v, s2, hload, rfl⟩ := execLdi_eq_next.mp h
    exact (State.loadWord_outside hpointer)
      |>.trans (State.loadWord_outside hload)
      |>.trans (s2.loadResult_outside dr v).butDevice
  | ldr dr base off =>
    obtain ⟨v, s1, hload, rfl⟩ := execLdr_eq_next.mp h
    exact (State.loadWord_outside hload).trans (s1.loadResult_outside dr v).butDevice
  | stb sr base off =>
    obtain ⟨s1, hstore, rfl⟩ := execStb_eq_next.mp h
    exact (State.storeByte_outside hstore).trans s1.advance_outside.butDevice
  | sti sr base off =>
    obtain ⟨p, s1, hpointer, s2, hstore, rfl⟩ := execSti_eq_next.mp h
    exact (State.loadWord_outside hpointer)
      |>.trans (State.storeWord_outside hstore)
      |>.trans s2.advance_outside.butDevice
  | str sr base off =>
    obtain ⟨s1, hstore, rfl⟩ := execStr_eq_next.mp h
    exact (State.storeWord_outside hstore).trans s1.advance_outside.butDevice
  | trap vect =>
    obtain ⟨v, s1, hload, rfl⟩ := execTrap_eq_next.mp h
    exact (s.setReg_outside .r7 s.pcInc).butDevice
      |>.trans (State.loadWord_outside hload)
      |>.trans (s1.setPc_outside v).butDevice
  | rti =>
    rcases execRti_eq_next.mp h with ⟨_, hreturn⟩ | ⟨_, _, hentry⟩
    · exact State.returnFromHandler_outside hreturn
    · exact State.enterHandler_outside hentry

end Sys2Proof.Machine
end

section
/-! SUPPORT. The parameters of a run: what neither the environment nor the processor changes. -/

namespace Sys2Proof.Machine

/-- A source without its request line: the part that is a parameter (spec/60_exceptions.md R175). -/
def IntSource.parameters (src : IntSource) : BitVec 3 × BitVec 8 := (src.pl, src.vector)

/-- The parameters of the run are as before: the configuration, the sources but for their request lines,
and whether a device is attached (spec/00_scope.md R8). -/
structure SameParameters (s t : State) : Prop where
  config  : t.config = s.config
  sources : t.sources.map IntSource.parameters = s.sources.map IntSource.parameters
  device  : t.device = .refuse ↔ s.device = .refuse

theorem SameParameters.trans {s t u : State} (h₁ : SameParameters s t) (h₂ : SameParameters t u) :
    SameParameters s u :=
  ⟨h₂.config.trans h₁.config, h₂.sources.trans h₁.sources, h₂.device.trans h₁.device⟩

theorem SameOutsideButDevice.parameters {s t : State} (h : SameOutsideButDevice s t) :
    SameParameters s t :=
  ⟨h.config, by rw [h.sources], h.device⟩

/-- A device drives the request lines and no other part of its sources. -/
theorem driveRequests_parameters (code i : Nat) (sources : List IntSource) :
    (driveRequests code i sources).map IntSource.parameters = sources.map IntSource.parameters := by
  induction sources generalizing i with
  | nil => rfl
  | cons src rest ih =>
    rw [driveRequests, List.map_cons, List.map_cons, ih]
    rfl

/-- An input list sets the request lines and no other part of the sources. -/
theorem setRequests_parameters (lines : List Bool) (sources : List IntSource) :
    (setRequests lines sources).map IntSource.parameters = sources.map IntSource.parameters := by
  induction lines generalizing sources with
  | nil => rfl
  | cons line lines ih =>
    cases sources with
    | nil => rfl
    | cons src rest =>
      rw [setRequests, List.map_cons, List.map_cons, ih]
      rfl

theorem State.environmentActs_parameters (s : State) : SameParameters s s.environmentActs := by
  unfold State.environmentActs
  split
  · next c hd => exact ⟨rfl, driveRequests_parameters _ 0 s.sources, by simp [hd]⟩
  · split
    · exact ⟨rfl, rfl, Iff.rfl⟩
    · next lines _ _ => exact ⟨rfl, setRequests_parameters lines s.sources, Iff.rfl⟩

theorem State.chooseInterrupt_parameters {s u : State} {chosen : Option IntSource}
    (h : s.chooseInterrupt = (chosen, u)) : SameParameters s u := by
  have hu : u = { s with choices := u.choices, wait := u.wait } := by
    simpa only [h] using s.chooseInterrupt_frame
  rw [hu]
  exact ⟨rfl, rfl, Iff.rfl⟩

/-- A step keeps the parameters of the run: the environment and the choice at the boundary do, and so does
the handler entry or the instruction that follows. -/
theorem step_parameters {s t : State} (h : step s = .next t) : SameParameters s t := by
  rcases (step_next h).2 with ⟨src, u, hchoose, hentry⟩ | ⟨u, i, v, hchoose, hfetch, hexec⟩
  · exact s.environmentActs_parameters
      |>.trans (State.chooseInterrupt_parameters hchoose)
      |>.trans (State.enterHandler_outside hentry).parameters
  · exact s.environmentActs_parameters
      |>.trans (State.chooseInterrupt_parameters hchoose)
      |>.trans (State.fetchInstr_outside hfetch).parameters
      |>.trans (exec_outside hexec).parameters

end Sys2Proof.Machine
end

section
/-! SUPPORT. The obligations about the parameters of a run (spec/00_scope.md). -/

namespace Sys2Proof.Machine

/-- Settles O54: the parameters by the parts of a step, the rest by what an instruction leaves outside. -/
theorem parametersStayFixed : Obligations.ParametersStayFixed := by
  unfold Obligations.ParametersStayFixed
  constructor
  · intro s t h
    obtain ⟨hconfig, hsources, hdevice⟩ := step_parameters h
    exact ⟨hconfig, hsources, hdevice⟩
  · intro i s t h
    have outside := exec_outside h
    exact ⟨outside.sources, outside.requestInputs, outside.choices, outside.wait⟩

end Sys2Proof.Machine
end

section
/-! SUPPORT. What an instruction writes: registers, bytes of memory and the PSR, as relations in which an
instruction's accesses and its ending compose. -/

namespace Sys2Proof.Machine

/-- From the first state to the second, no register outside `dst` and no byte of memory outside `bytes` is
written. -/
structure WritesOnly (dst : List Reg) (bytes : List Word) (s t : State) : Prop where
  regs   : ∀ r, r ∉ dst → t.reg r = s.reg r
  memory : SameMemoryBut bytes s t

/-- `FrameBut` without the stack pointer of the other mode and without what is outside the processor, where a
device may have answered an access: `WritesOnly` with the PSR as before. -/
structure WritesOnlyKeepsPsr (dst : List Reg) (bytes : List Word) (s t : State) : Prop
    extends WritesOnly dst bytes s t where
  psr : t.psr = s.psr

/-- The two bytes of the aligned word at an address (spec/20_memory.md R53). -/
def wordBytes (a : Word) : List Word := [alignWord a, alignWord a + 1]

theorem entryBytes_eq (ssp : Word) : entryBytes ssp = wordBytes (ssp - 2) ++ wordBytes (ssp - 4) := rfl

theorem storedBytes_str (sr base : Reg) (off : BitVec 6) (s : State) :
    storedBytes (.str sr base off) s = wordBytes (s.eaWord base off) := rfl

theorem storedBytes_sti {s t : State} {base : Reg} {off : BitVec 6} {p : Word} (sr : Reg)
    (h : s.loadWord (s.eaWord base off) = .ok (p, t)) :
    storedBytes (.sti sr base off) s = wordBytes p := by
  simp only [storedBytes, h]
  rfl

variable {dst : List Reg} {bytes : List Word} {s t u : State}

theorem SameMemoryBut.trans (h₁ : SameMemoryBut bytes s t) (h₂ : SameMemoryBut bytes t u) :
    SameMemoryBut bytes s u :=
  fun a ha => (h₂ a ha).trans (h₁ a ha)

theorem WritesOnly.trans (h₁ : WritesOnly dst bytes s t) (h₂ : WritesOnly dst bytes t u) :
    WritesOnly dst bytes s u :=
  ⟨fun r hr => (h₂.regs r hr).trans (h₁.regs r hr), h₁.memory.trans h₂.memory⟩

theorem WritesOnlyKeepsPsr.trans (h₁ : WritesOnlyKeepsPsr dst bytes s t)
    (h₂ : WritesOnlyKeepsPsr dst bytes t u) : WritesOnlyKeepsPsr dst bytes s u :=
  ⟨h₁.toWritesOnly.trans h₂.toWritesOnly, h₂.psr.trans h₁.psr⟩

theorem WritesResult.writesOnly {dr : Reg} {v : Word} (h : WritesResult s t dr v) :
    WritesOnly [dr] [] s t :=
  ⟨fun r hr => h.regs r (by simpa using hr), h.memory⟩

/-! ### Writes of a register and of the PC -/

theorem State.setReg_writesOnly {r : Reg} (hr : r ∈ dst) (v : Word) :
    WritesOnlyKeepsPsr dst bytes s (s.setReg r v) :=
  ⟨⟨fun _ hq => s.reg_setReg_other r _ v (ne_of_mem_of_not_mem hr hq).symm,
    .of_mem_eq _ (s.setReg_mem r v)⟩, s.setReg_psr r v⟩

theorem State.setPc_writesOnly (a : Word) : WritesOnlyKeepsPsr dst bytes s (s.setPc a) :=
  ⟨⟨fun r _ => s.reg_setPc a r, .of_mem_eq _ rfl⟩, rfl⟩

/-! ### Accesses -/

/-- What changes memory and the device alone writes no register. -/
theorem WritesOnlyKeepsPsr.of_memory (hmem : SameMemoryBut bytes s t)
    (h : t = { s with mem := t.mem, device := t.device }) : WritesOnlyKeepsPsr dst bytes s t := by
  refine ⟨⟨fun r _ => ?_, hmem⟩, by rw [h]⟩
  rw [h]
  cases r <;> rfl

/-- What changes the device alone writes nothing. -/
theorem WritesOnlyKeepsPsr.of_device (h : t = { s with device := t.device }) :
    WritesOnlyKeepsPsr dst bytes s t :=
  .of_memory (.of_mem_eq _ (by rw [h])) (by rw [h])

theorem State.loadWord_writesOnly {a v : Word} (h : s.loadWord a = .ok (v, t)) :
    WritesOnlyKeepsPsr dst bytes s t :=
  .of_device (State.loadWord_ok h)

theorem State.storeByte_writesOnly {a : Word} {b : Byte} (h : s.storeByte a b = .ok t)
    (ha : a ∈ bytes) : WritesOnlyKeepsPsr dst bytes s t := by
  rcases State.storeByte_ok h with ⟨hmem, rfl⟩ | ⟨_, ht⟩
  · refine .of_memory (fun x hx => ?_) rfl
    rw [State.byteAt_write _ _ _ _ hmem, if_neg (ne_of_mem_of_not_mem ha hx).symm]
  · exact .of_device ht

theorem State.storeWord_writesOnly {a v : Word} (h : s.storeWord a v = .ok t)
    (hbytes : wordBytes a ⊆ bytes) : WritesOnlyKeepsPsr dst bytes s t := by
  rcases State.storeWord_ok h with ⟨hmem, rfl⟩ | ⟨_, ht⟩
  · refine .of_memory (fun x hx => ?_) rfl
    have hword : x ∉ wordBytes a := fun h => hx (hbytes h)
    simp only [wordBytes, List.mem_cons, List.not_mem_nil, or_false, not_or] at hword
    obtain ⟨hlow, hhigh⟩ := hword
    rw [State.byteAt_writeWord _ _ _ _ hmem, if_neg hhigh, if_neg hlow]
  · exact .of_device ht

/-! ### Handler entry and return: R6 changes with SSP and with the mode (spec/10_state.md R23) -/

/-- What changes the PC, SSP, the PSR and the device alone writes no register but R6. -/
theorem WritesOnly.of_stack (hdst : .r6 ∈ dst)
    (h : t = { s with pc := t.pc, ssp := t.ssp, psr := t.psr, device := t.device }) :
    WritesOnly dst bytes s t := by
  refine ⟨fun r hr => ?_, .of_mem_eq _ (by rw [h])⟩
  rw [h]
  cases r with
  | r6 => exact absurd hdst hr
  | _  => rfl

theorem State.pushSupervisor_writesOnly {v : Word} (h : s.pushSupervisor v = .ok t)
    (hdst : .r6 ∈ dst) (hbytes : wordBytes (s.ssp - 2) ⊆ bytes) : WritesOnly dst bytes s t :=
  have moved : WritesOnly dst bytes s { s with ssp := s.ssp - 2 } := .of_stack hdst rfl
  moved.trans (State.storeWord_writesOnly h hbytes).toWritesOnly

theorem State.popSupervisor_writesOnly {v : Word} (h : s.popSupervisor = .ok (v, t))
    (hdst : .r6 ∈ dst) : WritesOnly dst bytes s t :=
  .of_stack hdst (by rw [State.popSupervisor_ok h])

/-- A handler entry writes R6 and the two words below SSP (spec/60_exceptions.md R178). -/
theorem State.enterHandler_writesOnly {savedPc entry : Word} {level : Option (BitVec 3)}
    (h : s.enterHandler savedPc level entry = .ok t) : WritesOnly [.r6] (entryBytes s.ssp) s t := by
  obtain ⟨s1, s2, s3, v, hpushPsr, hpushPc, hload, rfl⟩ := State.enterHandler_ok h
  have hssp : s1.ssp - 2 = s.ssp - 4 := by
    rw [(State.pushSupervisor_ok hpushPsr).1]
    exact sub_sub s.ssp 2 2
  have hpsr : wordBytes (s.ssp - 2) ⊆ entryBytes s.ssp := List.subset_append_left _ _
  have hpc : wordBytes (s1.ssp - 2) ⊆ entryBytes s.ssp := by
    rw [hssp, entryBytes_eq]
    exact List.subset_append_right _ _
  have supervisor : WritesOnly [.r6] (entryBytes s.ssp) s s.enterSupervisor :=
    .of_stack (by simp) rfl
  have level : WritesOnly [.r6] (entryBytes s.ssp) s2 (s2.setLevel level) :=
    .of_stack (by simp) (by cases level <;> rfl)
  exact supervisor
    |>.trans (State.pushSupervisor_writesOnly hpushPsr (by simp) hpsr)
    |>.trans (State.pushSupervisor_writesOnly hpushPc (by simp) hpc)
    |>.trans level
    |>.trans (State.loadWord_writesOnly hload).toWritesOnly
    |>.trans (State.setPc_writesOnly v).toWritesOnly

/-- A return from a handler writes R6 and no memory (spec/44_system.md R161). -/
theorem State.returnFromHandler_writesOnly (h : s.returnFromHandler = .ok t) :
    WritesOnly [.r6] [] s t := by
  obtain ⟨tPc, s1, tPsr, s2, hpopPc, hpopPsr, rfl⟩ := State.returnFromHandler_ok h
  exact (State.popSupervisor_writesOnly hpopPc (by simp))
    |>.trans (State.popSupervisor_writesOnly hpopPsr (by simp))
    |>.trans (.of_stack (by simp) rfl)

/-! ### Instructions -/

variable {i : Instr}

/-- The ten instructions that set the condition codes end in the write of a result, after accesses that
change the device's state at most (spec/10_state.md R30). -/
theorem exec_loadResult {dr : Reg} (h : exec i s = .next t) (hi : resultReg i = some dr) :
    ∃ (s1 : State) (v : Word), s1 = { s with device := s1.device } ∧ t = s1.loadResult dr v := by
  cases i with
  | addReg | addImm | andReg | andImm | not | shf | lea =>
    cases hi
    cases h
    exact ⟨s, _, rfl, rfl⟩
  | ldb dr base off =>
    cases hi
    obtain ⟨b, s1, hload, rfl⟩ := execLdb_eq_next.mp h
    exact ⟨s1, _, State.loadByte_ok hload, rfl⟩
  | ldi dr base off =>
    cases hi
    obtain ⟨p, s1, hpointer, v, s2, hload, rfl⟩ := execLdi_eq_next.mp h
    refine ⟨s2, v, ?_, rfl⟩
    rw [State.loadWord_ok hload, State.loadWord_ok hpointer]
  | ldr dr base off =>
    cases hi
    obtain ⟨v, s1, hload, rfl⟩ := execLdr_eq_next.mp h
    exact ⟨s1, v, State.loadWord_ok hload, rfl⟩
  | br | ret | jmp | jsr | jsrr | stb | sti | str | trap | rti => cases hi

theorem writtenRegs_of_resultReg {dr : Reg} (hi : resultReg i = some dr) : writtenRegs i = [dr] := by
  cases i <;> cases hi <;> rfl

theorem storedBytes_of_resultReg {dr : Reg} (hi : resultReg i = some dr) : storedBytes i s = [] := by
  cases i <;> cases hi <;> rfl

/-- The other instructions but RTI keep the whole PSR, and write their link register and the bytes they store
to (spec/10_state.md R22; spec/20_memory.md R61). -/
theorem exec_writesOnlyKeepsPsr (h : exec i s = .next t) (hi : resultReg i = none) (hrti : i ≠ .rti) :
    WritesOnlyKeepsPsr (writtenRegs i) (storedBytes i s) s t := by
  cases i with
  | br n z p off =>
    obtain ⟨a, hbr⟩ := execBr_eq_setPc n z p off s
    cases hbr.symm.trans h
    exact State.setPc_writesOnly a
  | ret | jmp =>
    cases h
    exact State.setPc_writesOnly _
  | jsr | jsrr =>
    cases h
    exact (State.setReg_writesOnly (by simp [writtenRegs]) _).trans (State.setPc_writesOnly _)
  | stb sr base off =>
    obtain ⟨s1, hstore, rfl⟩ := execStb_eq_next.mp h
    exact (State.storeByte_writesOnly hstore (by simp [storedBytes]))
      |>.trans (State.setPc_writesOnly s1.pcInc)
  | str sr base off =>
    obtain ⟨s1, hstore, rfl⟩ := execStr_eq_next.mp h
    rw [storedBytes_str]
    exact (State.storeWord_writesOnly hstore (List.Subset.refl _))
      |>.trans (State.setPc_writesOnly s1.pcInc)
  | sti sr base off =>
    obtain ⟨p, s1, hpointer, s2, hstore, rfl⟩ := execSti_eq_next.mp h
    rw [storedBytes_sti sr hpointer]
    exact (State.loadWord_writesOnly hpointer)
      |>.trans (State.storeWord_writesOnly hstore (List.Subset.refl _))
      |>.trans (State.setPc_writesOnly s2.pcInc)
  | trap vect =>
    obtain ⟨v, s1, hload, rfl⟩ := execTrap_eq_next.mp h
    exact (State.setReg_writesOnly (by simp [writtenRegs]) s.pcInc)
      |>.trans (State.loadWord_writesOnly hload)
      |>.trans (State.setPc_writesOnly v)
  | rti => exact absurd rfl hrti
  | addReg | addImm | andReg | andImm | ldb | ldi | ldr | lea | not | shf => cases hi

/-- RTI writes R6, and in User mode the bytes of the handler entry it takes (spec/44_system.md R161;
spec/60_exceptions.md R172). -/
theorem execRti_writesOnly (h : execRti s = .next t) :
    WritesOnly (writtenRegs .rti) (storedBytes .rti s) s t := by
  rcases execRti_eq_next.mp h with ⟨hmode, hreturn⟩ | ⟨hmode, _, hentry⟩
  · simpa [storedBytes, writtenRegs, hmode] using State.returnFromHandler_writesOnly hreturn
  · simpa [storedBytes, writtenRegs, hmode] using State.enterHandler_writesOnly hentry

/-- Every instruction writes only its own registers and the bytes it stores to (spec/10_state.md R22;
spec/20_memory.md R61). -/
theorem exec_writesOnly (h : exec i s = .next t) : WritesOnly (writtenRegs i) (storedBytes i s) s t := by
  cases hi : resultReg i with
  | some dr =>
    rw [writtenRegs_of_resultReg hi, storedBytes_of_resultReg hi]
    obtain ⟨s1, v, haccess, rfl⟩ := exec_loadResult h hi
    exact (WritesOnlyKeepsPsr.of_device haccess).toWritesOnly
      |>.trans (s1.loadResult_writesResult dr v).writesOnly
  | none =>
    by_cases hrti : i = .rti
    · subst hrti
      exact execRti_writesOnly h
    · exact (exec_writesOnlyKeepsPsr h hi hrti).toWritesOnly

end Sys2Proof.Machine
end

section
/-! SUPPORT. The obligations about which instructions write the condition codes, the registers and memory
(spec/10_state.md). -/

namespace Sys2Proof.Machine

/-- Settles O52: the ten writers end in the write of a result, and the others but RTI keep the PSR. -/
theorem conditionCodeWriters : Obligations.ConditionCodeWriters := by
  unfold Obligations.ConditionCodeWriters
  refine fun i s t h => ⟨fun dr hi => ?_, fun hi hrti => (exec_writesOnlyKeepsPsr h hi hrti).psr⟩
  obtain ⟨s1, v, _, rfl⟩ := exec_loadResult h hi
  have written := s1.loadResult_writesResult dr v
  rw [written.codes, written.result]

/-- Settles O53: by the ten writers of a result, RTI, and the other nine. -/
theorem instructionsWriteOnlyTheirTargets : Obligations.InstructionsWriteOnlyTheirTargets := by
  unfold Obligations.InstructionsWriteOnlyTheirTargets
  intro i s t h
  obtain ⟨hregs, hmemory⟩ := exec_writesOnly h
  exact ⟨hregs, hmemory⟩

end Sys2Proof.Machine
end

section
/-! SUPPORT. The stack pointer of the mode that is not current: every operation of the other mode answers the
same whatever it holds, and keeps it (spec/10_state.md R23). -/

namespace Sys2Proof.Machine

/-- The state with another stack pointer of the mode in which PSR[15] is `user`: USP of User mode, SSP of
Supervisor mode (spec/10_state.md R23). -/
def State.withStackOf (user : Bool) (v : Word) (s : State) : State :=
  match user with
  | true  => { s with usp := v }
  | false => { s with ssp := v }

variable {user : Bool} {s : State} (v : Word)

@[simp] theorem State.withStackOf_psr : (s.withStackOf user v).psr = s.psr := by cases user <;> rfl
@[simp] theorem State.withStackOf_device : (s.withStackOf user v).device = s.device := by
  cases user <;> rfl

@[simp] theorem State.withStackOf_userMode : (s.withStackOf user v).userMode = s.userMode :=
  State.userMode_congr (by simp)

/-! ### What never reads or writes a stack pointer -/

theorem State.setPc_withStackOf (a : Word) :
    (s.withStackOf user v).setPc a = (s.setPc a).withStackOf user v := by
  cases user <;> rfl

theorem State.setcc_withStackOf (w : Word) :
    (s.withStackOf user v).setcc w = (s.setcc w).withStackOf user v := by
  cases user <;> rfl

theorem State.writePsr_withStackOf (w : Word) :
    (s.withStackOf user v).writePsr w = (s.writePsr w).withStackOf user v := by
  cases user <;> rfl

theorem State.advance_withStackOf : (s.withStackOf user v).advance = s.advance.withStackOf user v := by
  cases user <;> rfl

theorem State.pcInc_withStackOf : (s.withStackOf user v).pcInc = s.pcInc := by cases user <;> rfl

theorem State.pcRelative_withStackOf {n : Nat} (off : BitVec n) :
    (s.withStackOf user v).pcRelative off = s.pcRelative off := by
  cases user <;> rfl

theorem State.branchTaken_withStackOf (n z p : Bool) :
    (s.withStackOf user v).branchTaken n z p = s.branchTaken n z p := by
  cases user <;> rfl

theorem State.loadByte_withStackOf (a : Word) :
    (s.withStackOf user v).loadByte a =
      (s.loadByte a).map (Prod.map id (State.withStackOf user v)) := by
  unfold State.loadByte
  rw [State.withStackOf_device]
  repeat' split
  all_goals cases user <;> rfl

theorem State.loadWord_withStackOf (a : Word) :
    (s.withStackOf user v).loadWord a =
      (s.loadWord a).map (Prod.map id (State.withStackOf user v)) := by
  unfold State.loadWord
  rw [State.withStackOf_device]
  repeat' split
  all_goals cases user <;> rfl

theorem State.storeByte_withStackOf (a : Word) (b : Byte) :
    (s.withStackOf user v).storeByte a b = (s.storeByte a b).map (State.withStackOf user v) := by
  unfold State.storeByte
  rw [State.withStackOf_device]
  repeat' split
  all_goals cases user <;> rfl

theorem State.storeWord_withStackOf (a w : Word) :
    (s.withStackOf user v).storeWord a w = (s.storeWord a w).map (State.withStackOf user v) := by
  unfold State.storeWord
  rw [State.withStackOf_device]
  repeat' split
  all_goals cases user <;> rfl

/-- A pop from the supervisor stack neither reads nor writes USP (spec/44_system.md R161). -/
theorem State.popSupervisor_withUsp :
    (s.withStackOf true v).popSupervisor =
      s.popSupervisor.map (Prod.map id (State.withStackOf true v)) := by
  have hload := State.loadWord_withStackOf (user := true) (s := s) v s.ssp
  unfold State.popSupervisor
  rw [show (s.withStackOf true v).ssp = s.ssp from rfl, hload]
  cases s.loadWord s.ssp <;> rfl

/-! ### Registers: R6 is the other stack pointer -/

section
variable (hmode : s.userMode = !user)
include hmode

theorem State.reg_withStackOf (r : Reg) : (s.withStackOf user v).reg r = s.reg r := by
  cases r with
  | r6 => cases user <;> simp [State.reg, State.sp, hmode] <;> rfl
  | _  => cases user <;> rfl

theorem State.setReg_withStackOf (r : Reg) (w : Word) :
    (s.withStackOf user v).setReg r w = (s.setReg r w).withStackOf user v := by
  cases r with
  | r6 => cases user <;> simp [State.setReg, State.setSp, hmode] <;> rfl
  | _  => cases user <;> rfl

theorem State.eaByte_withStackOf (base : Reg) (off : BitVec 6) :
    (s.withStackOf user v).eaByte base off = s.eaByte base off := by
  rw [State.eaByte, State.reg_withStackOf v hmode, State.eaByte]

theorem State.eaWord_withStackOf (base : Reg) (off : BitVec 6) :
    (s.withStackOf user v).eaWord base off = s.eaWord base off := by
  rw [State.eaWord, State.reg_withStackOf v hmode, State.eaWord]

theorem State.loadResult_withStackOf (dr : Reg) (w : Word) :
    (s.withStackOf user v).loadResult dr w = (s.loadResult dr w).withStackOf user v := by
  rw [State.loadResult, State.setReg_withStackOf v hmode, State.setcc_withStackOf,
    State.advance_withStackOf, State.loadResult]

end

/-! ### Instructions -/

theorem next_eq_mapNext {f : State → State} {t t' : State} (h : t' = f t) :
    (.next t' : Result) = mapNext f (.next t) :=
  congrArg Host.Outcome.next h

/-- An access that commutes with a change of the state, followed by what commutes with it after every answer
of the access. -/
theorem finish_bind_mapNext {α : Type} {x x' : Except Refusal α} {g g' : α → Except Refusal State}
    {f : State → State} {change : α → α} (hx : x' = x.map change)
    (hg : ∀ a, x = .ok a → finish (g' (change a)) = mapNext f (finish (g a))) :
    finish (x' >>= g') = mapNext f (finish (x >>= g)) := by
  subst hx
  cases x with
  | error e => rfl
  | ok a    => exact hg a rfl

theorem State.loadByte_userMode {t : State} {a : Word} {b : Byte} (h : s.loadByte a = .ok (b, t)) :
    t.userMode = s.userMode :=
  State.userMode_congr (by rw [State.loadByte_ok h])

theorem State.loadWord_userMode {t : State} {a w : Word} (h : s.loadWord a = .ok (w, t)) :
    t.userMode = s.userMode :=
  State.userMode_congr (by rw [State.loadWord_ok h])

/-- Every instruction but RTI commutes with a change of the stack pointer of the mode that is not current. -/
theorem exec_withStackOf {i : Instr} (hrti : i ≠ .rti) (hmode : s.userMode = !user) :
    exec i (s.withStackOf user v) = mapNext (State.withStackOf user v) (exec i s) := by
  cases i with
  | addReg | addImm | andReg | andImm | not | shf =>
    refine next_eq_mapNext ?_
    simp only [State.reg_withStackOf v hmode, State.loadResult_withStackOf v hmode]
  | lea =>
    refine next_eq_mapNext ?_
    rw [State.pcRelative_withStackOf, State.loadResult_withStackOf v hmode]
  | br n z p off =>
    simp only [exec, execBr, State.branchTaken_withStackOf, State.pcRelative_withStackOf,
      State.setPc_withStackOf, State.advance_withStackOf]
    split
    · rfl
    · rfl
  | ret | jmp =>
    refine next_eq_mapNext ?_
    rw [State.reg_withStackOf v hmode, State.setPc_withStackOf]
  | jsr =>
    refine next_eq_mapNext ?_
    rw [State.pcInc_withStackOf, State.pcRelative_withStackOf, State.setReg_withStackOf v hmode,
      State.setPc_withStackOf]
  | jsrr base =>
    refine next_eq_mapNext ?_
    rw [State.pcInc_withStackOf, State.setReg_withStackOf v hmode,
      State.reg_withStackOf v ((s.setReg_userMode .r7 s.pcInc).trans hmode), State.setPc_withStackOf]
  | ldb dr base off =>
    simp only [exec, execLdb, State.eaByte_withStackOf v hmode]
    refine finish_bind_mapNext (State.loadByte_withStackOf v _) ?_
    rintro ⟨b, s1⟩ hload
    exact next_eq_mapNext (State.loadResult_withStackOf v ((State.loadByte_userMode hload).trans hmode) _ _)
  | ldi dr base off =>
    simp only [exec, execLdi, State.eaWord_withStackOf v hmode]
    refine finish_bind_mapNext (State.loadWord_withStackOf v _) ?_
    rintro ⟨p, s1⟩ hpointer
    refine finish_bind_mapNext (State.loadWord_withStackOf v p) ?_
    rintro ⟨w, s2⟩ hload
    have hmode2 : s2.userMode = !user :=
      (State.loadWord_userMode hload).trans ((State.loadWord_userMode hpointer).trans hmode)
    exact next_eq_mapNext (State.loadResult_withStackOf v hmode2 _ _)
  | ldr dr base off =>
    simp only [exec, execLdr, State.eaWord_withStackOf v hmode]
    refine finish_bind_mapNext (State.loadWord_withStackOf v _) ?_
    rintro ⟨w, s1⟩ hload
    exact next_eq_mapNext (State.loadResult_withStackOf v ((State.loadWord_userMode hload).trans hmode) _ _)
  | stb sr base off =>
    simp only [exec, execStb, State.eaByte_withStackOf v hmode, State.reg_withStackOf v hmode]
    refine finish_bind_mapNext (State.storeByte_withStackOf v _ _) ?_
    exact fun s1 _ => next_eq_mapNext (State.advance_withStackOf v)
  | sti sr base off =>
    simp only [exec, execSti, State.eaWord_withStackOf v hmode, State.reg_withStackOf v hmode]
    refine finish_bind_mapNext (State.loadWord_withStackOf v _) ?_
    rintro ⟨p, s1⟩ _
    refine finish_bind_mapNext (State.storeWord_withStackOf v p _) ?_
    exact fun s2 _ => next_eq_mapNext (State.advance_withStackOf v)
  | str sr base off =>
    simp only [exec, execStr, State.eaWord_withStackOf v hmode, State.reg_withStackOf v hmode]
    refine finish_bind_mapNext (State.storeWord_withStackOf v _ _) ?_
    exact fun s1 _ => next_eq_mapNext (State.advance_withStackOf v)
  | trap vect =>
    simp only [exec, execTrap, State.pcInc_withStackOf, State.setReg_withStackOf v hmode]
    refine finish_bind_mapNext (State.loadWord_withStackOf v _) ?_
    exact fun ⟨w, s1⟩ _ => next_eq_mapNext (State.setPc_withStackOf v w)
  | rti => exact absurd rfl hrti

/-- RTI in User mode under `EXC_POLICY = fault` faults whatever the stack pointers hold (spec/60_exceptions.md
R172). -/
theorem execRti_userMode_fault (hmode : s.userMode = true) (hpolicy : s.config.excPolicy = .fault) :
    execRti s = .fault .privilegeModeViolation := by
  simp [execRti, State.raisePrivilegeModeViolation, hmode, hpolicy]

/-- RTI in Supervisor mode commutes with a change of USP: it pops from the supervisor stack
(spec/44_system.md R161). -/
theorem execRti_withUsp (hmode : s.userMode = false) :
    execRti (s.withStackOf true v) = mapNext (State.withStackOf true v) (execRti s) := by
  simp only [execRti, State.withStackOf_userMode, hmode, Bool.false_eq_true, if_false]
  refine finish_bind_mapNext (State.popSupervisor_withUsp v) ?_
  rintro ⟨tPc, s1⟩ _
  refine finish_bind_mapNext (State.popSupervisor_withUsp v) ?_
  rintro ⟨tPsr, s2⟩ _
  rfl

/-- A change that an outcome does not show is none of its next state. -/
theorem eq_of_mapNext_eq_self {f : State → State} {r : Result} {t : State} (h : mapNext f r = r)
    (ht : r = .next t) : f t = t := by
  subst ht
  exact Host.Outcome.next.inj h

end Sys2Proof.Machine
end

section
/-! SUPPORT. The obligations about the stack pointer of the mode that is not current (spec/10_state.md R23). -/

namespace Sys2Proof.Machine

/-- Settles O58: RTI faults, and every other instruction commutes with a change of SSP. That SSP stays is
this for the value SSP already holds. -/
theorem userModeCannotReachSsp : Obligations.UserModeCannotReachSsp := by
  unfold Obligations.UserModeCannotReachSsp
  intro i s v hmode hpolicy
  have commutes : ∀ v, exec i (s.withStackOf false v) =
      mapNext (State.withStackOf false v) (exec i s) := by
    intro v
    by_cases hrti : i = .rti
    · subst hrti
      have hs : execRti s = .fault .privilegeModeViolation := execRti_userMode_fault hmode (hpolicy rfl)
      have hv : execRti (s.withStackOf false v) = .fault .privilegeModeViolation :=
        execRti_userMode_fault hmode (hpolicy rfl)
      rw [exec, exec, hs, hv]
      rfl
    · exact exec_withStackOf v hrti hmode
  refine ⟨commutes v, fun t ht => ?_⟩
  have unchanged : mapNext (State.withStackOf false s.ssp) (exec i s) = exec i s := (commutes s.ssp).symm
  exact (congrArg State.ssp (eq_of_mapNext_eq_self unchanged ht)).symm

/-- Settles O59: every instruction commutes with a change of USP, RTI by its pops from the supervisor stack.
That USP stays is this for the value USP already holds. -/
theorem supervisorModeCannotReachUsp : Obligations.SupervisorModeCannotReachUsp := by
  unfold Obligations.SupervisorModeCannotReachUsp
  intro i s v hmode
  have commutes : ∀ v, exec i (s.withStackOf true v) =
      mapNext (State.withStackOf true v) (exec i s) := by
    intro v
    by_cases hrti : i = .rti
    · subst hrti
      exact execRti_withUsp v hmode
    · exact exec_withStackOf v hrti hmode
  refine ⟨commutes v, fun t ht => ?_⟩
  have unchanged : mapNext (State.withStackOf true s.usp) (exec i s) = exec i s := (commutes s.usp).symm
  exact (congrArg State.usp (eq_of_mapNext_eq_self unchanged ht)).symm

end Sys2Proof.Machine
end

section
/-! SUPPORT. A handler entry whose accesses stay in memory, in the terms of Safety.lean
(spec/60_exceptions.md R178). -/

namespace Sys2Proof.Machine

variable {s t : State}

/-- A word is read from memory alone. -/
theorem State.wordAt_congr (h : t.mem = s.mem) (a : Word) : t.wordAt a = s.wordAt a := by
  simp only [State.wordAt, State.byteAt, h]

/-! ### The PSR of an entry: PSR[15] and PSR[10:8] are set, the other bits stay -/

theorem State.enterSupervisor_priority (s : State) : s.enterSupervisor.priority = s.priority := by
  apply BitVec.eq_of_getLsbD_eq
  intro k hk
  simp only [State.priority, State.enterSupervisor_psr, BitVec.getLsbD_extractLsb', BitVec.getLsbD_and]
  interval_cases k <;> simp

theorem State.setPriority_getLsbD (s : State) (pl : BitVec 3) (k : Nat) (hk : k < 8 ∨ 11 ≤ k) :
    (s.setPriority pl).psr.getLsbD k = s.psr.getLsbD k := by
  by_cases hwidth : k < 16
  · simp only [State.setPriority_psr, shl, zext16, BitVec.getLsbD_or, BitVec.getLsbD_and,
      BitVec.getLsbD_shiftLeft, BitVec.getLsbD_setWidth]
    interval_cases k <;> simp at hk ⊢
  · rw [BitVec.getLsbD_of_ge _ _ (by omega), BitVec.getLsbD_of_ge _ _ (by omega)]

theorem State.setPriority_priority (s : State) (pl : BitVec 3) : (s.setPriority pl).priority = pl := by
  apply BitVec.eq_of_getLsbD_eq
  intro k hk
  simp only [State.priority, State.setPriority_psr, shl, zext16, BitVec.getLsbD_extractLsb',
    BitVec.getLsbD_or, BitVec.getLsbD_and, BitVec.getLsbD_shiftLeft, BitVec.getLsbD_setWidth]
  interval_cases k <;> simp

/-- The level an entry leaves: the one it is given, or the one before it (spec/60_exceptions.md R172). -/
theorem State.setLevel_priority (s : State) (level : Option (BitVec 3)) :
    (s.setLevel level).priority = level.getD s.priority := by
  cases level with
  | none    => rfl
  | some pl => exact s.setPriority_priority pl

theorem State.setLevel_getLsbD (s : State) (level : Option (BitVec 3)) (k : Nat) (hk : k < 8 ∨ 11 ≤ k) :
    (s.setLevel level).psr.getLsbD k = s.psr.getLsbD k := by
  cases level with
  | none    => rfl
  | some pl => exact s.setPriority_getLsbD pl k hk

theorem State.setLevel_userMode (s : State) (level : Option (BitVec 3)) :
    (s.setLevel level).userMode = s.userMode :=
  s.setLevel_getLsbD level 15 (by omega)

theorem State.enterSupervisor_setLevel_psrRest (s : State) (level : Option (BitVec 3)) :
    (s.enterSupervisor.setLevel level).psr &&& 0x78FF = s.psr &&& 0x78FF := by
  apply BitVec.eq_of_getLsbD_eq
  intro k hk
  rw [BitVec.getLsbD_and, BitVec.getLsbD_and]
  by_cases hrest : k < 8 ∨ 11 ≤ k
  · rw [State.setLevel_getLsbD _ _ _ hrest, State.enterSupervisor_psr, BitVec.getLsbD_and]
    interval_cases k <;> simp
  · interval_cases k <;> simp at hrest ⊢

/-! ### The entry -/

/-- The two words below the supervisor stack pointer are two words, also where the addresses wrap around. -/
theorem alignWord_sub_two_ne (a : Word) : alignWord (a - 2) ≠ alignWord (a - 4) := by
  intro h
  have hnat := congrArg BitVec.toNat h
  rw [alignWord_toNat, alignWord_toNat] at hnat
  bv_omega

/-- A handler entry whose three accesses lie in memory completes, with the level given or else the level
before it. -/
theorem State.enterHandler_entersHandler (s : State) (savedPc entry : Word) (level : Option (BitVec 3))
    (h : entryInMemory s entry) :
    ∃ t, s.enterHandler savedPc level entry = .ok t ∧
      EntersHandler s t savedPc (level.getD s.priority) entry := by
  obtain ⟨hpushPsr, hpushPc, hentry⟩ := h
  have hssp : s.ssp - 2 - 2 = s.ssp - 4 := sub_sub s.ssp 2 2
  obtain ⟨s0, s1, s2, hs0, hs1, hs2, henter⟩ :=
    s.enterHandler_memory savedPc entry level hpushPsr (by rwa [hssp]) hentry
  rw [hssp] at hs2
  refine ⟨_, henter, ?_⟩
  have writes := State.enterHandler_writesOnly henter
  generalize ht : (s2.setLevel level).setPc ((s2.setLevel level).wordAt entry) = t at writes
  have hmem : t.mem = s2.mem := by rw [← ht]; simp
  have hpsr : t.psr = (s.enterSupervisor.setLevel level).psr := by
    rw [← ht, hs2, hs1, hs0]
    cases level <;> rfl
  constructor
  case savedPsr =>
    calc t.wordAt (s.ssp - 2)
        = s2.wordAt (s.ssp - 2) := State.wordAt_congr hmem _
      _ = s1.wordAt (s.ssp - 2) := by
          rw [hs2]
          exact s1.wordAt_writeWord_other _ _ _ hpushPc (alignWord_sub_two_ne s.ssp)
      _ = s.readPsr := by
          rw [hs1]
          exact s.wordAt_writeWord _ _ hpushPsr
  case savedPc =>
    calc t.wordAt (s.ssp - 4)
        = s2.wordAt (s.ssp - 4) := State.wordAt_congr hmem _
      _ = savedPc := by
          rw [hs2]
          exact s1.wordAt_writeWord _ _ hpushPc
  case ssp => rw [← ht, hs2]; simp
  case usp => rw [← ht, hs2, hs1, hs0]; simp
  case mode =>
    calc t.userMode
        = (s.enterSupervisor.setLevel level).userMode := State.userMode_congr hpsr
      _ = s.enterSupervisor.userMode := State.setLevel_userMode _ _
      _ = false := s.enterSupervisor_userMode
  case priority =>
    calc t.priority
        = (s.enterSupervisor.setLevel level).priority := by rw [State.priority, hpsr, State.priority]
      _ = level.getD s.priority := by rw [State.setLevel_priority, State.enterSupervisor_priority]
  case psrRest => rw [hpsr, State.enterSupervisor_setLevel_psrRest]
  case pc =>
    rw [State.wordAt_congr hmem, ← State.wordAt_congr (s := s2) (t := s2.setLevel level) (by simp), ← ht]
    rfl
  case regs => exact fun r hr => writes.regs r (by simpa using hr)
  case memory => exact writes.memory
  case outside =>
    rw [← ht, hs2, hs1, hs0]
    exact ⟨by simp, by simp, by simp, by simp, by simp, by simp⟩

end Sys2Proof.Machine
end

section
/-! SUPPORT. What a step does with its fetch: the decoded instruction, or the refusal of the access or of the
word (spec/70_reset_and_hazards.md R209). -/

namespace Sys2Proof.Machine

variable {s t u : State} {i : Instr} {w : Word}

/-- A word read from an attached device is what the device answers (spec/20_memory.md R62). -/
theorem State.loadWord_answered {c c' : Nat} {a : Word} (ha : deviceBase ≤ (alignWord a).toNat)
    (hd : s.device = .attached c) (hanswer : Config.deviceReadWord c (alignWord a) = some (w, c')) :
    s.loadWord a = .ok (w, { s with device := .attached c' }) := by
  simp only [State.loadWord, isDevice_eq_true.mpr ha, if_true, hd, hanswer]

theorem State.loadWord_unanswered {c : Nat} {a : Word} (ha : deviceBase ≤ (alignWord a).toNat)
    (hd : s.device = .attached c) (hanswer : Config.deviceReadWord c (alignWord a) = none) :
    s.loadWord a = .error .deviceAccess := by
  simp only [State.loadWord, isDevice_eq_true.mpr ha, if_true, hd, hanswer]

theorem State.fetchInstr_of_decoded (hload : s.loadWord s.pc = .ok (w, t))
    (hdecode : decodeUnder s.config.reservedPolicy w = .ok i) : s.fetchInstr = .ok (i, t) := by
  simp only [State.fetchInstr, bind, Except.bind, hload, hdecode, pure, Except.pure]

theorem State.fetchInstr_of_loadWord_error {e : Refusal} (hload : s.loadWord s.pc = .error e) :
    s.fetchInstr = .error e := by
  simp only [State.fetchInstr, bind, Except.bind, hload]

/-- A word that does not decode is refused by name (spec/30_encoding.md R100). -/
theorem State.fetchInstr_of_not_decoded {e : DecodeError} (hload : s.loadWord s.pc = .ok (w, t))
    (hdecode : decodeUnder s.config.reservedPolicy w = .error e) :
    ∃ row, s.fetchInstr = .error (.reservedEncoding row) := by
  cases e with
  | reservedEncoding row =>
    exact ⟨row, by simp only [State.fetchInstr, bind, Except.bind, hload, hdecode]; rfl⟩
  | tooFewBytes =>
    exact ⟨"", by simp only [State.fetchInstr, bind, Except.bind, hload, hdecode]; rfl⟩

/-- A step that takes no interrupt and whose fetch is refused is refused. -/
theorem step_of_fetch_error {e : Refusal} (ho : s.runOver = false)
    (hc : s.environmentActs.chooseInterrupt = (none, u)) (hf : u.fetchInstr = .error e) :
    step s = .refused e := by
  simp [step, ho, hc, State.runInstr, hf]

end Sys2Proof.Machine
end

section
/-! SUPPORT. The obligations about what a step is at its boundary (spec/20_memory.md;
spec/70_reset_and_hazards.md R209). -/

namespace Sys2Proof.Machine

/-- Settles O45: the step is the chosen interrupt's entry, which is refused for a device access alone and
completes where its accesses lie in memory. -/
theorem stepEntersTheChosenInterrupt : Obligations.StepEntersTheChosenInterrupt := by
  unfold Obligations.StepEntersTheChosenInterrupt
  intro s u src hrun hchoose
  have hstep : step s = finish (u.interruptEntry src) := step_of_interrupt hrun hchoose
  refine ⟨fun t hentry => ?answered, fun e hentry => ?refused, fun hmem => ?inMemory⟩
  case answered => rw [hstep, hentry, finish_ok]
  case refused =>
    rw [hstep, hentry, finish_error]
    exact ⟨rfl, State.enterHandler_error hentry⟩
  case inMemory =>
    obtain ⟨t, hentry, enters⟩ := u.enterHandler_entersHandler u.pc _ (some src.pl) hmem
    refine ⟨t, ?_, enters⟩
    rw [hstep, State.interruptEntry, hentry, finish_ok]

/-- Settles O43: by where the fetched word comes from, and for a device by its answer and by whether the word
it answers decodes. -/
theorem stepRunsTheDecodedInstruction : Obligations.StepRunsTheDecodedInstruction := by
  unfold Obligations.StepRunsTheDecodedInstruction
  intro s t hrun hchoose
  refine ⟨fun i hmem hdecode => ?memory, fun c hdev hattached => ?device⟩
  case memory =>
    have hload : t.loadWord t.pc = .ok (t.wordAt t.pc, t) := t.loadWord_memory t.pc hmem
    exact step_of_fetch hrun hchoose (State.fetchInstr_of_decoded hload hdecode)
  case device =>
    have hpc : deviceBase ≤ (alignWord t.pc).toNat := Nat.le_of_not_lt hdev
    cases hanswer : Config.deviceReadWord c (t.pc &&& 0xFFFE) with
    | none =>
      have hload := State.loadWord_unanswered hpc hattached hanswer
      exact step_of_fetch_error hrun hchoose (State.fetchInstr_of_loadWord_error hload)
    | some answer =>
      obtain ⟨w, c'⟩ := answer
      have hload := State.loadWord_answered hpc hattached hanswer
      cases hdecode : decodeUnder t.config.reservedPolicy w with
      | ok i =>
        simp only [hdecode]
        exact step_of_fetch hrun hchoose (State.fetchInstr_of_decoded hload hdecode)
      | error e =>
        obtain ⟨row, hfetch⟩ := State.fetchInstr_of_not_decoded hload hdecode
        simp only [hdecode]
        exact ⟨row, step_of_fetch_error hrun hchoose hfetch⟩

end Sys2Proof.Machine
end

section
/-! SUPPORT. Operand forms as signed numbers, and the fields of labels (spec/30_encoding.md R88, R91). -/

namespace Sys2Proof.Machine

theorem sext16_eq_ofInt {n : Nat} (v : BitVec n) : sext16 v = BitVec.ofInt 16 v.toInt := rfl

/-- The scaling of R88: a shift left by 1 doubles a signed number. -/
theorem shl_one_ofInt (k : Int) : shl (BitVec.ofInt 16 k) 1 = BitVec.ofInt 16 (2 * k) := by
  have hdouble : shl (BitVec.ofInt 16 k) 1 = 2#16 * BitVec.ofInt 16 k := by
    unfold shl
    bv_omega
  rw [hdouble, BitVec.ofInt_mul]
  rfl

theorem State.eaByte_eq_ofInt (s : State) (base : Reg) (off : BitVec 6) :
    s.eaByte base off = s.reg base + BitVec.ofInt 16 off.toInt := by
  rw [State.eaByte, sext16_eq_ofInt]

theorem State.eaWord_eq_ofInt (s : State) (base : Reg) (off : BitVec 6) :
    s.eaWord base off = s.reg base + BitVec.ofInt 16 (2 * off.toInt) := by
  rw [State.eaWord, sext16_eq_ofInt, shl_one_ofInt]

theorem State.pcRelative_eq_ofInt (s : State) {n : Nat} (off : BitVec n) :
    s.pcRelative off = s.pc + 2 + BitVec.ofInt 16 (2 * off.toInt) := by
  rw [State.pcRelative, State.pcInc, sext16_eq_ofInt, shl_one_ofInt]

theorem trapEntry_toNat (v : BitVec 8) : (trapEntry v).toNat = 2 * v.toNat := by
  simp only [trapEntry, shl, zext16]
  bv_omega

section
variable {n : Nat} {a label : Word}

/-- The field of a label is half of its distance from the incremented PC (R91). -/
theorem labelField_eq_some_iff (hn : 0 < n) (f : BitVec n) :
    labelField n a label = some f ↔ (label.toNat : Int) = a.toNat + 2 + 2 * f.toInt := by
  simp only [labelField, Option.ite_none_right_eq_some, Option.some.injEq]
  constructor
  · rintro ⟨⟨heven, hlow, hhigh⟩, rfl⟩
    rw [BitVec.toInt_ofInt_eq_self hn hlow hhigh]
    omega
  · intro hdist
    have hhalf : ((label.toNat : Int) - (a.toNat + 2)) / 2 = f.toInt := by omega
    rw [hhalf]
    exact ⟨⟨by omega, f.le_toInt, f.toInt_lt⟩, BitVec.ofInt_toInt⟩

theorem exists_labelField_iff (hn : 0 < n) :
    (∃ f, labelField n a label = some f) ↔ ∃ k : Int, -2 ^ (n - 1) ≤ k ∧ k ≤ 2 ^ (n - 1) - 1 ∧
      (label.toNat : Int) - (a.toNat + 2) = 2 * k := by
  simp only [labelField_eq_some_iff hn]
  constructor
  · rintro ⟨f, hf⟩
    exact ⟨f.toInt, f.le_toInt, Int.le_sub_one_of_lt f.toInt_lt, by omega⟩
  · rintro ⟨k, hlow, hhigh, hk⟩
    refine ⟨BitVec.ofInt n k, ?_⟩
    rw [BitVec.toInt_ofInt_eq_self hn hlow (Int.lt_of_le_sub_one hhigh)]
    omega

/-- A sum of numbers that is the label's address is the label modulo 2^16. -/
theorem State.pcRelative_labelField (s : State) (hn : 0 < n) {f : BitVec n}
    (h : labelField n s.pc label = some f) : s.pcRelative f = label := by
  have hdist := (labelField_eq_some_iff hn f).mp h
  calc s.pcRelative f
      = BitVec.ofInt 16 s.pc.toNat + BitVec.ofInt 16 2 + BitVec.ofInt 16 (2 * f.toInt) := by
        rw [s.pcRelative_eq_ofInt, BitVec.ofInt_natCast, BitVec.ofNat_toNat, BitVec.setWidth_eq]
        rfl
    _ = BitVec.ofInt 16 label.toNat := by rw [hdist, BitVec.ofInt_add, BitVec.ofInt_add]
    _ = label := by rw [BitVec.ofInt_natCast, BitVec.ofNat_toNat, BitVec.setWidth_eq]

end

end Sys2Proof.Machine
end

section
/-! SUPPORT. The row an opcode and its mode bit select, opcode by opcode: the fields read there
(spec/30_encoding.md R85), the fixed bits that are violated, and the word with them put right (R100). -/

namespace Sys2Proof

open Sys2Proof.Machine

/-- The opcode map has a row for every opcode (R87). -/
theorem opcode_cases {p : BitVec 4 → Prop} (br : p 0b0000#4) (add : p 0b0001#4) (ldb : p 0b0010#4)
    (stb : p 0b0011#4) (jsr : p 0b0100#4) (and : p 0b0101#4) (ldr : p 0b0110#4) (str : p 0b0111#4)
    (rti : p 0b1000#4) (not : p 0b1001#4) (ldi : p 0b1010#4) (sti : p 0b1011#4) (jmp : p 0b1100#4)
    (shf : p 0b1101#4) (lea : p 0b1110#4) (trap : p 0b1111#4) (op : BitVec 4) : p op := by
  have hop := op.isLt
  rw [← op.setWidth_eq, ← BitVec.ofNat_toNat]
  interval_cases op.toNat <;> assumption

section
variable {w : Word}

/-! ### The fields read without the fixed bits -/

theorem decodeIgnoringBits_br (h : w.extractLsb' 12 4 = 0b0000#4) :
    decodeIgnoringBits w =
      .br (w.getLsbD 11) (w.getLsbD 10) (w.getLsbD 9) (w.extractLsb' 0 9) := by
  rw [decodeIgnoringBits, h]; rfl

theorem decodeIgnoringBits_add (h : w.extractLsb' 12 4 = 0b0001#4) :
    decodeIgnoringBits w =
      if w.getLsbD 5 then .addImm (fieldDR w) (fieldBase w) (w.extractLsb' 0 5)
      else .addReg (fieldDR w) (fieldBase w) (fieldSR2 w) := by
  rw [decodeIgnoringBits, h]; rfl

theorem decodeIgnoringBits_ldb (h : w.extractLsb' 12 4 = 0b0010#4) :
    decodeIgnoringBits w =
      .ldb (fieldDR w) (fieldBase w) (w.extractLsb' 0 6) := by
  rw [decodeIgnoringBits, h]; rfl

theorem decodeIgnoringBits_stb (h : w.extractLsb' 12 4 = 0b0011#4) :
    decodeIgnoringBits w =
      .stb (fieldDR w) (fieldBase w) (w.extractLsb' 0 6) := by
  rw [decodeIgnoringBits, h]; rfl

theorem decodeIgnoringBits_jsr (h : w.extractLsb' 12 4 = 0b0100#4) :
    decodeIgnoringBits w =
      if w.getLsbD 11 then .jsr (w.extractLsb' 0 11) else .jsrr (fieldBase w) := by
  rw [decodeIgnoringBits, h]; rfl

theorem decodeIgnoringBits_and (h : w.extractLsb' 12 4 = 0b0101#4) :
    decodeIgnoringBits w =
      if w.getLsbD 5 then .andImm (fieldDR w) (fieldBase w) (w.extractLsb' 0 5)
      else .andReg (fieldDR w) (fieldBase w) (fieldSR2 w) := by
  rw [decodeIgnoringBits, h]; rfl

theorem decodeIgnoringBits_ldr (h : w.extractLsb' 12 4 = 0b0110#4) :
    decodeIgnoringBits w =
      .ldr (fieldDR w) (fieldBase w) (w.extractLsb' 0 6) := by
  rw [decodeIgnoringBits, h]; rfl

theorem decodeIgnoringBits_str (h : w.extractLsb' 12 4 = 0b0111#4) :
    decodeIgnoringBits w =
      .str (fieldDR w) (fieldBase w) (w.extractLsb' 0 6) := by
  rw [decodeIgnoringBits, h]; rfl

theorem decodeIgnoringBits_rti (h : w.extractLsb' 12 4 = 0b1000#4) :
    decodeIgnoringBits w =
      .rti := by
  rw [decodeIgnoringBits, h]; rfl

theorem decodeIgnoringBits_not (h : w.extractLsb' 12 4 = 0b1001#4) :
    decodeIgnoringBits w =
      .not (fieldDR w) (fieldBase w) := by
  rw [decodeIgnoringBits, h]; rfl

theorem decodeIgnoringBits_ldi (h : w.extractLsb' 12 4 = 0b1010#4) :
    decodeIgnoringBits w =
      .ldi (fieldDR w) (fieldBase w) (w.extractLsb' 0 6) := by
  rw [decodeIgnoringBits, h]; rfl

theorem decodeIgnoringBits_sti (h : w.extractLsb' 12 4 = 0b1011#4) :
    decodeIgnoringBits w =
      .sti (fieldDR w) (fieldBase w) (w.extractLsb' 0 6) := by
  rw [decodeIgnoringBits, h]; rfl

theorem decodeIgnoringBits_jmp (h : w.extractLsb' 12 4 = 0b1100#4) :
    decodeIgnoringBits w =
      if fieldBase w = .r7 then .ret else .jmp (fieldBase w) := by
  rw [decodeIgnoringBits, h]; rfl

theorem decodeIgnoringBits_shf (h : w.extractLsb' 12 4 = 0b1101#4) :
    decodeIgnoringBits w =
      .shf (fieldDR w) (fieldBase w) (w.getLsbD 5) (w.getLsbD 4) (w.extractLsb' 0 4) := by
  rw [decodeIgnoringBits, h]; rfl

theorem decodeIgnoringBits_lea (h : w.extractLsb' 12 4 = 0b1110#4) :
    decodeIgnoringBits w =
      .lea (fieldDR w) (w.extractLsb' 0 9) := by
  rw [decodeIgnoringBits, h]; rfl

theorem decodeIgnoringBits_trap (h : w.extractLsb' 12 4 = 0b1111#4) :
    decodeIgnoringBits w =
      .trap (w.extractLsb' 0 8) := by
  rw [decodeIgnoringBits, h]; rfl

/-! ### The fixed bits: each row's, where the opcode has any -/

theorem fixedFieldViolation_addAnd
    (h : w.extractLsb' 12 4 = 0b0001#4 ∨ w.extractLsb' 12 4 = 0b0101#4) :
    fixedFieldViolation w = false ↔ (w.getLsbD 5 = false → w.extractLsb' 3 2 = 0b00#2) := by
  rcases h with h | h <;> simp [fixedFieldViolation, h]

theorem fixedFieldViolation_jsr (h : w.extractLsb' 12 4 = 0b0100#4) :
    fixedFieldViolation w = false ↔
      (w.getLsbD 11 = false → w.extractLsb' 0 6 = 0b000000#6 ∧ w.extractLsb' 9 2 = 0b00#2) := by
  simp [fixedFieldViolation, h, and_comm]

theorem fixedFieldViolation_jmp (h : w.extractLsb' 12 4 = 0b1100#4) :
    fixedFieldViolation w = false ↔
      w.extractLsb' 0 6 = 0b000000#6 ∧ w.extractLsb' 9 3 = 0b000#3 := by
  simp [fixedFieldViolation, h, and_comm]

theorem fixedFieldViolation_rti (h : w.extractLsb' 12 4 = 0b1000#4) :
    fixedFieldViolation w = false ↔ w.extractLsb' 0 12 = 0#12 := by
  simp [fixedFieldViolation, h]

theorem fixedFieldViolation_not (h : w.extractLsb' 12 4 = 0b1001#4) :
    fixedFieldViolation w = false ↔ w.extractLsb' 0 6 = 0b111111#6 := by
  simp [fixedFieldViolation, h]

theorem fixedFieldViolation_trap (h : w.extractLsb' 12 4 = 0b1111#4) :
    fixedFieldViolation w = false ↔ w.extractLsb' 8 4 = 0b0000#4 := by
  simp [fixedFieldViolation, h]

/-! ### The word with the fixed bits put right -/

theorem withFixedBits_addAnd
    (h : w.extractLsb' 12 4 = 0b0001#4 ∨ w.extractLsb' 12 4 = 0b0101#4) :
    withFixedBits w = if w.getLsbD 5 then w else w &&& 0xFFE7 := by
  rcases h with h | h <;> rw [withFixedBits, h] <;> rfl

theorem withFixedBits_jsr (h : w.extractLsb' 12 4 = 0b0100#4) :
    withFixedBits w = if w.getLsbD 11 then w else w &&& 0xF9C0 := by
  rw [withFixedBits, h]; rfl

theorem withFixedBits_jmp (h : w.extractLsb' 12 4 = 0b1100#4) :
    withFixedBits w = w &&& 0xF1C0 := by
  rw [withFixedBits, h]; rfl

theorem withFixedBits_rti (h : w.extractLsb' 12 4 = 0b1000#4) :
    withFixedBits w = w &&& 0xF000 := by
  rw [withFixedBits, h]; rfl

theorem withFixedBits_not (h : w.extractLsb' 12 4 = 0b1001#4) :
    withFixedBits w = w ||| 0x003F := by
  rw [withFixedBits, h]; rfl

theorem withFixedBits_trap (h : w.extractLsb' 12 4 = 0b1111#4) :
    withFixedBits w = w &&& 0xF0FF := by
  rw [withFixedBits, h]; rfl

end

end Sys2Proof
end

section
/-! SUPPORT. The rows' masks and the fixed bits are compared bit by bit: a word decodes exactly where it
violates no fixed field, which is where putting the fixed bits right changes nothing (spec/30_encoding.md
R84, R100). -/

namespace Sys2Proof

open Sys2Proof.Machine

/-- Equality place by place. The places are a list, so that `simp` writes out one equation for each
(with `List.range_succ`, and with `List.mem_range` off, which would make them a bound again). -/
theorem eq_iff_bits {n : Nat} (x y : BitVec n) :
    x = y ↔ ∀ i ∈ List.range n, x.getLsbD i = y.getLsbD i := by
  rw [BitVec.eq_of_getLsbD_eq_iff]
  simp only [List.mem_range]

theorem fieldBase_eq_iff (w : Word) (r : Reg) : fieldBase w = r ↔ w.extractLsb' 6 3 = r.bits :=
  ⟨fun h => by rw [← h, fieldBase, Reg.bits_ofBits], fun h => by rw [fieldBase, h, Reg.ofBits_bits]⟩

section
variable {w : Word} {op : BitVec 4}

/-- Within its opcode, a row's mask compares bits 11:0 alone. -/
theorem masked_eq_iff_of_opcode (h : w.extractLsb' 12 4 = op) (mask pattern : BitVec 12) :
    w &&& (0b1111#4 ++ mask) = op ++ pattern ↔ w.extractLsb' 0 12 &&& mask = pattern := by
  have hw : w.extractLsb' 12 4 ++ w.extractLsb' 0 12 = w := by
    simp only [BitVec.extractLsb'_append_extractLsb'_eq_extractLsb', extract_all]
  have hop : op &&& 0b1111#4 = op := BitVec.and_allOnes
  conv_lhs => rw [← hw, h, BitVec.and_append, hop]
  exact BitVec.append_right_inj op

/-! ### Which words of its opcode a row accepts -/

theorem registerForm_accepts_iff (h : w.extractLsb' 12 4 = op) :
    w &&& (0b1111#4 ++ 0x038#12) = op ++ 0x000#12 ↔
      w.extractLsb' 3 2 = 0b00#2 ∧ w.getLsbD 5 = false := by
  rw [masked_eq_iff_of_opcode h]
  simp [eq_iff_bits, List.range_succ, and_assoc, -List.mem_range]

theorem immediateForm_accepts_iff (h : w.extractLsb' 12 4 = op) :
    w &&& (0b1111#4 ++ 0x020#12) = op ++ 0x020#12 ↔ w.getLsbD 5 = true := by
  rw [masked_eq_iff_of_opcode h]
  simp [eq_iff_bits, List.range_succ, -List.mem_range]

theorem jsr_accepts_iff (h : w.extractLsb' 12 4 = op) :
    w &&& (0b1111#4 ++ 0x800#12) = op ++ 0x800#12 ↔ w.getLsbD 11 = true := by
  rw [masked_eq_iff_of_opcode h]
  simp [eq_iff_bits, List.range_succ, -List.mem_range]

theorem jsrr_accepts_iff (h : w.extractLsb' 12 4 = op) :
    w &&& (0b1111#4 ++ 0xE3F#12) = op ++ 0x000#12 ↔
      w.extractLsb' 0 6 = 0b000000#6 ∧ w.extractLsb' 9 2 = 0b00#2 ∧ w.getLsbD 11 = false := by
  rw [masked_eq_iff_of_opcode h]
  simp [eq_iff_bits, List.range_succ, and_assoc, -List.mem_range]

theorem jmp_accepts_iff (h : w.extractLsb' 12 4 = op) :
    w &&& (0b1111#4 ++ 0xE3F#12) = op ++ 0x000#12 ↔
      w.extractLsb' 0 6 = 0b000000#6 ∧ w.extractLsb' 9 3 = 0b000#3 := by
  rw [masked_eq_iff_of_opcode h]
  simp [eq_iff_bits, List.range_succ, and_assoc, -List.mem_range]

theorem ret_accepts_iff (h : w.extractLsb' 12 4 = op) :
    w &&& (0b1111#4 ++ 0xFFF#12) = op ++ 0x1C0#12 ↔
      w.extractLsb' 0 6 = 0b000000#6 ∧ fieldBase w = .r7 ∧ w.extractLsb' 9 3 = 0b000#3 := by
  rw [masked_eq_iff_of_opcode h, fieldBase_eq_iff]
  simp [Reg.bits, eq_iff_bits, List.range_succ, and_assoc, -List.mem_range]

theorem rti_accepts_iff (h : w.extractLsb' 12 4 = op) :
    w &&& (0b1111#4 ++ 0xFFF#12) = op ++ 0x000#12 ↔ w.extractLsb' 0 12 = 0#12 :=
  (masked_eq_iff_of_opcode h _ _).trans (Eq.congr_left BitVec.and_allOnes)

theorem not_accepts_iff (h : w.extractLsb' 12 4 = op) :
    w &&& (0b1111#4 ++ 0x03F#12) = op ++ 0x03F#12 ↔ w.extractLsb' 0 6 = 0b111111#6 := by
  rw [masked_eq_iff_of_opcode h]
  simp [eq_iff_bits, List.range_succ, -List.mem_range]

theorem trap_accepts_iff (h : w.extractLsb' 12 4 = op) :
    w &&& (0b1111#4 ++ 0xF00#12) = op ++ 0x000#12 ↔ w.extractLsb' 8 4 = 0b0000#4 := by
  rw [masked_eq_iff_of_opcode h]
  simp [eq_iff_bits, List.range_succ, -List.mem_range]

/-! ### Where putting the fixed bits right changes nothing -/

theorem clear_registerForm_eq_self_iff : w &&& 0xFFE7 = w ↔ w.extractLsb' 3 2 = 0b00#2 := by
  simp [eq_iff_bits, List.range_succ, -List.mem_range]

theorem clear_jsrr_eq_self_iff :
    w &&& 0xF9C0 = w ↔ w.extractLsb' 0 6 = 0b000000#6 ∧ w.extractLsb' 9 2 = 0b00#2 := by
  simp [eq_iff_bits, List.range_succ, and_assoc, -List.mem_range]

theorem clear_jmp_eq_self_iff :
    w &&& 0xF1C0 = w ↔ w.extractLsb' 0 6 = 0b000000#6 ∧ w.extractLsb' 9 3 = 0b000#3 := by
  simp [eq_iff_bits, List.range_succ, and_assoc, -List.mem_range]

theorem clear_rti_eq_self_iff : w &&& 0xF000 = w ↔ w.extractLsb' 0 12 = 0#12 := by
  simp [eq_iff_bits, List.range_succ, -List.mem_range]

theorem set_not_eq_self_iff : w ||| 0x003F = w ↔ w.extractLsb' 0 6 = 0b111111#6 := by
  simp [eq_iff_bits, List.range_succ, -List.mem_range]

theorem clear_trap_eq_self_iff : w &&& 0xF0FF = w ↔ w.extractLsb' 8 4 = 0b0000#4 := by
  simp [eq_iff_bits, List.range_succ, -List.mem_range]

end

/-- Putting a word's fixed bits right leaves exactly the words that violate none of them. -/
theorem withFixedBits_eq_self_iff (w : Word) :
    withFixedBits w = w ↔ fixedFieldViolation w = false := by
  cases hop : w.extractLsb' 12 4 using opcode_cases with
  | br | ldb | stb | ldr | str | ldi | sti | shf | lea =>
    simp [withFixedBits, fixedFieldViolation, hop]
  | add | and =>
    rw [withFixedBits_addAnd (by simp [hop]), fixedFieldViolation_addAnd (by simp [hop])]
    cases w.getLsbD 5 with
    | true => simp
    | false => simpa using clear_registerForm_eq_self_iff
  | jsr =>
    rw [withFixedBits_jsr hop, fixedFieldViolation_jsr hop]
    cases w.getLsbD 11 with
    | true => simp
    | false => simpa using clear_jsrr_eq_self_iff
  | jmp => rw [withFixedBits_jmp hop, fixedFieldViolation_jmp hop, clear_jmp_eq_self_iff]
  | rti => rw [withFixedBits_rti hop, fixedFieldViolation_rti hop, clear_rti_eq_self_iff]
  | not => rw [withFixedBits_not hop, fixedFieldViolation_not hop, set_not_eq_self_iff]
  | trap => rw [withFixedBits_trap hop, fixedFieldViolation_trap hop, clear_trap_eq_self_iff]

/-- The search of the table, said without it: the row of the opcode and the mode bit answers, unless one of
its fixed fields is violated. -/
theorem decode_eq_ite (w : Word) : decode w =
    if fixedFieldViolation w = false then .ok (decodeIgnoringBits w)
    else .error (.reservedEncoding (decodeIgnoringBits w).mnemonic) := by
  cases hop : w.extractLsb' 12 4 using opcode_cases with
  | br => simp [decode_br w hop, decodeIgnoringBits_br hop, fixedFieldViolation, hop]
  | ldb => simp [decode_ldb w hop, decodeIgnoringBits_ldb hop, fixedFieldViolation, hop]
  | stb => simp [decode_stb w hop, decodeIgnoringBits_stb hop, fixedFieldViolation, hop]
  | ldr => simp [decode_ldr w hop, decodeIgnoringBits_ldr hop, fixedFieldViolation, hop]
  | str => simp [decode_str w hop, decodeIgnoringBits_str hop, fixedFieldViolation, hop]
  | ldi => simp [decode_ldi w hop, decodeIgnoringBits_ldi hop, fixedFieldViolation, hop]
  | sti => simp [decode_sti w hop, decodeIgnoringBits_sti hop, fixedFieldViolation, hop]
  | shf => simp [decode_shf w hop, decodeIgnoringBits_shf hop, fixedFieldViolation, hop]
  | lea => simp [decode_lea w hop, decodeIgnoringBits_lea hop, fixedFieldViolation, hop]
  | add =>
    have hreg : w &&& 0xF038 = 0x1000 ↔ _ := registerForm_accepts_iff hop
    have himm : w &&& 0xF020 = 0x1020 ↔ _ := immediateForm_accepts_iff hop
    rw [decode_add w hop, decodeIgnoringBits_add hop]
    simp only [hreg, himm, fixedFieldViolation_addAnd (.inl hop)]
    cases w.getLsbD 5 <;> simp
  | and =>
    have hreg : w &&& 0xF038 = 0x5000 ↔ _ := registerForm_accepts_iff hop
    have himm : w &&& 0xF020 = 0x5020 ↔ _ := immediateForm_accepts_iff hop
    rw [decode_and w hop, decodeIgnoringBits_and hop]
    simp only [hreg, himm, fixedFieldViolation_addAnd (.inr hop)]
    cases w.getLsbD 5 <;> simp
  | jsr =>
    have hjsr : w &&& 0xF800 = 0x4800 ↔ _ := jsr_accepts_iff hop
    have hjsrr : w &&& 0xFE3F = 0x4000 ↔ _ := jsrr_accepts_iff hop
    rw [decode_jsr w hop, decodeIgnoringBits_jsr hop]
    simp only [hjsr, hjsrr, fixedFieldViolation_jsr hop]
    cases w.getLsbD 11 <;> simp
  | jmp =>
    have hret : w &&& 0xFFFF = 0xC1C0 ↔ _ := ret_accepts_iff hop
    have hjmp : w &&& 0xFE3F = 0xC000 ↔ _ := jmp_accepts_iff hop
    rw [decode_jmp w hop, decodeIgnoringBits_jmp hop]
    simp only [hret, hjmp, fixedFieldViolation_jmp hop]
    by_cases hbase : fieldBase w = .r7
    · simp only [hbase, true_and, if_true]
      split_ifs <;> rfl
    · simp only [hbase, false_and, and_false, if_false]
  | rti =>
    have hrti : w &&& 0xFFFF = 0x8000 ↔ _ := rti_accepts_iff hop
    rw [decode_rti w hop, decodeIgnoringBits_rti hop]
    simp only [hrti, fixedFieldViolation_rti hop]
  | not =>
    have hnot : w &&& 0xF03F = 0x903F ↔ _ := not_accepts_iff hop
    rw [decode_not w hop, decodeIgnoringBits_not hop]
    simp only [hnot, fixedFieldViolation_not hop]
  | trap =>
    have htrap : w &&& 0xFF00 = 0xF000 ↔ _ := trap_accepts_iff hop
    rw [decode_trap w hop, decodeIgnoringBits_trap hop]
    simp only [htrap, fixedFieldViolation_trap hop]

/-- The decoder answers exactly the row read without its fixed bits, on the words that violate none. -/
theorem decode_eq_ok_iff {w : Word} {i : Instr} :
    decode w = .ok i ↔ fixedFieldViolation w = false ∧ decodeIgnoringBits w = i := by
  rw [decode_eq_ite]
  cases fixedFieldViolation w <;> simp

theorem exists_decode_eq_error_iff (w : Word) :
    (∃ e, decode w = .error e) ↔ fixedFieldViolation w = true := by
  rw [decode_eq_ite]
  cases fixedFieldViolation w <;> simp

end Sys2Proof
end

section
/-! SUPPORT. Encoding undoes decoding: the fields of a word, put together again, are the word with its fixed
bits put right (spec/30_encoding.md R82, R84, R86). -/

namespace Sys2Proof

open Sys2Proof.Machine

section
variable {w : Word} {op : BitVec 4}

/-- One bit as a field. -/
theorem ofBool_getLsbD {n : Nat} (x : BitVec n) (k : Nat) :
    BitVec.ofBool (x.getLsbD k) = x.extractLsb' k 1 := by
  apply BitVec.eq_of_getLsbD_eq
  intro i hi
  interval_cases i
  simp

/-! ### The fields of a word, put together again

Where a fixed field stands between them the words are compared bit by bit. `simp` leaves the widths as the sums
they are (`-Nat.reduceAdd`), so that the rules about the bits of an append apply. -/

theorem encodeDRBase_fields (h : w.extractLsb' 12 4 = op) :
    encodeDRBase op (fieldDR w) (fieldBase w) (w.extractLsb' 0 6) = w := by
  simp only [encodeDRBase, fieldDR, fieldBase, Reg.bits_ofBits, ← h,
    BitVec.extractLsb'_append_extractLsb'_eq_extractLsb', extract_all]

theorem encodeDRBase_immediateForm (h : w.extractLsb' 12 4 = op) (hmode : w.getLsbD 5 = true) :
    encodeDRBase op (fieldDR w) (fieldBase w) (0b1#1 ++ w.extractLsb' 0 5) = w := by
  have hbit : 0b1#1 = w.extractLsb' 5 1 := by rw [← ofBool_getLsbD, hmode]; rfl
  have hlow : 0b1#1 ++ w.extractLsb' 0 5 = w.extractLsb' 0 6 := by
    rw [hbit]
    exact BitVec.extractLsb'_append_extractLsb'_eq_extractLsb' rfl
  rw [hlow, encodeDRBase_fields h]

theorem encodeDRBase_registerForm (h : w.extractLsb' 12 4 = op) (hmode : w.getLsbD 5 = false) :
    encodeDRBase op (fieldDR w) (fieldBase w) (0b000#3 ++ (fieldSR2 w).bits) = w &&& 0xFFE7 := by
  simp only [encodeDRBase, fieldDR, fieldBase, fieldSR2, Reg.bits_ofBits, ← h]
  apply BitVec.eq_of_getLsbD_eq
  intro i hi
  interval_cases i <;>
    simp [BitVec.getLsbD_append, hmode, -Nat.reduceAdd, -BitVec.getLsbD_eq_getElem]

/-- JMP and JSRR name a base register alone: bits 11:9 and 5:0 of their words are 0. -/
theorem encodeDRBase_base_alone (h : w.extractLsb' 12 4 = op) :
    encodeDRBase op .r0 (fieldBase w) 0b000000#6 = w &&& 0xF1C0 := by
  have hzero : Reg.r0.bits = 0b000#3 := rfl
  simp only [encodeDRBase, fieldBase, Reg.bits_ofBits, hzero, ← h]
  apply BitVec.eq_of_getLsbD_eq
  intro i hi
  interval_cases i <;> simp [BitVec.getLsbD_append, -Nat.reduceAdd, -BitVec.getLsbD_eq_getElem]

theorem encodeDRBase_not (h : w.extractLsb' 12 4 = op) :
    encodeDRBase op (fieldDR w) (fieldBase w) 0b111111#6 = w ||| 0x003F := by
  simp only [encodeDRBase, fieldDR, fieldBase, Reg.bits_ofBits, ← h]
  apply BitVec.eq_of_getLsbD_eq
  intro i hi
  interval_cases i <;> simp [BitVec.getLsbD_append, -Nat.reduceAdd, -BitVec.getLsbD_eq_getElem]

theorem clear_trap_eq_append (w : Word) :
    w &&& 0xF0FF = w.extractLsb' 12 4 ++ 0b0000#4 ++ w.extractLsb' 0 8 := by
  apply BitVec.eq_of_getLsbD_eq
  intro i hi
  interval_cases i <;> simp [BitVec.getLsbD_append, -Nat.reduceAdd, -BitVec.getLsbD_eq_getElem]

theorem clear_jmp_eq_clear_jsrr (hmode : w.getLsbD 11 = false) : w &&& 0xF1C0 = w &&& 0xF9C0 := by
  simpa [eq_iff_bits, List.range_succ, -List.mem_range] using hmode

end

theorem encode_jmp (base : Reg) : encode (.jmp base) = encodeDRBase 0b1100 .r0 base 0b000000 := rfl

theorem encode_jsrr (base : Reg) : encode (.jsrr base) = encodeDRBase 0b0100 .r0 base 0b000000 := by
  cases base <;> rfl

/-- The word of the row read without its fixed bits is the word with those bits put right. -/
theorem encode_decodeIgnoringBits (w : Word) : encode (decodeIgnoringBits w) = withFixedBits w := by
  cases hop : w.extractLsb' 12 4 using opcode_cases with
  | ldb =>
    rw [decodeIgnoringBits_ldb hop]
    simpa [withFixedBits, hop, encode] using encodeDRBase_fields hop
  | stb =>
    rw [decodeIgnoringBits_stb hop]
    simpa [withFixedBits, hop, encode] using encodeDRBase_fields hop
  | ldr =>
    rw [decodeIgnoringBits_ldr hop]
    simpa [withFixedBits, hop, encode] using encodeDRBase_fields hop
  | str =>
    rw [decodeIgnoringBits_str hop]
    simpa [withFixedBits, hop, encode] using encodeDRBase_fields hop
  | ldi =>
    rw [decodeIgnoringBits_ldi hop]
    simpa [withFixedBits, hop, encode] using encodeDRBase_fields hop
  | sti =>
    rw [decodeIgnoringBits_sti hop]
    simpa [withFixedBits, hop, encode] using encodeDRBase_fields hop
  | shf =>
    rw [decodeIgnoringBits_shf hop]
    simp only [encode, ofBool_getLsbD, BitVec.extractLsb'_append_extractLsb'_eq_extractLsb']
    simpa [withFixedBits, hop] using encodeDRBase_fields hop
  | br =>
    rw [decodeIgnoringBits_br hop]
    simp only [encode, ofBool_getLsbD, ← hop,
      BitVec.extractLsb'_append_extractLsb'_eq_extractLsb', extract_all]
    simp [withFixedBits, hop]
  | lea =>
    rw [decodeIgnoringBits_lea hop]
    simp only [encode, fieldDR, Reg.bits_ofBits, ← hop,
      BitVec.extractLsb'_append_extractLsb'_eq_extractLsb', extract_all]
    simp [withFixedBits, hop]
  | add =>
    rw [decodeIgnoringBits_add hop, withFixedBits_addAnd (.inl hop)]
    cases hmode : w.getLsbD 5 with
    | true => exact encodeDRBase_immediateForm hop hmode
    | false => exact encodeDRBase_registerForm hop hmode
  | and =>
    rw [decodeIgnoringBits_and hop, withFixedBits_addAnd (.inr hop)]
    cases hmode : w.getLsbD 5 with
    | true => exact encodeDRBase_immediateForm hop hmode
    | false => exact encodeDRBase_registerForm hop hmode
  | jsr =>
    rw [decodeIgnoringBits_jsr hop, withFixedBits_jsr hop]
    cases hmode : w.getLsbD 11 with
    | true =>
      have hbit : 0b1#1 = w.extractLsb' 11 1 := by rw [← ofBool_getLsbD, hmode]; rfl
      simp only [if_true, encode, ← hop, hbit,
        BitVec.extractLsb'_append_extractLsb'_eq_extractLsb', extract_all]
    | false =>
      simp only [Bool.false_eq_true, if_false, encode_jsrr]
      exact (encodeDRBase_base_alone hop).trans (clear_jmp_eq_clear_jsrr hmode)
  | jmp =>
    have hjmp : encode (.jmp (fieldBase w)) = w &&& 0xF1C0 := encodeDRBase_base_alone hop
    rw [decodeIgnoringBits_jmp hop, withFixedBits_jmp hop, ← hjmp]
    split_ifs with hbase
    · rw [hbase]; rfl
    · rfl
  | rti => rw [decodeIgnoringBits_rti hop, withFixedBits_rti hop, and_opcode_mask, hop]; rfl
  | not =>
    rw [decodeIgnoringBits_not hop, withFixedBits_not hop]
    exact encodeDRBase_not hop
  | trap => rw [decodeIgnoringBits_trap hop, withFixedBits_trap hop, clear_trap_eq_append, hop]; rfl

/-- The row read is one of the word's opcode (R85, R87). -/
theorem decodeIgnoringBits_opcode (w : Word) :
    (decodeIgnoringBits w).opcode = w.extractLsb' 12 4 := by
  cases hop : w.extractLsb' 12 4 using opcode_cases with
  | br => rw [decodeIgnoringBits_br hop]; rfl
  | ldb => rw [decodeIgnoringBits_ldb hop]; rfl
  | stb => rw [decodeIgnoringBits_stb hop]; rfl
  | ldr => rw [decodeIgnoringBits_ldr hop]; rfl
  | str => rw [decodeIgnoringBits_str hop]; rfl
  | rti => rw [decodeIgnoringBits_rti hop]; rfl
  | not => rw [decodeIgnoringBits_not hop]; rfl
  | ldi => rw [decodeIgnoringBits_ldi hop]; rfl
  | sti => rw [decodeIgnoringBits_sti hop]; rfl
  | shf => rw [decodeIgnoringBits_shf hop]; rfl
  | lea => rw [decodeIgnoringBits_lea hop]; rfl
  | trap => rw [decodeIgnoringBits_trap hop]; rfl
  | add => rw [decodeIgnoringBits_add hop]; split_ifs <;> rfl
  | and => rw [decodeIgnoringBits_and hop]; split_ifs <;> rfl
  | jsr => rw [decodeIgnoringBits_jsr hop]; split_ifs <;> rfl
  | jmp => rw [decodeIgnoringBits_jmp hop]; split_ifs <;> rfl

theorem wellFormed_jmp {base : Reg} (h : base ≠ .r7) : (Instr.jmp base).wellFormed = true := by
  cases base with
  | r7 => exact absurd rfl h
  | _ => rfl

/-- JMP's row is read with a base other than R7, whose word is RET's (R86). -/
theorem decodeIgnoringBits_wellFormed (w : Word) : (decodeIgnoringBits w).wellFormed = true := by
  cases hop : w.extractLsb' 12 4 using opcode_cases with
  | br => rw [decodeIgnoringBits_br hop]; rfl
  | ldb => rw [decodeIgnoringBits_ldb hop]; rfl
  | stb => rw [decodeIgnoringBits_stb hop]; rfl
  | ldr => rw [decodeIgnoringBits_ldr hop]; rfl
  | str => rw [decodeIgnoringBits_str hop]; rfl
  | rti => rw [decodeIgnoringBits_rti hop]; rfl
  | not => rw [decodeIgnoringBits_not hop]; rfl
  | ldi => rw [decodeIgnoringBits_ldi hop]; rfl
  | sti => rw [decodeIgnoringBits_sti hop]; rfl
  | shf => rw [decodeIgnoringBits_shf hop]; rfl
  | lea => rw [decodeIgnoringBits_lea hop]; rfl
  | trap => rw [decodeIgnoringBits_trap hop]; rfl
  | add => rw [decodeIgnoringBits_add hop]; split_ifs <;> rfl
  | and => rw [decodeIgnoringBits_and hop]; split_ifs <;> rfl
  | jsr => rw [decodeIgnoringBits_jsr hop]; split_ifs <;> rfl
  | jmp =>
    rw [decodeIgnoringBits_jmp hop]
    split_ifs with hbase
    · rfl
    · exact wellFormed_jmp hbase

end Sys2Proof
end

section
/-! SUPPORT. Decoding undoes encoding: the fields of an instruction's word are its operands
(spec/30_encoding.md R82). -/

namespace Sys2Proof

open Sys2Proof.Machine

/-- Bits 15:12 of an instruction's word, for every instruction (R87). -/
theorem encode_opcode (i : Instr) : (encode i).extractLsb' 12 4 = i.opcode := by
  cases i with
  | addReg => exact Laws.OpcodeField.addReg ..
  | addImm => exact Laws.OpcodeField.addImm ..
  | andReg => exact Laws.OpcodeField.andReg ..
  | andImm => exact Laws.OpcodeField.andImm ..
  | br => exact Laws.OpcodeField.br ..
  | ret => exact Laws.OpcodeField.ret
  | jmp => exact Laws.OpcodeField.jmp ..
  | jsr => exact Laws.OpcodeField.jsr ..
  | jsrr => exact Laws.OpcodeField.jsrr ..
  | ldb => exact Laws.OpcodeField.ldb ..
  | ldi => exact Laws.OpcodeField.ldi ..
  | ldr => exact Laws.OpcodeField.ldr ..
  | lea => exact Laws.OpcodeField.lea ..
  | not => exact Laws.OpcodeField.not ..
  | rti => exact Laws.OpcodeField.rti
  | shf => exact Laws.OpcodeField.shf ..
  | stb => exact Laws.OpcodeField.stb ..
  | sti => exact Laws.OpcodeField.sti ..
  | str => exact Laws.OpcodeField.str ..
  | trap => exact Laws.OpcodeField.trap ..

section
variable (op : BitVec 4) (dr base sr2 : Reg) (low : BitVec 6) (imm5 : BitVec 5)

@[simp] theorem fieldDR_encodeDRBase : fieldDR (encodeDRBase op dr base low) = dr := by
  rw [fieldDR, encodeDRBase_dr, Reg.ofBits_bits]

@[simp] theorem fieldBase_encodeDRBase : fieldBase (encodeDRBase op dr base low) = base := by
  rw [fieldBase, encodeDRBase_base, Reg.ofBits_bits]

theorem encodeDRBase_extract_low {lo len : Nat} (h : lo + len ≤ 6) :
    (encodeDRBase op dr base low).extractLsb' lo len = low.extractLsb' lo len :=
  extract_append_low (op ++ dr.bits ++ base.bits) low lo len h

theorem encodeDRBase_getLsbD_low {k : Nat} (h : k < 6) :
    (encodeDRBase op dr base low).getLsbD k = low.getLsbD k := by
  have hbit := encodeDRBase_extract_low op dr base low (lo := k) (len := 1) (by omega)
  simpa using congrArg (BitVec.getLsbD · 0) hbit

theorem registerForm_modeBit :
    (encodeDRBase op dr base (0b000#3 ++ sr2.bits)).getLsbD 5 = false := by
  rw [encodeDRBase_getLsbD_low _ _ _ _ (by omega), BitVec.getLsbD_append]
  rfl

theorem registerForm_fieldSR2 : fieldSR2 (encodeDRBase op dr base (0b000#3 ++ sr2.bits)) = sr2 := by
  rw [fieldSR2, encodeDRBase_extract_low _ _ _ _ (by omega), BitVec.extractLsb'_append_eq_right,
    Reg.ofBits_bits]

theorem immediateForm_modeBit : (encodeDRBase op dr base (0b1#1 ++ imm5)).getLsbD 5 = true := by
  rw [encodeDRBase_getLsbD_low _ _ _ _ (by omega), BitVec.getLsbD_append]
  rfl

theorem immediateForm_imm5 : (encodeDRBase op dr base (0b1#1 ++ imm5)).extractLsb' 0 5 = imm5 := by
  rw [encodeDRBase_extract_low _ _ _ _ (by omega), BitVec.extractLsb'_append_eq_right]

end

/-- The row an instruction's word selects reads the instruction's own operands. -/
theorem decodeIgnoringBits_encode {i : Instr} (hwf : i.wellFormed = true) :
    decodeIgnoringBits (encode i) = i := by
  have hop := encode_opcode i
  cases i with
  | addReg =>
    rw [decodeIgnoringBits_add hop]
    simp only [encode, registerForm_modeBit, registerForm_fieldSR2, fieldDR_encodeDRBase,
      fieldBase_encodeDRBase, Bool.false_eq_true, if_false]
  | andReg =>
    rw [decodeIgnoringBits_and hop]
    simp only [encode, registerForm_modeBit, registerForm_fieldSR2, fieldDR_encodeDRBase,
      fieldBase_encodeDRBase, Bool.false_eq_true, if_false]
  | addImm =>
    rw [decodeIgnoringBits_add hop]
    simp only [encode, immediateForm_modeBit, immediateForm_imm5, fieldDR_encodeDRBase,
      fieldBase_encodeDRBase, if_true]
  | andImm =>
    rw [decodeIgnoringBits_and hop]
    simp only [encode, immediateForm_modeBit, immediateForm_imm5, fieldDR_encodeDRBase,
      fieldBase_encodeDRBase, if_true]
  | br =>
    rw [decodeIgnoringBits_br hop]
    simp [encode, BitVec.getLsbD_append, BitVec.extractLsb'_append_eq_right, -Nat.reduceAdd,
      -BitVec.getLsbD_eq_getElem]
  | ret => rfl
  | jmp base =>
    have hbase : base ≠ .r7 := by rintro rfl; exact absurd hwf (by decide)
    rw [decodeIgnoringBits_jmp hop]
    simp only [encode_jmp, fieldBase_encodeDRBase, hbase, if_false]
  | jsr =>
    rw [decodeIgnoringBits_jsr hop]
    simp [encode, BitVec.getLsbD_append, BitVec.extractLsb'_append_eq_right, -Nat.reduceAdd,
      -BitVec.getLsbD_eq_getElem]
  | jsrr base =>
    have hmode : (encode (.jsrr base)).getLsbD 11 = false := by cases base <;> rfl
    rw [decodeIgnoringBits_jsr hop, hmode, encode_jsrr, fieldBase_encodeDRBase]
    rfl
  | ldb => rw [decodeIgnoringBits_ldb hop]; simp [encode, encodeDRBase_low]
  | ldi => rw [decodeIgnoringBits_ldi hop]; simp [encode, encodeDRBase_low]
  | ldr => rw [decodeIgnoringBits_ldr hop]; simp [encode, encodeDRBase_low]
  | stb => rw [decodeIgnoringBits_stb hop]; simp [encode, encodeDRBase_low]
  | sti => rw [decodeIgnoringBits_sti hop]; simp [encode, encodeDRBase_low]
  | str => rw [decodeIgnoringBits_str hop]; simp [encode, encodeDRBase_low]
  | lea dr off =>
    have hdr : (encode (.lea dr off)).extractLsb' 9 3 = dr.bits :=
      (extract_append_high (0b1110#4 ++ dr.bits) off 9 3 (by omega)).trans
        BitVec.extractLsb'_append_eq_right
    have hoff : (encode (.lea dr off)).extractLsb' 0 9 = off := BitVec.extractLsb'_append_eq_right
    rw [decodeIgnoringBits_lea hop, fieldDR, hdr, hoff, Reg.ofBits_bits]
  | not => rw [decodeIgnoringBits_not hop]; simp [encode]
  | rti => rfl
  | shf =>
    rw [decodeIgnoringBits_shf hop]
    simp [encode, encodeDRBase_getLsbD_low, encodeDRBase_extract_low, BitVec.getLsbD_append,
      BitVec.extractLsb'_append_eq_right, -Nat.reduceAdd, -BitVec.getLsbD_eq_getElem]
  | trap v =>
    have hv : (encode (.trap v)).extractLsb' 0 8 = v := BitVec.extractLsb'_append_eq_right
    rw [decodeIgnoringBits_trap hop, hv]

/-- An instruction's word has its fixed bits right. -/
theorem withFixedBits_encode {i : Instr} (hwf : i.wellFormed = true) :
    withFixedBits (encode i) = encode i := by
  rw [← encode_decodeIgnoringBits, decodeIgnoringBits_encode hwf]

theorem decode_encode {i : Instr} (hwf : i.wellFormed = true) : decode (encode i) = .ok i :=
  decode_eq_ok_iff.mpr ⟨(withFixedBits_eq_self_iff _).mp (withFixedBits_encode hwf),
    decodeIgnoringBits_encode hwf⟩

end Sys2Proof
end

section
/-! SUPPORT. The obligations about encoding and operand forms (spec/30_encoding.md). -/

namespace Sys2Proof

open Sys2Proof.Machine

/-- Settles O1: the word has its fixed bits right, and the row it selects reads the operands back. -/
theorem decodeOfEncode : Obligations.DecodeOfEncode := by
  unfold Obligations.DecodeOfEncode
  exact fun _ hwf => decode_encode hwf

/-- Settles O2: where no fixed field is violated, the fields of the word put together again are the word. -/
theorem encodeOfDecode : Obligations.EncodeOfDecode := by
  unfold Obligations.EncodeOfDecode
  intro w i hdecode
  obtain ⟨hfixed, rfl⟩ := decode_eq_ok_iff.mp hdecode
  have hword : withFixedBits w = w := (withFixedBits_eq_self_iff w).mpr hfixed
  exact ⟨(encode_decodeIgnoringBits w).trans hword, decodeIgnoringBits_wellFormed w⟩

/-- Settles O3, by the rows' masks opcode by opcode (`decode_eq_ite`). -/
theorem rejectedWordsViolateFixedFields : Obligations.RejectedWordsViolateFixedFields := by
  unfold Obligations.RejectedWordsViolateFixedFields
  exact exists_decode_eq_error_iff

/-- Settles O4: the row read without its fixed bits is the well-formed instruction whose word is `w` with
those bits put right, so `decode_encode` says what `refuse` reads from that word. -/
theorem ignoreBitsExtendsTheDecoder : Obligations.IgnoreBitsExtendsTheDecoder := by
  unfold Obligations.IgnoreBitsExtendsTheDecoder
  intro w
  have hwf : (decodeIgnoringBits w).wellFormed = true := decodeIgnoringBits_wellFormed w
  have hencode : encode (decodeIgnoringBits w) = withFixedBits w := encode_decodeIgnoringBits w
  have hrefuse : decode (withFixedBits w) = .ok (decodeIgnoringBits w) :=
    hencode ▸ decode_encode hwf
  refine ⟨⟨decodeIgnoringBits w, rfl, decodeIgnoringBits_opcode w, hwf, hencode, hrefuse,
    fun j hj => (decode_eq_ok_iff.mp hj).2.symm⟩, fun hw => ⟨_, hw ▸ hrefuse⟩, ?_⟩
  rintro ⟨j, hj⟩
  exact (withFixedBits_eq_self_iff w).mpr (decode_eq_ok_iff.mp hj).1

/-- Settles O6, for a field of any width: the distance has a half in the field's range. -/
theorem labelFieldReachesTheLabel : Obligations.LabelFieldReachesTheLabel := by
  unfold Obligations.LabelFieldReachesTheLabel
  intro s label
  exact ⟨labelField_eq_some_iff (by decide), exists_labelField_iff (by decide),
    fun f => s.pcRelative_labelField (by decide), labelField_eq_some_iff (by decide),
    exists_labelField_iff (by decide), fun f => s.pcRelative_labelField (by decide)⟩

/-- Settles O7: sign extension keeps the signed number, and the shift doubles it. -/
theorem operandFormsExtendThenScale : Obligations.OperandFormsExtendThenScale := by
  unfold Obligations.OperandFormsExtendThenScale
  exact ⟨fun imm5 => sext16_eq_ofInt imm5,
    fun s base off => ⟨s.eaByte_eq_ofInt base off, s.eaWord_eq_ofInt base off⟩,
    fun s off => s.pcRelative_eq_ofInt off, fun s off => s.pcRelative_eq_ofInt off, trapEntry_toNat⟩

end Sys2Proof
end

section
/-! SUPPORT. ADD and AND: the words field by field, what `exec` makes of each form, and the immediate's bits
(spec/40_operate.md R110 to R113). -/

namespace Sys2Proof

open Sys2Proof.Machine

section
variable (op : BitVec 4) (dr sr1 sr2 : Reg) (imm5 : BitVec 5)

/-- A register form's word with the fields of R84 appended one after another. -/
theorem encodeDRBase_registerForm_eq_append :
    encodeDRBase op dr sr1 (0b000#3 ++ sr2.bits) =
      op ++ dr.bits ++ sr1.bits ++ 0b000#3 ++ sr2.bits :=
  BitVec.append_assoc'

/-- An immediate form's word with the fields of R84 appended one after another. -/
theorem encodeDRBase_immediateForm_eq_append :
    encodeDRBase op dr sr1 (0b1#1 ++ imm5) = op ++ dr.bits ++ sr1.bits ++ 0b1#1 ++ imm5 :=
  BitVec.append_assoc'

end

namespace Machine

section
variable (dr sr1 sr2 : Reg) (imm5 : BitVec 5) (s : State)

theorem exec_addReg : exec (.addReg dr sr1 sr2) s =
    .next (s.loadResult dr (s.reg sr1 + s.reg sr2)) := rfl

theorem exec_addImm : exec (.addImm dr sr1 imm5) s =
    .next (s.loadResult dr (s.reg sr1 + imm5Value imm5)) := rfl

theorem exec_andReg : exec (.andReg dr sr1 sr2) s =
    .next (s.loadResult dr (s.reg sr1 &&& s.reg sr2)) := rfl

theorem exec_andImm : exec (.andImm dr sr1 imm5) s =
    .next (s.loadResult dr (s.reg sr1 &&& imm5Value imm5)) := rfl

end

/-- Modulo 2^16, adding a sign-extended field adds the field's signed number. -/
theorem add_sext16_eq_ofInt {n : Nat} (x : Word) (v : BitVec n) :
    x + sext16 v = BitVec.ofInt 16 (x.toInt + v.toInt) := by
  rw [BitVec.ofInt_add, BitVec.ofInt_toInt, sext16_eq_ofInt]

/-- Bits 15:5 of a sign-extended imm5 are its bit 4 (R113). -/
theorem imm5Value_getLsbD (imm5 : BitVec 5) {k : Nat} (hk : k < 16) :
    (imm5Value imm5).getLsbD k = imm5.getLsbD (min k 4) := by
  rw [imm5Value, sext16, BitVec.getLsbD_signExtend]
  by_cases hlow : k < 5
  · have hmin : min k 4 = k := by omega
    simp [hk, hlow, hmin]
  · have hmin : min k 4 = 4 := by omega
    simp [hk, hlow, hmin, BitVec.msb_eq_getLsbD_last]

end Machine

end Sys2Proof
end

section
/-! SUPPORT. The obligations about ADD and AND (spec/40_operate.md R110 to R113). -/

namespace Sys2Proof

open Sys2Proof.Machine

/-- Settles O8: the result is the sum of bit vectors, which is the sum of the unsigned numbers modulo 2^16. -/
theorem addRegisterForm : Obligations.AddRegisterForm := by
  unfold Obligations.AddRegisterForm
  intro dr sr1 sr2 s
  have hdecode := decode_encode (i := .addReg dr sr1 sr2) rfl
  rw [encode, encodeDRBase_registerForm_eq_append] at hdecode
  rw [← BitVec.add_def]
  exact ⟨hdecode, _, exec_addReg dr sr1 sr2 s, s.loadResult_writesResult dr _⟩

/-- Settles O9: modulo 2^16 the sign-extended immediate counts as its signed number. -/
theorem addImmediateForm : Obligations.AddImmediateForm := by
  unfold Obligations.AddImmediateForm
  intro dr sr1 imm5 s
  have hdecode := decode_encode (i := .addImm dr sr1 imm5) rfl
  rw [encode, encodeDRBase_immediateForm_eq_append] at hdecode
  rw [← add_sext16_eq_ofInt]
  exact ⟨hdecode, _, exec_addImm dr sr1 imm5 s, s.loadResult_writesResult dr _⟩

/-- Settles O10: the result is the bit vectors' AND, bit by bit. -/
theorem andRegisterForm : Obligations.AndRegisterForm := by
  unfold Obligations.AndRegisterForm
  intro dr sr1 sr2 s
  have hdecode := decode_encode (i := .andReg dr sr1 sr2) rfl
  rw [encode, encodeDRBase_registerForm_eq_append] at hdecode
  exact ⟨hdecode, _, _, exec_andReg dr sr1 sr2 s, s.loadResult_writesResult dr _,
    fun _ _ => BitVec.getLsbD_and⟩

/-- Settles O11: bit `k` of the sign-extended immediate is bit `min k 4` of the field. -/
theorem andImmediateForm : Obligations.AndImmediateForm := by
  unfold Obligations.AndImmediateForm
  intro dr sr1 imm5 s
  have hdecode := decode_encode (i := .andImm dr sr1 imm5) rfl
  rw [encode, encodeDRBase_immediateForm_eq_append] at hdecode
  refine ⟨hdecode, _, _, exec_andImm dr sr1 imm5 s, s.loadResult_writesResult dr _, fun k hk => ?_⟩
  rw [BitVec.getLsbD_and, imm5Value_getLsbD imm5 hk]

end Sys2Proof
end

section
/-! SUPPORT. BR, JMP, RET and JSR: the words with their fixed fields, and the one state each answers
(spec/41_control.md R130 to R133). -/

namespace Sys2Proof

open Sys2Proof.Machine

/-- The word of JMP with bits 15:9 of its row, all fixed, as one field (R131). -/
theorem encode_jmp_eq_append (base : Reg) :
    encode (.jmp base) = 0b1100000#7 ++ base.bits ++ 0b000000#6 := rfl

namespace Machine

/-- BR's condition is that one of the codes it tests is set (R130; spec/10_state.md R28). -/
theorem State.branchTaken_iff (s : State) (n z p : Bool) :
    s.branchTaken n z p = true ↔
      n = true ∧ s.psr.getLsbD 2 = true ∨ z = true ∧ s.psr.getLsbD 1 = true ∨
        p = true ∧ s.psr.getLsbD 0 = true := by
  simp only [State.branchTaken, State.ccN, State.ccZ, State.ccP, Bool.or_eq_true, Bool.and_eq_true,
    or_assoc]

/-- Taken or not, BR is one write of the PC. -/
theorem exec_br (n z p : Bool) (off : BitVec 9) (s : State) : exec (.br n z p off) s =
    .next (s.setPc (if s.branchTaken n z p = true then s.pcRelative off else s.pcInc)) := by
  change execBr n z p off s = _
  unfold execBr
  split <;> rfl

theorem exec_jmp (base : Reg) (s : State) : exec (.jmp base) s = .next (s.setPc (s.reg base)) := rfl

/-- RET does what JMP does with base R7 (R132). -/
theorem exec_ret_eq_exec_jmp (s : State) : exec .ret s = exec (.jmp .r7) s := rfl

theorem exec_jsr (off : BitVec 11) (s : State) : exec (.jsr off) s =
    .next ((s.setReg .r7 s.pcInc).setPc (s.pcRelative off)) := rfl

/-- A jump to the contents of a register drops bit 0 and changes nothing but the PC (R131). -/
theorem exec_jmp_loadsPc (base : Reg) (s : State) :
    ∃ t, exec (.jmp base) s = .next t ∧ t.pc = s.reg base &&& 0xFFFE ∧ FrameBut [] [] s t :=
  ⟨_, exec_jmp base s, rfl, s.setPc_frame _⟩

end Machine

end Sys2Proof
end

section
/-! SUPPORT. The obligations about BR, JMP, RET and JSR (spec/41_control.md R130 to R133). -/

namespace Sys2Proof

open Sys2Proof.Machine

/-- Settles O14: `exec_br` is one write of the PC, to the PC-relative target exactly where a tested code is
set (`State.branchTaken_iff`). -/
theorem brTestsItsCodes : Obligations.BrTestsItsCodes := by
  unfold Obligations.BrTestsItsCodes
  intro n z p off s
  refine ⟨decode_encode (i := .br n z p off) rfl, _, exec_br n z p off s, s.setPc_frame _, ?_⟩
  simp only [State.setPc_pc, alignWord, s.branchTaken_iff, s.pcRelative_eq_ofInt, State.pcInc]

/-- Settles O16: JMP's word is well-formed where its base is not R7, and RET is JMP with that base. -/
theorem jmpAndRetLoadThePc : Obligations.JmpAndRetLoadThePc := by
  unfold Obligations.JmpAndRetLoadThePc
  refine ⟨fun base s => ⟨fun hbase => ?_, exec_jmp_loadsPc base s⟩,
    decode_encode (i := .ret) rfl, fun s => ⟨exec_ret_eq_exec_jmp s, ?_⟩⟩
  · rw [← encode_jmp_eq_append]
    exact decode_encode (wellFormed_jmp hbase)
  · rw [exec_ret_eq_exec_jmp]
    exact exec_jmp_loadsPc .r7 s

/-- Settles O17: the write of R7 is read back past the write of the PC, whose target was computed from the
incremented PC. -/
theorem jsrLinksAndJumps : Obligations.JsrLinksAndJumps := by
  unfold Obligations.JsrLinksAndJumps
  intro off s
  refine ⟨decode_encode (i := .jsr off) rfl, _, exec_jsr off s, ?_, ?_, s.setReg_setPc_frame .r7 _ _⟩
  · rw [State.reg_setPc, State.reg_setReg_same, State.pcInc]
  · rw [State.setPc_pc, alignWord, s.pcRelative_eq_ofInt]

end Sys2Proof
end

section
/-! SUPPORT. LDB, LDR, STB and STR by what their one access answers, and an attached device's answers to byte
reads and to writes (spec/20_memory.md R62; spec/42_load.md R140, R142; spec/43_store.md R150, R152). -/

namespace Sys2Proof.Machine

variable {s t : State}

/-! ### The answers of an attached device; those to word reads are `State.loadWord_answered` and
`State.loadWord_unanswered` -/

section
variable {c c' : Nat} {a : Word} {b : Byte}

theorem State.loadByte_answered (ha : deviceBase ≤ a.toNat) (hd : s.device = .attached c)
    (hanswer : Config.deviceReadByte c a = some (b, c')) :
    s.loadByte a = .ok (b, { s with device := .attached c' }) := by
  simp only [State.loadByte, isDevice_eq_true.mpr ha, if_true, hd, hanswer]

theorem State.loadByte_unanswered (ha : deviceBase ≤ a.toNat) (hd : s.device = .attached c)
    (hanswer : Config.deviceReadByte c a = none) : s.loadByte a = .error .deviceAccess := by
  simp only [State.loadByte, isDevice_eq_true.mpr ha, if_true, hd, hanswer]

theorem State.storeByte_answered (ha : deviceBase ≤ a.toNat) (hd : s.device = .attached c)
    (hanswer : Config.deviceWriteByte c a b = some c') :
    s.storeByte a b = .ok { s with device := .attached c' } := by
  simp only [State.storeByte, isDevice_eq_true.mpr ha, if_true, hd, hanswer]

theorem State.storeByte_unanswered (ha : deviceBase ≤ a.toNat) (hd : s.device = .attached c)
    (hanswer : Config.deviceWriteByte c a b = none) : s.storeByte a b = .error .deviceAccess := by
  simp only [State.storeByte, isDevice_eq_true.mpr ha, if_true, hd, hanswer]

theorem State.storeWord_answered {w : Word} (ha : deviceBase ≤ (alignWord a).toNat)
    (hd : s.device = .attached c) (hanswer : Config.deviceWriteWord c (alignWord a) w = some c') :
    s.storeWord a w = .ok { s with device := .attached c' } := by
  simp only [State.storeWord, isDevice_eq_true.mpr ha, if_true, hd, hanswer]

theorem State.storeWord_unanswered {w : Word} (ha : deviceBase ≤ (alignWord a).toNat)
    (hd : s.device = .attached c) (hanswer : Config.deviceWriteWord c (alignWord a) w = none) :
    s.storeWord a w = .error .deviceAccess := by
  simp only [State.storeWord, isDevice_eq_true.mpr ha, if_true, hd, hanswer]

end

/-! ### Instructions: the access, then the ending; a refused access refuses the instruction -/

section
variable {dr sr base : Reg} {off : BitVec 6} {e : Refusal}

theorem exec_ldb_of_loadByte_ok {b : Byte} (h : s.loadByte (s.eaByte base off) = .ok (b, t)) :
    exec (.ldb dr base off) s = .next (t.loadResult dr (zext16 b)) :=
  execLdb_eq_next.mpr ⟨b, t, h, rfl⟩

theorem exec_ldb_of_loadByte_error (h : s.loadByte (s.eaByte base off) = .error e) :
    exec (.ldb dr base off) s = .refused e := by
  change execLdb dr base off s = _
  rw [execLdb, h]
  rfl

theorem exec_ldr_of_loadWord_ok {v : Word} (h : s.loadWord (s.eaWord base off) = .ok (v, t)) :
    exec (.ldr dr base off) s = .next (t.loadResult dr v) :=
  execLdr_eq_next.mpr ⟨v, t, h, rfl⟩

theorem exec_ldr_of_loadWord_error (h : s.loadWord (s.eaWord base off) = .error e) :
    exec (.ldr dr base off) s = .refused e := by
  change execLdr dr base off s = _
  rw [execLdr, h]
  rfl

theorem exec_stb_of_storeByte_ok
    (h : s.storeByte (s.eaByte base off) ((s.reg sr).extractLsb' 0 8) = .ok t) :
    exec (.stb sr base off) s = .next t.advance :=
  execStb_eq_next.mpr ⟨t, h, rfl⟩

theorem exec_stb_of_storeByte_error
    (h : s.storeByte (s.eaByte base off) ((s.reg sr).extractLsb' 0 8) = .error e) :
    exec (.stb sr base off) s = .refused e := by
  change execStb sr base off s = _
  rw [execStb, h]
  rfl

theorem exec_str_of_storeWord_ok (h : s.storeWord (s.eaWord base off) (s.reg sr) = .ok t) :
    exec (.str sr base off) s = .next t.advance :=
  execStr_eq_next.mpr ⟨t, h, rfl⟩

theorem exec_str_of_storeWord_error (h : s.storeWord (s.eaWord base off) (s.reg sr) = .error e) :
    exec (.str sr base off) s = .refused e := by
  change execStr sr base off s = _
  rw [execStr, h]
  rfl

end

theorem State.advance_frame (s : State) : FrameBut [] [] s s.advance := s.setPc_frame s.pcInc

/-! ### The byte forms as numbers: zero extension keeps the number, the low byte is it modulo 2^8 -/

theorem zext16_eq_ofNat {n : Nat} (v : BitVec n) : zext16 v = BitVec.ofNat 16 v.toNat :=
  (BitVec.ofNat_toNat 16 v).symm

theorem lowByte_eq_ofNat (w : Word) : w.extractLsb' 0 8 = BitVec.ofNat 8 w.toNat := rfl

end Sys2Proof.Machine
end

section
/-! SUPPORT. The obligation about an attached device's answers to the accesses of LDB, STB, LDR and STR
(spec/20_memory.md R62; spec/42_load.md). -/

namespace Sys2Proof.Machine

/-- Settles O40: each instruction makes its one access to the device, and by the device's answer it ends in
the state that the device answers with or is refused. -/
theorem attachedDeviceAnswersAccesses : Obligations.AttachedDeviceAnswersAccesses := by
  unfold Obligations.AttachedDeviceAnswersAccesses
  intro s c dr base off hattached
  refine ⟨fun hdev => ?byte, fun hdev => ?word⟩
  case byte =>
    have ha : deviceBase ≤ (s.eaByte base off).toNat := Nat.le_of_not_lt hdev
    constructor
    case left =>
      cases hanswer : Config.deviceReadByte c (s.eaByte base off) with
      | none => exact exec_ldb_of_loadByte_error (State.loadByte_unanswered ha hattached hanswer)
      | some answer =>
        obtain ⟨b, c'⟩ := answer
        have hload := State.loadByte_answered ha hattached hanswer
        simp only [← zext16_eq_ofNat]
        exact ⟨_, exec_ldb_of_loadByte_ok hload, State.loadResult_writesResult _ dr _⟩
    case right =>
      rw [← lowByte_eq_ofNat]
      cases hanswer : Config.deviceWriteByte c (s.eaByte base off) ((s.reg dr).extractLsb' 0 8) with
      | none => exact exec_stb_of_storeByte_error (State.storeByte_unanswered ha hattached hanswer)
      | some c' =>
        have hstore := State.storeByte_answered ha hattached hanswer
        exact ⟨_, exec_stb_of_storeByte_ok hstore, rfl, State.advance_frame _⟩
  case word =>
    have ha : deviceBase ≤ (alignWord (s.eaWord base off)).toNat := Nat.le_of_not_lt hdev
    rw [alignWord_eq_mask]
    constructor
    case left =>
      cases hanswer : Config.deviceReadWord c (alignWord (s.eaWord base off)) with
      | none => exact exec_ldr_of_loadWord_error (State.loadWord_unanswered ha hattached hanswer)
      | some answer =>
        obtain ⟨v, c'⟩ := answer
        have hload := State.loadWord_answered ha hattached hanswer
        exact ⟨_, exec_ldr_of_loadWord_ok hload, State.loadResult_writesResult _ dr v⟩
    case right =>
      cases hanswer : Config.deviceWriteWord c (alignWord (s.eaWord base off)) (s.reg dr) with
      | none => exact exec_str_of_storeWord_error (State.storeWord_unanswered ha hattached hanswer)
      | some c' =>
        have hstore := State.storeWord_answered ha hattached hanswer
        exact ⟨_, exec_str_of_storeWord_ok hstore, rfl, State.advance_frame _⟩

end Sys2Proof.Machine
end

section
/-! SUPPORT. A store to the word that the next step fetches: what that word then is, and that the next step runs
it (spec/20_memory.md R70; spec/70_reset_and_hazards.md R209). -/

namespace Sys2Proof.Machine

variable {s t u : State} {i : Instr} {sr base : Reg} {off : BitVec 6}

/-! ### The word around a stored byte -/

/-- A word access ignores bit 0 of its address (spec/20_memory.md R53). -/
theorem State.wordAt_congr_alignWord (s : State) {a b : Word} (h : alignWord a = alignWord b) :
    s.wordAt a = s.wordAt b := by
  simp only [State.wordAt, h]

/-- Memory ends at a word boundary: the odd byte of a word in memory is in memory. -/
theorem alignWord_succ_lt_deviceBase {a : Word} (h : (alignWord a).toNat < deviceBase) :
    (alignWord a + 1).toNat < deviceBase := by
  rw [alignWord_toNat] at h
  rw [alignWord_succ_toNat]
  simp only [deviceBase] at h ⊢
  omega

theorem State.wordAt_write_even (s : State) (a : Word) (b : Byte) (h : (alignWord a).toNat < deviceBase) :
    ({ s with mem := s.mem.write (alignWord a).toNat b } : State).wordAt a =
      s.byteAt (alignWord a + 1) ++ b := by
  simp only [State.wordAt, State.byteAt_write _ _ _ _ h, if_true, if_neg (alignWord_succ_ne a)]

theorem State.wordAt_write_odd (s : State) (a : Word) (b : Byte) (h : (alignWord a).toNat < deviceBase) :
    ({ s with mem := s.mem.write (alignWord a + 1).toNat b } : State).wordAt a =
      b ++ s.byteAt (alignWord a) := by
  simp only [State.wordAt, State.byteAt_write _ _ _ _ (alignWord_succ_lt_deviceBase h), if_true,
    if_neg (alignWord_succ_ne a).symm]

/-! ### The next step after the PC has advanced -/

/-- The environment and the choice at the boundary change neither memory, the PC nor the parameters, so an
instruction at the PC is still there when it is fetched. -/
theorem runsNext_of_decoded (hrun : s.runOver = false) (hmem : inMemory (alignWord s.pc))
    (hdecode : decodeUnder s.config.reservedPolicy (s.wordAt s.pc) = .ok i) : RunsNext i s := by
  intro u hchoose
  have unchanged := State.boundary_frame hchoose
  have hpc : u.pc = s.pc := by rw [unchanged]
  have hconfig : u.config = s.config := by rw [unchanged]
  have hword : u.wordAt u.pc = s.wordAt s.pc := by
    rw [hpc]
    exact State.wordAt_congr (by rw [unchanged]) _
  refine (stepRunsTheDecodedInstruction s u hrun hchoose).1 i ?inMemory ?decodes
  case inMemory => rwa [hpc]
  case decodes => rwa [hconfig, hword]

/-- The instruction at the word after this one runs next once the PC has advanced to it. -/
theorem runsNext_advance (hmem : inMemory (alignWord s.pcInc))
    (hhalt : s.config.haltPcs.contains (alignWord s.pcInc) = false)
    (hdecode : decodeUnder s.config.reservedPolicy (s.wordAt s.pcInc) = .ok i) :
    RunsNext i s.advance := by
  refine runsNext_of_decoded hhalt ?inMemory ?decodes
  case inMemory =>
    rw [State.advance_pc, alignWord_alignWord]
    exact hmem
  case decodes =>
    rw [State.wordAt_congr s.advance_mem, State.advance_pc,
      s.wordAt_congr_alignWord (alignWord_alignWord (s.pc + 2))]
    exact hdecode

/-! ### Stores to the next word -/

/-- A word stored there is the next instruction. -/
theorem State.storeWord_runsNext {p v : Word} (hp : alignWord p = alignWord s.pcInc)
    (hmem : inMemory (alignWord s.pcInc))
    (hhalt : s.config.haltPcs.contains (alignWord s.pcInc) = false)
    (hdecode : decodeUnder s.config.reservedPolicy v = .ok i) :
    ∃ t, s.storeWord p v = .ok t ∧ RunsNext i t.advance := by
  have hpmem : inMemory (alignWord p) := by rwa [hp]
  refine ⟨_, s.storeWord_memory p v hpmem, runsNext_advance hmem hhalt ?_⟩
  have hword := s.wordAt_writeWord p v hpmem
  rw [State.wordAt_congr_alignWord _ hp] at hword
  exact hword.symm ▸ hdecode

/-- A byte stored at its even address is the low byte of the next instruction. -/
theorem State.storeByte_even_runsNext {b : Byte} (hmem : inMemory (alignWord s.pcInc))
    (hhalt : s.config.haltPcs.contains (alignWord s.pcInc) = false)
    (hdecode : decodeUnder s.config.reservedPolicy (s.byteAt (alignWord s.pcInc + 1) ++ b) = .ok i) :
    ∃ t, s.storeByte (alignWord s.pcInc) b = .ok t ∧ RunsNext i t.advance := by
  refine ⟨_, s.storeByte_memory _ b hmem, runsNext_advance hmem hhalt ?_⟩
  exact (s.wordAt_write_even s.pcInc b hmem).symm ▸ hdecode

/-- A byte stored at its odd address is the high byte of the next instruction. -/
theorem State.storeByte_odd_runsNext {b : Byte} (hmem : inMemory (alignWord s.pcInc))
    (hhalt : s.config.haltPcs.contains (alignWord s.pcInc) = false)
    (hdecode : decodeUnder s.config.reservedPolicy (b ++ s.byteAt (alignWord s.pcInc)) = .ok i) :
    ∃ t, s.storeByte (alignWord s.pcInc + 1) b = .ok t ∧ RunsNext i t.advance := by
  refine ⟨_, s.storeByte_memory _ b (alignWord_succ_lt_deviceBase hmem), runsNext_advance hmem hhalt ?_⟩
  exact (s.wordAt_write_odd s.pcInc b hmem).symm ▸ hdecode

/-- STI by what its two accesses answer (spec/43_store.md R151). -/
theorem exec_sti_of_accesses_ok {p : Word} (hpointer : s.loadWord (s.eaWord base off) = .ok (p, t))
    (hstore : t.storeWord p (s.reg sr) = .ok u) : exec (.sti sr base off) s = .next u.advance :=
  execSti_eq_next.mpr ⟨p, t, hpointer, u, hstore, rfl⟩

end Sys2Proof.Machine
end

section
/-! SUPPORT. The obligation about a store to the next instruction (spec/20_memory.md; spec/43_store.md). -/

namespace Sys2Proof.Machine

/-- Settles O47: each store's access writes the word the next step fetches, or one byte of it, before the PC
advances to it; STI's read of its pointer changes the device's state at most. -/
theorem storeIsSeenByTheNextFetch : Obligations.StoreIsSeenByTheNextFetch := by
  unfold Obligations.StoreIsSeenByTheNextFetch
  intro sr base off s a i hnext hmem hhalt
  obtain rfl : a = alignWord s.pcInc := hnext
  refine ⟨fun haddress hdecode => ?str, fun p x hpointer haddress hdecode => ?sti,
    fun haddress hdecode => ?stbLow, fun haddress hdecode => ?stbHigh⟩
  case str =>
    obtain ⟨t, hstore, runs⟩ := State.storeWord_runsNext haddress hmem hhalt hdecode
    exact ⟨t.advance, exec_str_of_storeWord_ok hstore, runs⟩
  case sti =>
    obtain ⟨d, rfl⟩ : ∃ d, x = { s with device := d } := ⟨x.device, State.loadWord_ok hpointer⟩
    obtain ⟨t, hstore, runs⟩ :=
      State.storeWord_runsNext (s := { s with device := d }) haddress hmem hhalt hdecode
    exact ⟨t.advance, exec_sti_of_accesses_ok hpointer hstore, runs⟩
  case stbLow =>
    obtain ⟨t, hstore, runs⟩ := State.storeByte_even_runsNext hmem hhalt hdecode
    rw [← haddress] at hstore
    exact ⟨t.advance, exec_stb_of_storeByte_ok hstore, runs⟩
  case stbHigh =>
    obtain ⟨t, hstore, runs⟩ := State.storeByte_odd_runsNext hmem hhalt hdecode
    rw [← haddress] at hstore
    exact ⟨t.advance, exec_stb_of_storeByte_ok hstore, runs⟩

end Sys2Proof.Machine
end

section
/-! SUPPORT. The request lines the environment sets, source by source (spec/60_exceptions.md R175, R190). -/

namespace Sys2Proof.Machine

/-- A device drives the line of each source by its place, counted from the first. -/
theorem driveRequests_getElem? (code first : Nat) (sources : List IntSource) (i : Nat) :
    (driveRequests code first sources)[i]? =
      sources[i]?.map fun src => { src with request := Config.deviceRequest code (first + i) } := by
  induction sources generalizing first i with
  | nil => rfl
  | cons src rest ih =>
    cases i with
    | zero   => rfl
    | succ i => simp only [driveRequests, List.getElem?_cons_succ, ih, Nat.succ_add_eq_add_succ]

/-- An input list sets the lines in the order of the sources; a source past its end keeps its line. -/
theorem setRequests_getElem? (lines : List Bool) (sources : List IntSource) (i : Nat) :
    (setRequests lines sources)[i]? =
      sources[i]?.map fun src => { src with request := lines[i]?.getD src.request } := by
  induction lines generalizing sources i with
  | nil => cases sources <;> simp [setRequests]
  | cons line lines ih =>
    cases sources with
    | nil => rfl
    | cons src rest =>
      cases i with
      | zero   => rfl
      | succ i => simp only [setRequests, List.getElem?_cons_succ, ih]

variable {s : State}

theorem State.environmentActs_attached {c : Nat} (hd : s.device = .attached c) :
    s.environmentActs = { s with
      device := .attached (Config.deviceTick c),
      sources := driveRequests (Config.deviceTick c) 0 s.sources } := by
  simp only [State.environmentActs, hd]

theorem State.environmentActs_inputs {lines : List Bool} {rest : List (List Bool)}
    (hd : s.device = .refuse) (hinputs : s.requestInputs = lines :: rest) :
    s.environmentActs = { s with sources := setRequests lines s.sources, requestInputs := rest } := by
  simp only [State.environmentActs, hd, hinputs]

theorem State.environmentActs_quiet (hd : s.device = .refuse) (hinputs : s.requestInputs = []) :
    s.environmentActs = s := by
  simp only [State.environmentActs, hd, hinputs]

end Sys2Proof.Machine
end

section
/-! SUPPORT. What changes the mode and the priority level of the process (spec/60_exceptions.md R184, R187). -/

namespace Sys2Proof.Machine

variable {s t : State}

/-! ### Instructions: the condition codes are the only bits of the PSR they write -/

/-- No instruction but RTI writes a bit of the PSR above the condition codes (spec/10_state.md R30). -/
theorem exec_psrRest {i : Instr} (hrti : i ≠ .rti) (h : exec i s = .next t) :
    t.psr &&& 0xFFF8 = s.psr &&& 0xFFF8 := by
  cases hi : resultReg i with
  | some dr =>
    obtain ⟨s1, v, haccess, rfl⟩ := exec_loadResult h hi
    rw [(s1.loadResult_writesResult dr v).psrRest, haccess]
  | none => rw [(exec_writesOnlyKeepsPsr h hi hrti).psr]

/-- PSR[15] is above the condition codes. -/
theorem State.userMode_of_psrRest (h : t.psr &&& 0xFFF8 = s.psr &&& 0xFFF8) :
    t.userMode = s.userMode := by
  simpa [State.userMode] using congrArg (·.getLsbD 15) h

/-- PSR[10:8] is above the condition codes. -/
theorem State.priority_of_psrRest (h : t.psr &&& 0xFFF8 = s.psr &&& 0xFFF8) :
    t.priority = s.priority := by
  have hkept : ∀ w : Word, (w &&& 0xFFF8).extractLsb' 8 3 = w.extractLsb' 8 3 := fun w => by
    rw [BitVec.extractLsb'_and]
    exact BitVec.and_allOnes
  rw [State.priority, State.priority, ← hkept t.psr, h, hkept]

/-! ### Handler entry and return -/

theorem State.pushSupervisor_userMode {v : Word} (h : s.pushSupervisor v = .ok t) :
    t.userMode = s.userMode :=
  State.userMode_congr (by rw [(State.pushSupervisor_ok h).1])

/-- Every handler entry ends in Supervisor mode, wherever its accesses go (spec/60_exceptions.md R178). -/
theorem State.enterHandler_userMode {savedPc entry : Word} {level : Option (BitVec 3)}
    (h : s.enterHandler savedPc level entry = .ok t) : t.userMode = false := by
  obtain ⟨s1, s2, s3, v, hpushPsr, hpushPc, hload, rfl⟩ := State.enterHandler_ok h
  calc (s3.setPc v).userMode
      = s3.userMode := State.userMode_congr rfl
    _ = (s2.setLevel level).userMode := State.loadWord_userMode hload
    _ = s2.userMode := s2.setLevel_userMode level
    _ = s1.userMode := State.pushSupervisor_userMode hpushPc
    _ = s.enterSupervisor.userMode := State.pushSupervisor_userMode hpushPsr
    _ = false := s.enterSupervisor_userMode

/-- PSR[15] is one of the defined bits, which a write of the whole PSR stores (spec/10_state.md R33). -/
theorem State.writePsr_userMode (s : State) (v : Word) : (s.writePsr v).userMode = v.getLsbD 15 := by
  simp [State.userMode, psrMask]

/-! ### The boundary and the fetch -/

/-- Neither the environment nor the choice of an interrupt changes the mode. -/
theorem State.boundary_userMode {u : State} {chosen : Option IntSource}
    (hc : s.environmentActs.chooseInterrupt = (chosen, u)) : u.userMode = s.userMode :=
  State.userMode_congr (by rw [State.boundary_frame hc])

theorem State.fetchInstr_userMode {i : Instr} (h : s.fetchInstr = .ok (i, t)) :
    t.userMode = s.userMode := by
  obtain ⟨w, hload, _⟩ := State.fetchInstr_ok h
  exact State.loadWord_userMode hload

/-- A step that changes the mode is an interrupt entry, or runs an RTI from the mode before the step. -/
theorem step_mode_change (h : step s = .next t) (hmode : t.userMode ≠ s.userMode) :
    (∃ src u, s.environmentActs.chooseInterrupt = (some src, u) ∧ t.userMode = false) ∨
    (∃ u v, s.environmentActs.chooseInterrupt = (none, u) ∧ u.fetchInstr = .ok (.rti, v) ∧
      v.userMode = s.userMode ∧ execRti v = .next t) := by
  rcases (step_next h).2 with ⟨src, u, hchoose, hentry⟩ | ⟨u, i, v, hchoose, hfetch, hexec⟩
  · exact .inl ⟨src, u, hchoose, State.enterHandler_userMode hentry⟩
  · have hv : v.userMode = s.userMode :=
      (State.fetchInstr_userMode hfetch).trans (State.boundary_userMode hchoose)
    have hrti : i = .rti := by
      by_contra hrti
      exact hmode ((State.userMode_of_psrRest (exec_psrRest hrti hexec)).trans hv)
    subst hrti
    exact .inr ⟨u, v, hchoose, hfetch, hv, hexec⟩

end Sys2Proof.Machine
end

section
/-! SUPPORT. The choice at a boundary and the wait for an entry, in the terms of Safety.lean
(spec/60_exceptions.md R176, R177; log 10). -/

namespace Sys2Proof.Machine

variable {s : State} {src : IntSource}

/-! ### Accepted requests and candidates -/

theorem State.acceptedAt_iff (s : State) (src : IntSource) :
    AcceptedAt s src ↔ src ∈ s.sources ∧ s.accepts src = true := by
  rw [State.accepts_iff, BitVec.lt_def]
  rfl

theorem State.requestAt_iff (s : State) (i : Nat) : RequestAt s i ↔ i ∈ s.acceptedPlaces := by
  rw [State.mem_acceptedPlaces]
  refine exists_congr fun src => and_congr_right fun hplace => ?_
  rw [State.acceptedAt_iff, and_iff_right (List.mem_of_getElem? hplace)]

theorem State.highestAt_iff (s : State) (src : IntSource) : HighestAt s src ↔ src ∈ s.candidates := by
  simp only [HighestAt, State.acceptedAt_iff, State.mem_candidates, BitVec.le_def, and_imp]

/-- Some accepted request is of the highest priority, where there is one. -/
theorem exists_highestAt (h : AcceptedAt s src) : ∃ taken, HighestAt s taken := by
  obtain ⟨taken, htaken, hhighest⟩ := (s.sources.filter s.accepts).toFinset.exists_max_image
    (fun other => other.pl.toNat) ⟨src, by simpa using (s.acceptedAt_iff src).mp h⟩
  simp only [List.mem_toFinset, List.mem_filter, ← State.acceptedAt_iff] at htaken hhighest
  exact ⟨taken, htaken, hhighest⟩

theorem State.candidates_ne_nil (h : AcceptedAt s src) : s.candidates ≠ [] := by
  obtain ⟨taken, htaken⟩ := exists_highestAt h
  exact List.ne_nil_of_mem ((s.highestAt_iff taken).mp htaken)

/-! ### The choice at a boundary -/

/-- Each request of the highest priority is the one some choice takes. -/
theorem State.chooseInterrupt_take (h : HighestAt s src) (rest : List BoundaryChoice) :
    ∃ k, ({ s with choices := .take k :: rest } : State).chooseInterrupt =
      (some src, { s with choices := rest, wait := s.waitHere.over }) := by
  rw [State.highestAt_iff] at h
  cases hc : s.candidates with
  | nil => simp [hc] at h
  | cons first others =>
    obtain ⟨k, hk⟩ := exists_pickSource first others src (hc ▸ h)
    exact ⟨k, by simp only [State.chooseInterrupt, State.candidates_choices, hc, hk,
      State.waitHere_choices]⟩

/-- The entry is deferred by a choice. -/
theorem State.chooseInterrupt_defer (h : s.candidates ≠ []) (rest : List BoundaryChoice) :
    ({ s with choices := .defer :: rest } : State).chooseInterrupt =
      (none, { s with choices := rest, wait := s.waitHere }) := by
  cases hc : s.candidates with
  | nil => exact absurd hc h
  | cons first others =>
    simp only [State.chooseInterrupt, State.candidates_choices, hc, State.waitHere_choices]

/-- Past the end of the choices a wait with some of its delay left defers the entry. -/
theorem State.chooseInterrupt_delayed (h : s.candidates ≠ []) (hchoices : s.choices = []) {d : Nat}
    (hdelay : s.waitHere.delay = d + 1) :
    s.chooseInterrupt = (none, { s with wait := { s.waitHere with delay := d } }) := by
  cases hc : s.candidates with
  | nil => exact absurd hc h
  | cons first others => simp only [State.chooseInterrupt, hc, hchoices, hdelay]

/-- Past the end of the choices a wait at its end takes a request of the highest priority. -/
theorem State.chooseInterrupt_wait_over (h : s.candidates ≠ []) (hchoices : s.choices = [])
    (hdelay : s.waitHere.delay = 0) :
    ∃ taken, HighestAt s taken ∧
      s.chooseInterrupt = (some taken, { s with wait := s.waitHere.over }) := by
  cases hc : s.candidates with
  | nil => exact absurd hc h
  | cons first others =>
    refine ⟨pickSource first others (Config.tieBreak s.waitHere.begun), ?_, ?_⟩
    · rw [State.highestAt_iff, hc]
      exact pickSource_mem first others _
    · simp only [State.chooseInterrupt, hc, hchoices, hdelay]

/-! ### The wait at a boundary -/

/-- A wait goes on while a request it began with has stayed accepted. -/
theorem State.waitHere_continues (h : ∃ i ∈ s.wait.places, RequestAt s i) :
    s.waitHere.delay = s.wait.delay ∧ s.waitHere.begun = s.wait.begun ∧
      ∀ i, i ∈ s.waitHere.places ↔ i ∈ s.wait.places ∧ RequestAt s i := by
  simp only [State.requestAt_iff] at h ⊢
  obtain ⟨i, hi, haccepted⟩ := h
  rcases s.waitHere_cases with ⟨_, hnone⟩ | hcontinues
  · exact absurd haccepted (hnone i hi)
  · exact hcontinues

/-- Where no request of the wait is accepted any more, a new one begins with every accepted request. -/
theorem State.waitHere_begins (h : ∀ i ∈ s.wait.places, ¬ RequestAt s i) :
    s.waitHere = { places := s.acceptedPlaces, delay := Config.entryDelay s.wait.begun,
                   begun := s.wait.begun + 1 } := by
  have hnone : s.wait.places.filter s.acceptedPlaces.contains = [] := by
    simpa [State.requestAt_iff] using h
  simp only [State.waitHere, hnone]

end Sys2Proof.Machine
end

section
/-! SUPPORT. The obligations about interrupts, the privilege mode and the request lines
(spec/60_exceptions.md). -/

namespace Sys2Proof.Machine

/-- Settles O34: some accepted request is of the highest priority, so the choice at the boundary has a
candidate; then by what `choices` holds, by the delay left, and by whether the wait goes on. -/
theorem everyHighestRequestCanBeTaken : Obligations.EveryHighestRequestCanBeTaken := by
  unfold Obligations.EveryHighestRequestCanBeTaken
  intro s src hsrc hrequest hlevel
  have haccepted : AcceptedAt s src := ⟨hsrc, hrequest, hlevel⟩
  have hcandidates : s.candidates ≠ [] := State.candidates_ne_nil haccepted
  refine ⟨fun rest => ⟨fun hhighest => ?take, ?defer⟩, fun hchoices => ⟨fun d hdelay => ?delayed,
    fun hdelay => ?waitOver⟩, fun hstays => ?continues, fun hnone => ?begins⟩
  case take =>
    have highest : HighestAt s src :=
      ⟨haccepted, fun other ⟨hother, hreq, hlev⟩ => hhighest other hother hreq hlev⟩
    exact State.chooseInterrupt_take highest rest
  case defer => exact State.chooseInterrupt_defer hcandidates rest
  case delayed => exact State.chooseInterrupt_delayed hcandidates hchoices hdelay
  case waitOver => exact State.chooseInterrupt_wait_over hcandidates hchoices hdelay
  case continues => exact State.waitHere_continues hstays
  case begins =>
    rw [State.waitHere_begins hnone]
    exact ⟨rfl, rfl, fun i => (s.requestAt_iff i).symm⟩

/-- Settles O56: PSR[15] and PSR[10:8] are above the condition codes. -/
theorem onlyRtiChangesModeOrPriority : Obligations.OnlyRtiChangesModeOrPriority := by
  unfold Obligations.OnlyRtiChangesModeOrPriority
  intro i s t hrti h
  have hrest := exec_psrRest hrti h
  exact ⟨State.userMode_of_psrRest hrest, State.priority_of_psrRest hrest⟩

/-- Settles O57: a step that changes the mode is an entry or an RTI. An entry never ends in User mode, and RTI
enters its handler from User mode alone and returns from Supervisor mode alone. -/
theorem modeChangesOnlyAtEntriesAndRti : Obligations.ModeChangesOnlyAtEntriesAndRti := by
  unfold Obligations.ModeChangesOnlyAtEntriesAndRti
  intro s t h
  refine ⟨fun hs ht => ?enters, fun hs ht => ?leaves⟩
  case enters =>
    rcases step_mode_change h (by simp [hs, ht]) with
      ⟨src, u, hchoose, _⟩ | ⟨u, v, hchoose, hfetch, hv, hexec⟩
    · exact .inl ⟨src, u, hchoose⟩
    · rcases execRti_eq_next.mp hexec with ⟨hsupervisor, _⟩ | ⟨_, hvector, _⟩
      · simp [hv, hs] at hsupervisor
      · exact .inr ⟨u, v, hchoose, hfetch, hvector⟩
  case leaves =>
    rcases step_mode_change h (by simp [hs, ht]) with
      ⟨_, _, _, hsupervisor⟩ | ⟨u, v, hchoose, hfetch, hv, hexec⟩
    · simp [ht] at hsupervisor
    · rcases execRti_eq_next.mp hexec with ⟨_, hreturn⟩ | ⟨huser, _⟩
      · obtain ⟨tPc, x, tPsr, y, hpopPc, hpopPsr, rfl⟩ := State.returnFromHandler_ok hreturn
        exact ⟨u, v, x, y, tPc, tPsr, hchoose, hfetch, hpopPc, hpopPsr,
          (y.writePsr_userMode tPsr).symm.trans ht⟩
      · simp [hv, hs] at huser

/-- Settles O60: by whether a device is attached and whether an input list is left. -/
theorem environmentDrivesRequestLines : Obligations.EnvironmentDrivesRequestLines := by
  unfold Obligations.EnvironmentDrivesRequestLines
  intro s
  refine ⟨s.environmentActs_frame, fun c hd => ?attached, fun lines rest hd hinputs => ?inputs,
    State.environmentActs_quiet⟩
  case attached =>
    rw [State.environmentActs_attached hd]
    refine ⟨rfl, rfl, fun i => ?_⟩
    simpa only [Nat.zero_add] using driveRequests_getElem? (Config.deviceTick c) 0 s.sources i
  case inputs =>
    rw [State.environmentActs_inputs hd hinputs]
    exact ⟨hd, rfl, setRequests_getElem? lines s.sources⟩

end Sys2Proof.Machine
end

section
/-! SUPPORT. The state a launch begins in: its PC and PSR, and the bytes its image gives
(spec/70_reset_and_hazards.md R200, R201, R204). -/

namespace Sys2Proof.Machine

/-! ### The defined and the undefined bits of the PSR (spec/10_state.md R33) -/

theorem and_psrMask_undefined (v : Word) : v &&& psrMask &&& 0x78F8 = 0 := by
  have hdisjoint : psrMask &&& 0x78F8 = 0 := by decide
  rw [BitVec.and_assoc, hdisjoint]
  exact BitVec.and_zero

/-- A value whose undefined bits are 0 is its own defined bits: every bit is one or the other. -/
theorem and_psrMask_of_undefined_zero {v : Word} (h : v &&& 0x78F8 = 0) : v &&& psrMask = v := by
  have hcover : psrMask ||| 0x78F8 = BitVec.allOnes 16 := by decide
  calc v &&& psrMask
      = v &&& psrMask ||| v &&& 0x78F8 := by rw [h]; exact BitVec.or_zero.symm
    _ = v &&& (psrMask ||| 0x78F8) := BitVec.and_or_distrib_left.symm
    _ = v := by rw [hcover, BitVec.and_allOnes]

/-! ### The bytes of an image -/

section
variable {before after : List Host.Cell} {a : Nat}

/-- What an image reads as at an address that its later cells do not give. -/
theorem Memory.read_ofImage_append (hafter : ∀ cell ∈ after, cell.1 ≠ a) :
    (Memory.ofImage (before ++ after)).read a = (Memory.ofImage before).read a := by
  rw [Memory.ofImage, List.foldl_append, Memory.read_writes_other after _ a hafter, Memory.ofImage]

/-- The last byte an image gives for a memory address stands. -/
theorem Memory.read_ofImage_last (b : Byte) (ha : a < deviceBase)
    (hafter : ∀ cell ∈ after, cell.1 ≠ a) :
    (Memory.ofImage (before ++ (a, b) :: after)).read a = b := by
  rw [List.append_cons, Memory.read_ofImage_append hafter, Memory.ofImage_snoc,
    Memory.read_write _ _ _ _ ha, if_pos rfl]

/-- An address that an image does not give reads as in the memory that lists nothing: as a free value. -/
theorem Memory.read_ofImage_unlisted {image : List Host.Cell} (h : ∀ cell ∈ image, cell.1 ≠ a) :
    (Memory.ofImage image).read a = Config.unwrittenByte a :=
  Memory.read_ofImage_append (before := []) h

end

/-! ### The launch -/

theorem Launch.start_legal (l : Launch) : l.start.legal = true := by
  have hpc : l.start.pc.getLsbD 0 = false := alignWord_getLsbD_zero l.pc
  have hpsr : l.start.psr &&& 0x78F8 = 0 := and_psrMask_undefined l.psr
  have hmem : l.start.mem.wf = true := Memory.wf_ofImage l.mem
  simp only [State.legal, hpc, hpsr, hmem, Bool.not_false, decide_true, Bool.and_self]

/-- The part of `Launch.wellFormed` that is about the PC and the PSR. -/
theorem Launch.pc_psr_of_wellFormed {l : Launch} (h : l.wellFormed = true) :
    l.pc.getLsbD 0 = false ∧ l.psr &&& 0x78F8 = 0 := by
  simp only [Launch.wellFormed, Bool.and_eq_true, Bool.not_eq_true', decide_eq_true_eq] at h
  obtain ⟨⟨⟨⟨⟨hpc, hpsr⟩, _⟩, _⟩, _⟩, _⟩ := h
  exact ⟨hpc, hpsr⟩

theorem Launch.start_pc_psr_of_wellFormed {l : Launch} (h : l.wellFormed = true) :
    l.start.pc = l.pc ∧ l.start.psr = l.psr := by
  obtain ⟨hpc, hpsr⟩ := Launch.pc_psr_of_wellFormed h
  exact ⟨alignWord_of_even l.pc hpc, and_psrMask_of_undefined_zero hpsr⟩

/-- Settles O50: legality by the masks and the canonical form of an image, the bytes by the order in which the
image is written; every other field is the launch's own. -/
theorem launchStateIsLegal : Obligations.LaunchStateIsLegal := by
  unfold Obligations.LaunchStateIsLegal
  intro l
  refine ⟨l.start_legal, Launch.start_pc_psr_of_wellFormed, rfl, rfl, rfl, rfl, rfl, rfl, rfl, rfl, rfl, rfl,
    rfl, rfl, rfl, rfl, rfl, rfl, rfl, fun a ha => ⟨?given, Memory.read_ofImage_unlisted⟩⟩
  case given =>
    intro before after b himage hafter
    have hmem : l.start.mem = Memory.ofImage (before ++ (a.toNat, b) :: after) :=
      congrArg Memory.ofImage himage
    rw [State.byteAt, hmem]
    exact Memory.read_ofImage_last b ha hafter

end Sys2Proof.Machine
end

section
/-! SUPPORT. What every step keeps legal: the PC's bit 0, the undefined PSR bits and the canonical form of
memory (spec/10_state.md R26, R33). -/

namespace Sys2Proof.Machine

/-- The part of `State.legal` that an operation keeps before the PC is written: the undefined PSR bits are 0
and memory has its canonical form. -/
structure PsrMemLegal (s : State) : Prop where
  psr : s.psr &&& 0x78F8 = 0
  mem : s.mem.wf = true

theorem State.legal_iff (s : State) : s.legal = true ↔ s.pc.getLsbD 0 = false ∧ PsrMemLegal s := by
  simp only [State.legal, Bool.and_eq_true, Bool.not_eq_true', decide_eq_true_eq, and_assoc]
  exact and_congr_right fun _ => ⟨fun ⟨hpsr, hmem⟩ => ⟨hpsr, hmem⟩, fun h => ⟨h.psr, h.mem⟩⟩

namespace PsrMemLegal

variable {s t : State}

/-! ### Writes of registers, of the PC and of the device's state -/

theorem of_psr_mem (hs : PsrMemLegal s) (hpsr : t.psr = s.psr) (hmem : t.mem = s.mem) : PsrMemLegal t :=
  ⟨by rw [hpsr, hs.psr], by rw [hmem, hs.mem]⟩

theorem setReg (hs : PsrMemLegal s) (r : Reg) (v : Word) : PsrMemLegal (s.setReg r v) :=
  hs.of_psr_mem (s.setReg_psr r v) (s.setReg_mem r v)

/-- The write of the PC, which ends every instruction and every handler entry, makes the state legal. -/
theorem setPc_legal (hs : PsrMemLegal s) (a : Word) : (s.setPc a).legal = true :=
  (State.legal_iff _).mpr ⟨alignWord_getLsbD_zero a, hs.of_psr_mem rfl rfl⟩

/-! ### Accesses -/

theorem loadByte (hs : PsrMemLegal s) {a : Word} {b : Byte} (h : s.loadByte a = .ok (b, t)) :
    PsrMemLegal t := by
  rw [State.loadByte_ok h]
  exact hs.of_psr_mem rfl rfl

theorem loadWord (hs : PsrMemLegal s) {a v : Word} (h : s.loadWord a = .ok (v, t)) : PsrMemLegal t := by
  rw [State.loadWord_ok h]
  exact hs.of_psr_mem rfl rfl

theorem storeByte (hs : PsrMemLegal s) {a : Word} {b : Byte} (h : s.storeByte a b = .ok t) :
    PsrMemLegal t := by
  rcases State.storeByte_ok h with ⟨_, rfl⟩ | ⟨_, ht⟩
  · exact ⟨hs.psr, Memory.wf_write _ _ _ hs.mem⟩
  · rw [ht]
    exact hs.of_psr_mem rfl rfl

theorem storeWord (hs : PsrMemLegal s) {a v : Word} (h : s.storeWord a v = .ok t) : PsrMemLegal t := by
  rcases State.storeWord_ok h with ⟨_, rfl⟩ | ⟨_, ht⟩
  · exact ⟨hs.psr, Memory.wf_writeWord _ _ _ hs.mem⟩
  · rw [ht]
    exact hs.of_psr_mem rfl rfl

theorem pushSupervisor (hs : PsrMemLegal s) {v : Word} (h : s.pushSupervisor v = .ok t) :
    PsrMemLegal t :=
  have moved : PsrMemLegal { s with ssp := s.ssp - 2 } := hs.of_psr_mem rfl rfl
  moved.storeWord h

theorem popSupervisor (hs : PsrMemLegal s) {v : Word} (h : s.popSupervisor = .ok (v, t)) :
    PsrMemLegal t := by
  rw [State.popSupervisor_ok h]
  exact hs.of_psr_mem rfl rfl

/-! ### Writes of the PSR: each leaves the undefined bits or stores the defined ones alone -/

/-- A change of defined PSR bits alone. -/
theorem of_defined {bits : Word} (hs : PsrMemLegal s) (hbits : bits &&& 0x78F8 = 0x78F8)
    (hpsr : t.psr &&& bits = s.psr &&& bits) (hmem : t.mem = s.mem) : PsrMemLegal t where
  psr := by
    calc t.psr &&& 0x78F8
        = t.psr &&& bits &&& 0x78F8 := by rw [BitVec.and_assoc, hbits]
      _ = s.psr &&& bits &&& 0x78F8 := by rw [hpsr]
      _ = s.psr &&& 0x78F8 := by rw [BitVec.and_assoc, hbits]
      _ = 0 := hs.psr
  mem := by rw [hmem, hs.mem]

theorem loadResult_legal (hs : PsrMemLegal s) (dr : Reg) (v : Word) :
    (s.loadResult dr v).legal = true := by
  have hset := hs.setReg dr v
  have hcodes : PsrMemLegal ((s.setReg dr v).setcc v) :=
    hset.of_defined (bits := 0xFFF8) (by decide) (State.setcc_psrRest _ v) rfl
  exact hcodes.setPc_legal _

theorem enterSupervisor (hs : PsrMemLegal s) : PsrMemLegal s.enterSupervisor :=
  hs.of_defined (bits := 0x7FFF) (by decide) (BitVec.and_assoc ..) rfl

theorem setLevel (hs : PsrMemLegal s) (level : Option (BitVec 3)) : PsrMemLegal (s.setLevel level) := by
  refine hs.of_defined (bits := 0xF8FF) (by decide) ?_ (s.setLevel_mem level)
  apply BitVec.eq_of_getLsbD_eq
  intro k hk
  rw [BitVec.getLsbD_and, BitVec.getLsbD_and]
  by_cases hrest : k < 8 ∨ 11 ≤ k
  · rw [State.setLevel_getLsbD s level k hrest]
  · have hlevel : (0xF8FF : Word).getLsbD k = false := by interval_cases k <;> simp at hrest ⊢
    rw [hlevel, Bool.and_false, Bool.and_false]

theorem writePsr (hs : PsrMemLegal s) (v : Word) : PsrMemLegal (s.writePsr v) :=
  ⟨and_psrMask_undefined v, hs.mem⟩

end PsrMemLegal

/-! ### Handler entry, return and instructions -/

variable {s t : State}

theorem State.enterHandler_legal {savedPc entry : Word} {level : Option (BitVec 3)} (hs : PsrMemLegal s)
    (h : s.enterHandler savedPc level entry = .ok t) : t.legal = true := by
  obtain ⟨s1, s2, s3, v, hpushPsr, hpushPc, hload, rfl⟩ := State.enterHandler_ok h
  have hpushed : PsrMemLegal s2 := (hs.enterSupervisor.pushSupervisor hpushPsr).pushSupervisor hpushPc
  exact ((hpushed.setLevel level).loadWord hload).setPc_legal v

theorem State.returnFromHandler_legal (hs : PsrMemLegal s) (h : s.returnFromHandler = .ok t) :
    t.legal = true := by
  obtain ⟨tPc, s1, tPsr, s2, hpopPc, hpopPsr, rfl⟩ := State.returnFromHandler_ok h
  exact (((hs.popSupervisor hpopPc).popSupervisor hpopPsr).writePsr tPsr).setPc_legal tPc

/-- Every instruction ends in a write of the PC, after accesses and writes that keep the rest legal. -/
theorem exec_legal {i : Instr} (hs : PsrMemLegal s) (h : exec i s = .next t) : t.legal = true := by
  cases hi : resultReg i with
  | some dr =>
    obtain ⟨s1, v, haccess, rfl⟩ := exec_loadResult h hi
    have hs1 : PsrMemLegal s1 := hs.of_psr_mem (by rw [haccess]) (by rw [haccess])
    exact hs1.loadResult_legal dr v
  | none =>
    cases i with
    | br n z p off =>
      obtain ⟨a, hbr⟩ := execBr_eq_setPc n z p off s
      cases hbr.symm.trans h
      exact hs.setPc_legal a
    | ret | jmp =>
      cases h
      exact hs.setPc_legal _
    | jsr | jsrr =>
      cases h
      exact (hs.setReg .r7 _).setPc_legal _
    | stb sr base off =>
      obtain ⟨s1, hstore, rfl⟩ := execStb_eq_next.mp h
      exact (hs.storeByte hstore).setPc_legal s1.pcInc
    | sti sr base off =>
      obtain ⟨p, s1, hpointer, s2, hstore, rfl⟩ := execSti_eq_next.mp h
      exact ((hs.loadWord hpointer).storeWord hstore).setPc_legal s2.pcInc
    | str sr base off =>
      obtain ⟨s1, hstore, rfl⟩ := execStr_eq_next.mp h
      exact (hs.storeWord hstore).setPc_legal s1.pcInc
    | trap vect =>
      obtain ⟨v, s1, hload, rfl⟩ := execTrap_eq_next.mp h
      exact ((hs.setReg .r7 _).loadWord hload).setPc_legal v
    | rti =>
      rcases execRti_eq_next.mp h with ⟨_, hreturn⟩ | ⟨_, _, hentry⟩
      · exact State.returnFromHandler_legal hs hreturn
      · exact State.enterHandler_legal hs hentry
    | addReg | addImm | andReg | andImm | ldb | ldi | ldr | lea | not | shf => cases hi

end Sys2Proof.Machine
end

section
/-! SUPPORT. The obligations about legal states: the invariant and the state after reset (spec/10_state.md). -/

namespace Sys2Proof.Machine

/-- Settles O48: the boundary writes neither the PSR nor memory, and every entry and every instruction ends
legal (`State.enterHandler_legal`, `exec_legal`). -/
theorem stepKeepsTheStateLegal : Obligations.StepKeepsTheStateLegal := by
  unfold Obligations.StepKeepsTheStateLegal
  intro s t hlegal h
  have hs : PsrMemLegal s := (s.legal_iff.mp hlegal).2
  have hboundary : ∀ {chosen : Option IntSource} {u : State},
      s.environmentActs.chooseInterrupt = (chosen, u) → PsrMemLegal u := fun hchoose =>
    hs.of_psr_mem (by rw [State.boundary_frame hchoose]) (by rw [State.boundary_frame hchoose])
  rcases (step_next h).2 with ⟨src, u, hchoose, hentry⟩ | ⟨u, i, v, hchoose, hfetch, hexec⟩
  · exact State.enterHandler_legal (hboundary hchoose) hentry
  · obtain ⟨w, hload, _⟩ := State.fetchInstr_ok hfetch
    exact exec_legal ((hboundary hchoose).loadWord hload) hexec

/-- Settles O51: field by field, the bits that the launch clears being clear already. -/
theorem resetIsTheConventionalLaunch : Obligations.ResetIsTheConventionalLaunch := by
  unfold Obligations.ResetIsTheConventionalLaunch
  exact ⟨rfl, rfl⟩

/-- Settles O49: the reset state is a launch state (`Launch.start_legal`). -/
theorem resetStateIsLegal : Obligations.ResetStateIsLegal := by
  unfold Obligations.ResetStateIsLegal
  rw [resetIsTheConventionalLaunch.1]
  exact Launch.conventional.start_legal

end Sys2Proof.Machine
end

section
/-! SUPPORT. NOT, SHF, LEA, JSRR and BR without codes: the words with their fixed fields, what `exec` makes of
them, and their results as numbers (spec/40_operate.md R114, R115; spec/41_control.md R134;
spec/42_load.md R143). -/

namespace Sys2Proof

open Sys2Proof.Machine

/-! ### Words -/

/-- SHF's word with the fields of R84 appended one after another. -/
theorem encode_shf_eq_append (dr sr : Reg) (a d : Bool) (imm4 : BitVec 4) :
    encode (.shf dr sr a d imm4) =
      0b1101#4 ++ dr.bits ++ sr.bits ++ BitVec.ofBool a ++ BitVec.ofBool d ++ imm4 := by
  have hlow : BitVec.ofBool a ++ BitVec.ofBool d ++ imm4 =
      BitVec.ofBool a ++ (BitVec.ofBool d ++ imm4) := BitVec.append_assoc
  rw [encode, encodeDRBase, hlow]
  exact BitVec.append_assoc'.trans BitVec.append_assoc'

/-- A word at most x01FF has BR's opcode and none of its condition bits (R101). -/
theorem decode_le_01FF {w : Word} (h : w.toNat ≤ 0x01FF) :
    decode w = .ok (.br false false false (w.extractLsb' 0 9)) := by
  have hhigh : ∀ k, 9 ≤ k → w.getLsbD k = false := fun k hk =>
    Nat.testBit_lt_two_pow (Nat.lt_of_lt_of_le (Nat.lt_succ_of_le h) (Nat.pow_le_pow_right Nat.two_pos hk))
  have hop : w.extractLsb' 12 4 = 0b0000#4 := by
    apply BitVec.eq_of_getLsbD_eq
    intro k hk
    rw [BitVec.getLsbD_extractLsb', hhigh _ (by omega), Bool.and_false]
    simp
  rw [decode_br w hop, hhigh 11 (by decide), hhigh 10 (by decide), hhigh 9 (by decide)]

namespace Machine

/-! ### What `exec` makes of them -/

theorem exec_not (dr sr : Reg) (s : State) :
    exec (.not dr sr) s = .next (s.loadResult dr (~~~(s.reg sr))) := rfl

theorem exec_shf (dr sr : Reg) (a d : Bool) (imm4 : BitVec 4) (s : State) :
    exec (.shf dr sr a d imm4) s = .next (s.loadResult dr (shiftResult a d (s.reg sr) imm4)) := rfl

theorem exec_lea (dr : Reg) (off : BitVec 9) (s : State) :
    exec (.lea dr off) s = .next (s.loadResult dr (s.pcRelative off)) := rfl

theorem exec_jsrr (base : Reg) (s : State) : exec (.jsrr base) s =
    .next ((s.setReg .r7 s.pcInc).setPc ((s.setReg .r7 s.pcInc).reg base)) := rfl

/-- A BR that tests no code is never taken. -/
theorem exec_br_without_codes (off : BitVec 9) (s : State) :
    exec (.br false false false off) s = .next s.advance := by
  rw [exec_br]
  rfl

/-! ### Complement and shifts on numbers -/

theorem not_eq_ofNat (x : Word) : ~~~x = BitVec.ofNat 16 (0xFFFF - x.toNat) := by
  apply BitVec.eq_of_toNat_eq
  rw [BitVec.toNat_not, BitVec.toNat_ofNat]
  exact (Nat.mod_eq_of_lt (by omega)).symm

/-- A left shift multiplies, modulo 2^16. -/
theorem shl_eq_ofNat (x : Word) (n : Nat) : shl x n = BitVec.ofNat 16 (x.toNat * 2 ^ n) := by
  apply BitVec.eq_of_toNat_eq
  rw [shl, BitVec.toNat_shiftLeft, BitVec.toNat_ofNat, Nat.shiftLeft_eq]

/-- A right shift with zero fill divides the unsigned number. -/
theorem shr_zero_eq_ofNat (x : Word) (n : Nat) : shr x n false = BitVec.ofNat 16 (x.toNat / 2 ^ n) := by
  apply BitVec.eq_of_toNat_eq
  have hquotient : x.toNat / 2 ^ n < 2 ^ 16 := Nat.lt_of_le_of_lt (Nat.div_le_self _ _) x.isLt
  rw [BitVec.toNat_ofNat, Nat.mod_eq_of_lt hquotient, ← Nat.shiftRight_eq_div_pow]
  exact BitVec.toNat_ushiftRight x n

/-- A right shift that fills with the sign bit divides the signed number, rounding down. -/
theorem shr_sign_eq_ofInt (x : Word) (n : Nat) :
    shr x n (x.getLsbD 15) = BitVec.ofInt 16 (x.toInt / 2 ^ n) := by
  have hshift : shr x n (x.getLsbD 15) = x.sshiftRight n := by
    have hmsb : x.msb = x.getLsbD 15 := x.msb_eq_getLsbD_last
    cases hsign : x.getLsbD 15 with
    | true  => exact (BitVec.sshiftRight_eq_of_msb_true (hmsb.trans hsign)).symm
    | false => exact (BitVec.sshiftRight_eq_of_msb_false (hmsb.trans hsign)).symm
  rw [hshift, BitVec.sshiftRight, Int.shiftRight_eq_div_pow]
  norm_cast

end Machine

end Sys2Proof
end

section
/-! SUPPORT. The obligations about NOT, SHF, LEA, JSRR and BR without codes (spec/40_operate.md,
spec/41_control.md, spec/42_load.md). -/

namespace Sys2Proof

open Sys2Proof.Machine

/-- Settles O12: the complement of a 16-bit number is its distance from xFFFF. -/
theorem notComplements : Obligations.NotComplements := by
  unfold Obligations.NotComplements
  intro dr sr s
  rw [← not_eq_ofNat]
  exact ⟨decode_encode (i := .not dr sr) rfl, _, exec_not dr sr s, s.loadResult_writesResult dr _⟩

/-- Settles O13: by the mode bits, each shift as a product or a quotient. -/
theorem shfShiftsByItsModeBits : Obligations.ShfShiftsByItsModeBits := by
  unfold Obligations.ShfShiftsByItsModeBits
  intro dr sr a d imm4 s
  have hdecode := decode_encode (i := .shf dr sr a d imm4) rfl
  rw [encode_shf_eq_append] at hdecode
  refine ⟨hdecode, _, exec_shf dr sr a d imm4 s, ?_⟩
  have hwrites := s.loadResult_writesResult dr (shiftResult a d (s.reg sr) imm4)
  cases d with
  | false => exact shl_eq_ofNat (s.reg sr) imm4.toNat ▸ hwrites
  | true =>
    cases a with
    | false => exact shr_zero_eq_ofNat (s.reg sr) imm4.toNat ▸ hwrites
    | true => exact shr_sign_eq_ofInt (s.reg sr) imm4.toNat ▸ hwrites

/-- Settles O15: such a word is a BR that tests no code, which only advances the PC. -/
theorem brWithoutCodesIsANoOp : Obligations.BrWithoutCodesIsANoOp := by
  unfold Obligations.BrWithoutCodesIsANoOp
  exact fun w hw => ⟨_, decode_le_01FF hw, fun s => exec_br_without_codes _ s⟩

/-- Settles O18: the target is read after the link is written, so base R7 reads the link. -/
theorem jsrrLinksBeforeReadingItsBase : Obligations.JsrrLinksBeforeReadingItsBase := by
  unfold Obligations.JsrrLinksBeforeReadingItsBase
  intro base s
  refine ⟨decode_encode (i := .jsrr base) rfl, _, exec_jsrr base s, ?_, ?_, s.setReg_setPc_frame .r7 _ _⟩
  · rw [State.reg_setPc, State.reg_setReg_same, State.pcInc]
  · rw [State.setPc_pc, alignWord]
    split_ifs with hbase
    · rw [hbase, State.reg_setReg_same, State.pcInc]
    · rw [State.reg_setReg_other _ _ _ _ hbase]

/-- Settles O22: the result is the PC-relative sum, and nothing is accessed. -/
theorem leaLoadsAnAddress : Obligations.LeaLoadsAnAddress := by
  unfold Obligations.LeaLoadsAnAddress
  intro dr off s
  rw [← s.pcRelative_eq_ofInt]
  exact ⟨decode_encode (i := .lea dr off) rfl, _, exec_lea dr off s, s.loadResult_writesResult dr _⟩

end Sys2Proof
end

section
/-! SUPPORT. Word accesses as numbers, and what a store to memory leaves (spec/20_memory.md R53 to R59). -/

namespace Sys2Proof.Machine

/-! ### The two bytes of a word -/

theorem append_bytes_toNat (hi lo : Byte) : (hi ++ lo).toNat = lo.toNat + 256 * hi.toNat := by
  rw [BitVec.toNat_append, ← Nat.shiftLeft_add_eq_or_of_lt lo.isLt, Nat.shiftLeft_eq]
  omega

theorem lowByte_toNat (w : Word) : (w.extractLsb' 0 8).toNat = w.toNat % 256 :=
  BitVec.extractLsb'_toNat ..

theorem highByte_toNat (w : Word) : (w.extractLsb' 8 8).toNat = w.toNat / 256 := by
  rw [BitVec.extractLsb'_toNat, Nat.shiftRight_eq_div_pow]
  omega

/-! ### A word access ignores bit 0 of its address (R53, R59) -/

theorem State.loadWord_alignWord (s : State) (a : Word) : s.loadWord (alignWord a) = s.loadWord a := by
  simp only [State.loadWord, alignWord_alignWord, s.wordAt_congr_alignWord (alignWord_alignWord a)]

theorem State.storeWord_alignWord (s : State) (a v : Word) :
    s.storeWord (alignWord a) v = s.storeWord a v := by
  simp only [State.storeWord, alignWord_alignWord]

/-! ### Stores to memory -/

theorem State.storeByte_readsBack (s : State) (a : Word) (b : Byte) (h : inMemory a) :
    ∃ t, s.storeByte a b = .ok t ∧ t.byteAt a = b ∧ SameMemoryBut [a] s t ∧
      t = { s with mem := t.mem } := by
  have hstore := s.storeByte_memory a b h
  refine ⟨_, hstore, ?_, (State.storeByte_writesOnly (dst := []) hstore (by simp)).memory, rfl⟩
  rw [State.byteAt_write _ _ _ _ h, if_pos rfl]

theorem State.storeWord_readsBack (s : State) (a v : Word) (h : inMemory (alignWord a)) :
    ∃ t, s.storeWord a v = .ok t ∧ t.wordAt a = v ∧
      (t.byteAt (alignWord a)).toNat = v.toNat % 256 ∧
      (t.byteAt (alignWord a + 1)).toNat = v.toNat / 256 ∧
      SameMemoryBut (wordBytes a) s t ∧ t = { s with mem := t.mem } := by
  have hstore := s.storeWord_memory a v h
  refine ⟨_, hstore, s.wordAt_writeWord a v h, ?_, ?_,
    (State.storeWord_writesOnly (dst := []) hstore (List.Subset.refl _)).memory, rfl⟩
  · rw [State.byteAt_writeWord _ _ _ _ h, if_neg (alignWord_succ_ne a).symm, if_pos rfl, lowByte_toNat]
  · rw [State.byteAt_writeWord _ _ _ _ h, if_pos rfl, highByte_toNat]

/-- The ending of a store that changed bytes of memory alone. -/
theorem State.advance_frame_of_stored {s t : State} {bytes : List Word} (hmem : SameMemoryBut bytes s t)
    (h : t = { s with mem := t.mem }) : FrameBut [] bytes s t.advance := by
  have writes : WritesOnlyKeepsPsr [] bytes s t := .of_memory hmem (by rw [h])
  have advanced := writes.trans (State.setPc_writesOnly t.pcInc)
  refine ⟨advanced.regs, ?_, advanced.psr, advanced.memory, ?_⟩
  · rw [h]
    rfl
  · rw [h]
    exact ⟨rfl, rfl, rfl, rfl, rfl, rfl⟩

/-! ### Accesses leave the PC -/

section
variable {s t : State} {a v : Word}

theorem State.loadWord_pc (h : s.loadWord a = .ok (v, t)) : t.pc = s.pc := by
  rw [State.loadWord_ok h]

theorem State.storeWord_pc (h : s.storeWord a v = .ok t) : t.pc = s.pc := by
  rcases State.storeWord_ok h with ⟨_, rfl⟩ | ⟨_, ht⟩
  · rfl
  · rw [ht]

end

end Sys2Proof.Machine
end

section
/-! SUPPORT. LDI, STI and TRAP by what their accesses answer (spec/42_load.md R141; spec/43_store.md R151;
spec/44_system.md R160). -/

namespace Sys2Proof.Machine

variable {s t u : State} {dr sr base : Reg} {off : BitVec 6} {p v : Word} {e : Refusal}

theorem exec_ldi_of_accesses_ok (hpointer : s.loadWord (s.eaWord base off) = .ok (p, t))
    (hload : t.loadWord p = .ok (v, u)) : exec (.ldi dr base off) s = .next (u.loadResult dr v) :=
  execLdi_eq_next.mpr ⟨p, t, hpointer, v, u, hload, rfl⟩

theorem exec_ldi_of_pointer_error (hpointer : s.loadWord (s.eaWord base off) = .error e) :
    exec (.ldi dr base off) s = .refused e := by
  change execLdi dr base off s = _
  rw [execLdi, hpointer]
  rfl

theorem exec_ldi_of_load_error (hpointer : s.loadWord (s.eaWord base off) = .ok (p, t))
    (hload : t.loadWord p = .error e) : exec (.ldi dr base off) s = .refused e := by
  change execLdi dr base off s = _
  simp only [execLdi, hpointer, hload, bind, Except.bind, finish]

theorem exec_sti_of_pointer_error (hpointer : s.loadWord (s.eaWord base off) = .error e) :
    exec (.sti sr base off) s = .refused e := by
  change execSti sr base off s = _
  rw [execSti, hpointer]
  rfl

theorem exec_sti_of_store_error (hpointer : s.loadWord (s.eaWord base off) = .ok (p, t))
    (hstore : t.storeWord p (s.reg sr) = .error e) : exec (.sti sr base off) s = .refused e := by
  change execSti sr base off s = _
  simp only [execSti, hpointer, hstore, bind, Except.bind, finish]

/-- The table entries of TRAP are the words of x0000 to x01FF. -/
theorem trapEntry_inMemory (vect : BitVec 8) : inMemory (alignWord (trapEntry vect)) := by
  rw [inMemory, alignWord_toNat, trapEntry_toNat]
  omega

theorem trapEntry_eq_ofNat (vect : BitVec 8) : trapEntry vect = BitVec.ofNat 16 (2 * vect.toNat) := by
  rw [← trapEntry_toNat, BitVec.ofNat_toNat, BitVec.setWidth_eq]

/-- TRAP's table lies in memory, so TRAP always answers: a link and a write of the PC. -/
theorem exec_trap (vect : BitVec 8) (s : State) : exec (.trap vect) s =
    .next ((s.setReg .r7 s.pcInc).setPc (s.wordAt (trapEntry vect))) := by
  have hload := (s.setReg .r7 s.pcInc).loadWord_memory (trapEntry vect) (trapEntry_inMemory vect)
  rw [State.wordAt_congr (s.setReg_mem .r7 s.pcInc)] at hload
  exact execTrap_eq_next.mpr ⟨_, _, hload, rfl⟩

end Sys2Proof.Machine
end

section
/-! SUPPORT. The obligations about memory, the loads, the stores and TRAP (spec/20_memory.md,
spec/42_load.md, spec/43_store.md, spec/44_system.md). -/

namespace Sys2Proof.Machine

/-- Settles O37, from the reads after a write of `State.storeByte_readsBack` and
`State.storeWord_readsBack`. -/
theorem storesReadBack : Obligations.StoresReadBack := by
  unfold Obligations.StoresReadBack
  exact ⟨State.storeByte_readsBack, State.storeWord_readsBack⟩

/-- Settles O38: both accesses use the aligned address alone, and a word is its two bytes appended. -/
theorem wordAccessIsAlignedLittleEndian : Obligations.WordAccessIsAlignedLittleEndian := by
  unfold Obligations.WordAccessIsAlignedLittleEndian
  exact fun s a => ⟨append_bytes_toNat _ _, s.loadWord_alignWord a, s.storeWord_alignWord a⟩

/-- Settles O19: the one access stays in memory. -/
theorem ldbLoadsAByteZeroExtended : Obligations.LdbLoadsAByteZeroExtended := by
  unfold Obligations.LdbLoadsAByteZeroExtended
  intro dr base off s
  refine ⟨decode_encode (i := .ldb dr base off) rfl, fun hmem => ?_⟩
  rw [← zext16_eq_ofNat]
  exact ⟨_, exec_ldb_of_loadByte_ok (s.loadByte_memory _ hmem), s.loadResult_writesResult dr _⟩

/-- Settles O20: both accesses stay in memory, so the second reads from the state of the first. -/
theorem ldiLoadsAWordIndirect : Obligations.LdiLoadsAWordIndirect := by
  unfold Obligations.LdiLoadsAWordIndirect
  intro dr base off s
  refine ⟨decode_encode (i := .ldi dr base off) rfl, fun hpointer hmem => ?_⟩
  have hexec := exec_ldi_of_accesses_ok (dr := dr) (s.loadWord_memory _ hpointer)
    (s.loadWord_memory _ hmem)
  exact ⟨_, hexec, s.loadResult_writesResult dr _⟩

/-- Settles O21: the one access stays in memory. -/
theorem ldrLoadsAWord : Obligations.LdrLoadsAWord := by
  unfold Obligations.LdrLoadsAWord
  intro dr base off s
  exact ⟨decode_encode (i := .ldr dr base off) rfl, fun hmem =>
    ⟨_, exec_ldr_of_loadWord_ok (s.loadWord_memory _ hmem), s.loadResult_writesResult dr _⟩⟩

/-- Settles O23: the stored byte is read back past the advance of the PC. -/
theorem stbStoresTheLowByte : Obligations.StbStoresTheLowByte := by
  unfold Obligations.StbStoresTheLowByte
  intro sr base off s
  refine ⟨decode_encode (i := .stb sr base off) rfl, fun hmem => ?_⟩
  obtain ⟨t, hstore, hbyte, hother, ht⟩ := s.storeByte_readsBack _ ((s.reg sr).extractLsb' 0 8) hmem
  refine ⟨t.advance, exec_stb_of_storeByte_ok hstore, ?_, ?_, State.advance_frame_of_stored hother ht⟩
  · rw [State.byteAt, State.advance_mem, ← State.byteAt, hbyte, lowByte_toNat]
  · rw [ht]
    rfl

/-- Settles O24: the pointer is read from memory, and the word stored there is read back past the advance of
the PC. -/
theorem stiStoresAWordIndirect : Obligations.StiStoresAWordIndirect := by
  unfold Obligations.StiStoresAWordIndirect
  intro sr base off s
  refine ⟨decode_encode (i := .sti sr base off) rfl, fun hpointer hmem => ?_⟩
  obtain ⟨t, hstore, hword, -, -, hother, ht⟩ := s.storeWord_readsBack _ (s.reg sr) hmem
  refine ⟨t.advance, exec_sti_of_accesses_ok (s.loadWord_memory _ hpointer) hstore, ?_, ?_,
    State.advance_frame_of_stored hother ht⟩
  · rw [State.wordAt_congr t.advance_mem, hword]
  · rw [State.advance_pc, State.storeWord_pc hstore, alignWord]

/-- Settles O25: the two bytes stored are read back past the advance of the PC. -/
theorem strStoresAWord : Obligations.StrStoresAWord := by
  unfold Obligations.StrStoresAWord
  intro sr base off s
  refine ⟨decode_encode (i := .str sr base off) rfl, fun hmem => ?_⟩
  obtain ⟨t, hstore, -, hlow, hhigh, hother, ht⟩ := s.storeWord_readsBack _ (s.reg sr) hmem
  refine ⟨t.advance, exec_str_of_storeWord_ok hstore, hlow, hhigh, ?_,
    State.advance_frame_of_stored hother ht⟩
  rw [State.advance_pc, State.storeWord_pc hstore, alignWord]

/-- Settles O26: TRAP's table entry is read from memory (`exec_trap`), after the link is written. -/
theorem trapCallsThroughItsTable : Obligations.TrapCallsThroughItsTable := by
  unfold Obligations.TrapCallsThroughItsTable
  intro vect s
  refine ⟨decode_encode (i := .trap vect) rfl, _, exec_trap vect s, ?_, ?_,
    s.setReg_setPc_frame .r7 _ _⟩
  · rw [State.reg_setPc, State.reg_setReg_same, State.pcInc]
  · rw [State.setPc_pc, alignWord, trapEntry_eq_ofNat]

/-- Settles O41: by the answer to the first access, and for each instruction by the answer to its second. -/
theorem indirectAccessesRunInOrder : Obligations.IndirectAccessesRunInOrder := by
  unfold Obligations.IndirectAccessesRunInOrder
  intro s dr base off
  cases hpointer : s.loadWord (s.eaWord base off) with
  | error e => exact ⟨exec_ldi_of_pointer_error hpointer, exec_sti_of_pointer_error hpointer⟩
  | ok answer =>
    obtain ⟨p, x⟩ := answer
    constructor
    case left =>
      cases hload : x.loadWord p with
      | error e => exact exec_ldi_of_load_error hpointer hload
      | ok answer =>
        obtain ⟨v, y⟩ := answer
        exact ⟨_, exec_ldi_of_accesses_ok hpointer hload, y.loadResult_writesResult dr v⟩
    case right =>
      cases hstore : x.storeWord p (s.reg dr) with
      | error e => exact exec_sti_of_store_error hpointer hstore
      | ok y =>
        have hpc : y.pc = s.pc := (State.storeWord_pc hstore).trans (State.loadWord_pc hpointer)
        refine ⟨_, exec_sti_of_accesses_ok hpointer hstore, ?_, y.advance_frame⟩
        rw [State.advance_pc, hpc, alignWord]

end Sys2Proof.Machine
end

section
/-! SUPPORT. RTI and the handler entries by their accesses: no access depends on the PSR or on SSP, so each is
its accesses in order and then one write of the PSR, SSP and the PC (spec/20_memory.md R61;
spec/44_system.md R161; spec/60_exceptions.md R172, R178). -/

namespace Sys2Proof.Machine

theorem bind_eq_error {ε α β : Type} {x : Except ε α} {f : α → Except ε β} {e : ε} :
    x >>= f = .error e ↔ x = .error e ∨ ∃ a, x = .ok a ∧ f a = .error e := by
  cases x <;> simp [bind, Except.bind]

/-- The state with another PSR and another SSP, the two fields that entries and returns write. -/
def State.withPsrSsp (psr ssp : Word) (s : State) : State := { s with psr := psr, ssp := ssp }

variable {s t x y z : State} {psr ssp a v : Word}

/-! ### Accesses and stack operations -/

theorem State.loadWord_withPsrSsp : (s.withPsrSsp psr ssp).loadWord a =
    (s.loadWord a).map (Prod.map id (State.withPsrSsp psr ssp)) := by
  unfold State.loadWord
  rw [show (s.withPsrSsp psr ssp).device = s.device from rfl]
  repeat' split
  all_goals rfl

theorem State.storeWord_withPsrSsp : (s.withPsrSsp psr ssp).storeWord a v =
    (s.storeWord a v).map (State.withPsrSsp psr ssp) := by
  unfold State.storeWord
  rw [show (s.withPsrSsp psr ssp).device = s.device from rfl]
  repeat' split
  all_goals rfl

/-- A word store changes memory and the device's state at most. -/
theorem State.storeWord_frame (h : s.storeWord a v = .ok t) :
    t = { s with mem := t.mem, device := t.device } := by
  rcases State.storeWord_ok h with ⟨_, rfl⟩ | ⟨_, ht⟩
  · rfl
  · rw [ht]

theorem State.pushSupervisor_withPsrSsp : (s.withPsrSsp psr ssp).pushSupervisor v =
    (s.storeWord (ssp - 2) v).map (State.withPsrSsp psr (ssp - 2)) :=
  State.storeWord_withPsrSsp (s := s) (ssp := ssp - 2)

theorem State.popSupervisor_withPsrSsp : (s.withPsrSsp psr ssp).popSupervisor =
    (s.loadWord ssp).map (Prod.map id (State.withPsrSsp psr (ssp + 2))) := by
  unfold State.popSupervisor
  rw [State.loadWord_withPsrSsp]
  change (s.loadWord ssp).map _ >>= _ = _
  cases s.loadWord ssp <;> rfl

/-! ### Handler entry -/

/-- The PSR a handler entry leaves: Supervisor mode, and the level it is given (spec/60_exceptions.md
R178). -/
def State.entryPsr (s : State) (level : Option (BitVec 3)) : Word := (s.enterSupervisor.setLevel level).psr

theorem State.setLevel_withPsrSsp (level : Option (BitVec 3)) :
    (z.withPsrSsp (s.psr &&& 0x7FFF) ssp).setLevel level = z.withPsrSsp (s.entryPsr level) ssp := by
  cases level <;> rfl

theorem State.entryPsr_userMode (level : Option (BitVec 3)) : (s.entryPsr level).getLsbD 15 = false :=
  (s.enterSupervisor.setLevel_userMode level).trans s.enterSupervisor_userMode

theorem State.entryPsr_priority (level : Option (BitVec 3)) :
    (s.entryPsr level).extractLsb' 8 3 = level.getD s.priority := by
  rw [← s.enterSupervisor_priority]
  exact s.enterSupervisor.setLevel_priority level

/-- A handler entry is its three accesses in order, and then one write of the PSR, SSP and the PC. -/
theorem State.enterHandler_eq_map (s : State) (savedPc entry : Word) (level : Option (BitVec 3)) :
    s.enterHandler savedPc level entry =
      (entryAccesses s savedPc entry).map fun answer =>
        (answer.2.withPsrSsp (s.entryPsr level) (s.ssp - 4)).setPc answer.1 := by
  have hssp : s.ssp - 2 - 2 = s.ssp - 4 := sub_sub s.ssp 2 2
  have hpush : s.enterSupervisor.pushSupervisor s.readPsr =
      (s.storeWord (s.ssp - 2) (s.psr &&& 0x8707)).map
        (State.withPsrSsp (s.psr &&& 0x7FFF) (s.ssp - 2)) :=
    State.pushSupervisor_withPsrSsp
  unfold State.enterHandler entryAccesses
  rw [hpush]
  cases s.storeWord (s.ssp - 2) (s.psr &&& 0x8707) with
  | error e => rfl
  | ok x =>
    simp only [Except.map, bind, Except.bind, State.pushSupervisor_withPsrSsp, hssp]
    cases x.storeWord (s.ssp - 4) savedPc with
    | error e => rfl
    | ok y =>
      simp only [State.setLevel_withPsrSsp, State.loadWord_withPsrSsp]
      cases y.loadWord entry <;> rfl

theorem entryAccesses_eq_bind (s : State) (savedPc entry : Word) : entryAccesses s savedPc entry =
    s.storeWord (s.ssp - 2) (s.psr &&& 0x8707) >>= fun x =>
      x.storeWord (s.ssp - 4) savedPc >>= fun y => y.loadWord entry := by
  unfold entryAccesses
  cases s.storeWord (s.ssp - 2) (s.psr &&& 0x8707) with
  | error e => rfl
  | ok x =>
    simp only [bind, Except.bind]
    cases x.storeWord (s.ssp - 4) savedPc <;> rfl

/-- The accesses of a handler entry change memory and the device's state at most. -/
theorem entryAccesses_ok {savedPc entry : Word} (h : entryAccesses s savedPc entry = .ok (v, z)) :
    z = { s with mem := z.mem, device := z.device } := by
  simp only [entryAccesses_eq_bind, bind_eq_ok] at h
  obtain ⟨x, hpsr, y, hpc, hload⟩ := h
  rw [State.loadWord_ok hload, State.storeWord_frame hpc, State.storeWord_frame hpsr]

/-- What a handler entry makes of the state after its accesses. -/
theorem State.entersFrom_of_entryAccesses {savedPc entry : Word} (level : Option (BitVec 3))
    (h : entryAccesses s savedPc entry = .ok (v, z)) :
    EntersFrom s z ((z.withPsrSsp (s.entryPsr level) (s.ssp - 4)).setPc v) v
      (level.getD s.priority) where
  ssp      := rfl
  usp      := by rw [entryAccesses_ok h]; rfl
  mode     := State.entryPsr_userMode level
  priority := State.entryPsr_priority level
  psrRest  := s.enterSupervisor_setLevel_psrRest level
  pc       := rfl
  regs     := fun r hr => by
    rw [entryAccesses_ok h]
    cases r with
    | r6 => exact absurd rfl hr
    | _  => rfl
  memory   := .of_mem_eq _ rfl
  outside  := ⟨rfl, rfl, rfl, rfl, rfl, rfl⟩

theorem State.enterHandler_of_accesses_ok {savedPc entry : Word} (level : Option (BitVec 3))
    (h : entryAccesses s savedPc entry = .ok (v, z)) :
    ∃ t, s.enterHandler savedPc level entry = .ok t ∧ EntersFrom s z t v (level.getD s.priority) := by
  refine ⟨_, ?_, State.entersFrom_of_entryAccesses level h⟩
  rw [State.enterHandler_eq_map, h]
  rfl

theorem State.enterHandler_of_accesses_error {savedPc entry : Word} {e : Refusal}
    (level : Option (BitVec 3)) (h : entryAccesses s savedPc entry = .error e) :
    s.enterHandler savedPc level entry = .error e := by
  rw [State.enterHandler_eq_map, h]
  rfl

/-- An interrupt entry that answers has set the priority level to the source's. -/
theorem State.interruptEntry_priority {src : IntSource} (h : s.interruptEntry src = .ok t) :
    t.priority = src.pl := by
  rw [State.interruptEntry, State.enterHandler_eq_map] at h
  cases haccess : entryAccesses s s.pc (vectorAddr s.config.intVectors src.vector) with
  | error e => simp [haccess, Except.map] at h
  | ok answer =>
    rw [haccess] at h
    cases h
    exact State.entryPsr_priority _

/-- Under `DEVICE = refuse` an entry with an access outside memory makes that access in vain
(spec/20_memory.md R62). -/
theorem entryAccesses_refuse {savedPc entry : Word} (hd : s.device = .refuse)
    (h : ¬ entryInMemory s entry) : entryAccesses s savedPc entry = .error .deviceAccess := by
  rw [entryAccesses_eq_bind, bind_eq_error]
  by_cases hpsr : inMemory (alignWord (s.ssp - 2))
  · refine .inr ⟨_, s.storeWord_memory _ _ hpsr, bind_eq_error.mpr ?_⟩
    by_cases hpc : inMemory (alignWord (s.ssp - 4))
    · have hentry : deviceBase ≤ (alignWord entry).toNat :=
        Nat.le_of_not_lt fun hentry => h ⟨hpsr, hpc, hentry⟩
      exact .inr ⟨_, State.storeWord_memory _ _ _ hpc, State.loadWord_refuse _ _ hentry hd⟩
    · exact .inl (State.storeWord_refuse _ _ _ (Nat.le_of_not_lt hpc) hd)
  · exact .inl (s.storeWord_refuse _ _ (Nat.le_of_not_lt hpsr) hd)

/-! ### RTI -/

/-- RTI in User mode under `EXC_POLICY = vector` is its exception's handler entry (spec/60_exceptions.md
R172). -/
theorem exec_rti_vector (hmode : s.userMode = true) (hpolicy : s.config.excPolicy = .vector) :
    exec .rti s = finish (s.enterHandler (s.pc + 2) none (vectorAddr s.config.excVectors 0x00)) := by
  change execRti s = _
  simp only [execRti, State.raisePrivilegeModeViolation, hmode, hpolicy, if_true]
  rfl

theorem exec_rti_supervisor (hmode : s.userMode = false) : exec .rti s = finish s.returnFromHandler := by
  change execRti s = _
  simp only [execRti, hmode, Bool.false_eq_true, if_false]

/-- The first pop reads at SSP. -/
theorem State.popSupervisor_eq_map (s : State) : s.popSupervisor =
    (s.loadWord s.ssp).map (Prod.map id (State.withPsrSsp s.psr (s.ssp + 2))) :=
  State.popSupervisor_withPsrSsp (psr := s.psr) (ssp := s.ssp)

section
variable {tPc tPsr : Word} {e : Refusal} (hmode : s.userMode = false)
include hmode

theorem exec_rti_of_pc_error (hpc : s.loadWord s.ssp = .error e) : exec .rti s = .refused e := by
  rw [exec_rti_supervisor hmode, State.returnFromHandler, State.popSupervisor_eq_map, hpc]
  rfl

theorem exec_rti_of_psr_error (hpc : s.loadWord s.ssp = .ok (tPc, x))
    (hpsr : x.loadWord (s.ssp + 2) = .error e) : exec .rti s = .refused e := by
  rw [exec_rti_supervisor hmode, State.returnFromHandler, State.popSupervisor_eq_map, hpc]
  simp only [Except.map, Prod.map, bind, Except.bind, State.popSupervisor_withPsrSsp, hpsr, finish]

/-- A return that both accesses answer: it writes the PC, the PSR and SSP, and a device may have changed its
state. -/
theorem exec_rti_of_pops_ok (hpc : s.loadWord s.ssp = .ok (tPc, x))
    (hpsr : x.loadWord (s.ssp + 2) = .ok (tPsr, y)) :
    ∃ t, exec .rti s = .next t ∧ t.pc = tPc &&& 0xFFFE ∧ t.psr = tPsr &&& 0x8707 ∧
      t.ssp = s.ssp + 4 ∧ t.usp = s.usp ∧ (∀ r, r ≠ .r6 → t.reg r = s.reg r) ∧
      SameMemoryBut [] s t ∧ SameOutside y t := by
  have hssp : s.ssp + 2 + 2 = s.ssp + 4 := add_assoc s.ssp 2 2
  have hy : y = { s with device := y.device } := by rw [State.loadWord_ok hpsr, State.loadWord_ok hpc]
  have hexec : exec .rti s = .next ((y.withPsrSsp (tPsr &&& 0x8707) (s.ssp + 4)).setPc tPc) := by
    rw [exec_rti_supervisor hmode, State.returnFromHandler, State.popSupervisor_eq_map, hpc]
    simp only [Except.map, Prod.map, bind, Except.bind, State.popSupervisor_withPsrSsp, hpsr, hssp]
    rfl
  refine ⟨_, hexec, rfl, rfl, rfl, ?usp, ?regs, ?memory, ⟨rfl, rfl, rfl, rfl, rfl, rfl⟩⟩
  case usp => rw [hy]; rfl
  case regs =>
    intro r hr
    rw [hy]
    cases r with
    | r6 => exact absurd rfl hr
    | _  => rfl
  case memory => exact .of_mem_eq _ (by rw [hy]; rfl)

/-- Under `DEVICE = refuse` a return with a pop outside memory is refused (spec/20_memory.md R62). -/
theorem exec_rti_refuse (hd : s.device = .refuse) (h : ¬ popsInMemory s) :
    exec .rti s = .refused .deviceAccess := by
  by_cases hpc : inMemory (alignWord s.ssp)
  · have hpsr : deviceBase ≤ (alignWord (s.ssp + 2)).toNat :=
      Nat.le_of_not_lt fun hpsr => h ⟨hpc, hpsr⟩
    exact exec_rti_of_psr_error hmode (s.loadWord_memory _ hpc) (s.loadWord_refuse _ hpsr hd)
  · exact exec_rti_of_pc_error hmode (s.loadWord_refuse _ (Nat.le_of_not_lt hpc) hd)

end

end Sys2Proof.Machine
end

section
/-! SUPPORT. The stops of instructions: the one exception and the refused accesses (spec/60_exceptions.md
R171). -/

namespace Sys2Proof.Machine

theorem pure_ne_error {ε α : Type} {a : α} {e : ε} : (pure a : Except ε α) ≠ .error e := nofun

variable {i : Instr} {s : State}

theorem exec_ne_fault {f : Fault} (hrti : i ≠ .rti) : exec i s ≠ .fault f := by
  cases i with
  | rti => exact absurd rfl hrti
  | br n z p off => rw [exec_br]; nofun
  | ldb | ldi | ldr | stb | sti | str | trap => exact finish_ne_fault
  | addReg | addImm | andReg | andImm | ret | jmp | jsr | jsrr | lea | not | shf => nofun

/-- RTI faults in User mode under `EXC_POLICY = fault` alone (spec/60_exceptions.md R172). -/
theorem exec_rti_eq_fault_iff {f : Fault} : exec .rti s = .fault f ↔
    f = .privilegeModeViolation ∧ s.userMode = true ∧ s.config.excPolicy = .fault := by
  cases hmode : s.userMode with
  | false => simp [exec_rti_supervisor hmode, finish_ne_fault]
  | true =>
    cases hpolicy : s.config.excPolicy with
    | vector => simp [exec_rti_vector hmode hpolicy, finish_ne_fault]
    | fault =>
      have hexec : exec .rti s = .fault .privilegeModeViolation := execRti_userMode_fault hmode hpolicy
      simp [hexec]

/-- An access followed by an ending is refused where the access is. -/
theorem eq_deviceAccess_of_access {α : Type} {access : Except Refusal α} {ending : α → State}
    {e : Refusal} (haccess : ∀ e, access = .error e → e = .deviceAccess)
    (h : (access >>= fun answer => pure (ending answer)) = .error e) : e = .deviceAccess := by
  rcases bind_eq_error.mp h with herror | ⟨_, _, hpure⟩
  · exact haccess e herror
  · exact absurd hpure pure_ne_error

/-- An instruction is refused only for a device access: at one of its accesses, in their order. -/
theorem exec_refused {e : Refusal} (h : exec i s = .refused e) : e = .deviceAccess := by
  cases i with
  | addReg | addImm | andReg | andImm | ret | jmp | jsr | jsrr | lea | not | shf => cases h
  | br n z p off => rw [exec_br] at h; cases h
  | trap vect => rw [exec_trap] at h; cases h
  | ldb => exact eq_deviceAccess_of_access (fun _ => State.loadByte_error) (finish_eq_refused.mp h)
  | ldr => exact eq_deviceAccess_of_access (fun _ => State.loadWord_error) (finish_eq_refused.mp h)
  | stb => exact eq_deviceAccess_of_access (fun _ => State.storeByte_error) (finish_eq_refused.mp h)
  | str => exact eq_deviceAccess_of_access (fun _ => State.storeWord_error) (finish_eq_refused.mp h)
  | ldi =>
    rcases bind_eq_error.mp (finish_eq_refused.mp h) with hpointer | ⟨_, _, hload⟩
    · exact State.loadWord_error hpointer
    · exact eq_deviceAccess_of_access (fun _ => State.loadWord_error) hload
  | sti =>
    rcases bind_eq_error.mp (finish_eq_refused.mp h) with hpointer | ⟨_, _, hstore⟩
    · exact State.loadWord_error hpointer
    · exact eq_deviceAccess_of_access (fun _ => State.storeWord_error) hstore
  | rti =>
    cases hmode : s.userMode with
    | false =>
      rw [exec_rti_supervisor hmode, finish_eq_refused] at h
      exact State.returnFromHandler_error h
    | true =>
      cases hpolicy : s.config.excPolicy with
      | fault =>
        have hexec : exec .rti s = .fault .privilegeModeViolation := execRti_userMode_fault hmode hpolicy
        rw [hexec] at h
        cases h
      | vector =>
        rw [exec_rti_vector hmode hpolicy, finish_eq_refused] at h
        exact State.enterHandler_error h

end Sys2Proof.Machine
end

section
/-! SUPPORT. The obligations about RTI, the handler entries and the stops of instructions
(spec/44_system.md, spec/60_exceptions.md, spec/20_memory.md). -/

namespace Sys2Proof.Machine

/-- Settles O42: by the answers to the accesses in order, for RTI's two pops and for the three accesses that
the two handler entries share. -/
theorem stackAccessesRunInOrder : Obligations.StackAccessesRunInOrder := by
  unfold Obligations.StackAccessesRunInOrder
  refine ⟨fun s hmode => ?pops, fun s src => ?interrupt, fun s hmode hpolicy => ?exception⟩
  case pops =>
    cases hpc : s.loadWord s.ssp with
    | error e => exact exec_rti_of_pc_error hmode hpc
    | ok answer =>
      obtain ⟨tPc, x⟩ := answer
      cases hpsr : x.loadWord (s.ssp + 2) with
      | error e =>
        simp only [hpsr]
        exact exec_rti_of_psr_error hmode hpc hpsr
      | ok answer =>
        obtain ⟨tPsr, y⟩ := answer
        simp only [hpsr]
        exact exec_rti_of_pops_ok hmode hpc hpsr
  case interrupt =>
    cases haccess : entryAccesses s s.pc (vectorAddr s.config.intVectors src.vector) with
    | error e => exact State.enterHandler_of_accesses_error (some src.pl) haccess
    | ok answer => exact State.enterHandler_of_accesses_ok (some src.pl) haccess
  case exception =>
    rw [exec_rti_vector hmode hpolicy]
    cases haccess : entryAccesses s (s.pc + 2) (vectorAddr s.config.excVectors 0x00) with
    | error e => exact finish_eq_refused.mpr (State.enterHandler_of_accesses_error none haccess)
    | ok answer =>
      obtain ⟨t, hentry, enters⟩ := State.enterHandler_of_accesses_ok none haccess
      exact ⟨t, finish_eq_next.mpr hentry, enters⟩

/-- Settles O39: the first access outside memory is refused, and each instruction and each entry with it. -/
theorem deviceRefuseStopsTheAccess : Obligations.DeviceRefuseStopsTheAccess := by
  unfold Obligations.DeviceRefuseStopsTheAccess
  intro s hd
  refine ⟨fun dr base off h => ?byte, fun dr base off h => ?word, fun dr base off h => ?indirect,
    fun hmode h => exec_rti_refuse hmode hd h, fun hmode hpolicy h => ?exception,
    fun src h => State.enterHandler_of_accesses_error _ (entryAccesses_refuse hd h)⟩
  case byte =>
    have ha : deviceBase ≤ (s.eaByte base off).toNat := Nat.le_of_not_lt h
    exact ⟨exec_ldb_of_loadByte_error (s.loadByte_refuse _ ha hd),
      exec_stb_of_storeByte_error (s.storeByte_refuse _ _ ha hd)⟩
  case word =>
    have ha : deviceBase ≤ (alignWord (s.eaWord base off)).toNat := Nat.le_of_not_lt h
    exact ⟨exec_ldr_of_loadWord_error (s.loadWord_refuse _ ha hd),
      exec_str_of_storeWord_error (s.storeWord_refuse _ _ ha hd)⟩
  case indirect =>
    rcases h with h | ⟨h, hmem⟩
    · have hpointer := s.loadWord_refuse _ (Nat.le_of_not_lt h) hd
      exact ⟨exec_ldi_of_pointer_error hpointer, exec_sti_of_pointer_error hpointer⟩
    · have hpointer := s.loadWord_memory _ hmem
      have ha : deviceBase ≤ (alignWord (s.wordAt (s.eaWord base off))).toNat := Nat.le_of_not_lt h
      exact ⟨exec_ldi_of_load_error hpointer (s.loadWord_refuse _ ha hd),
        exec_sti_of_store_error hpointer (s.storeWord_refuse _ _ ha hd)⟩
  case exception =>
    rw [exec_rti_vector hmode hpolicy, finish_eq_refused]
    exact State.enterHandler_of_accesses_error none (entryAccesses_refuse hd h)

/-- Settles O27: both pops are read from memory. -/
theorem rtiPopsPcAndPsr : Obligations.RtiPopsPcAndPsr := by
  unfold Obligations.RtiPopsPcAndPsr
  exact ⟨decode_encode (i := .rti) rfl, fun s hmode ⟨hpc, hpsr⟩ =>
    exec_rti_of_pops_ok hmode (s.loadWord_memory _ hpc) (s.loadWord_memory _ hpsr)⟩

/-- Settles O28: RTI raises its exception before any effect. -/
theorem rtiInUserModeFaults : Obligations.RtiInUserModeFaults := by
  unfold Obligations.RtiInUserModeFaults
  exact fun s hmode hpolicy => execRti_userMode_fault hmode hpolicy

/-- Settles O29: the exception's entry is given no level, so the process's own stays. -/
theorem rtiInUserModeEntersItsHandler : Obligations.RtiInUserModeEntersItsHandler := by
  unfold Obligations.RtiInUserModeEntersItsHandler
  intro s hmode hpolicy hmem
  obtain ⟨t, hentry, enters⟩ := s.enterHandler_entersHandler (s.pc + 2) _ none hmem
  refine ⟨t, ?_, enters⟩
  rw [exec_rti_vector hmode hpolicy, hentry, finish_ok]

/-- Settles O30: an interrupt's entry is given the source's level. -/
theorem interruptEntrySavesAndVectors : Obligations.InterruptEntrySavesAndVectors := by
  unfold Obligations.InterruptEntrySavesAndVectors
  exact fun s src hmem => s.enterHandler_entersHandler s.pc _ (some src.pl) hmem

/-- Settles O36: the return pops the two words that the entry pushed, and a legal state's PC and PSR are what
their aligned and masked values are. -/
theorem rtiUndoesInterruptEntry : Obligations.RtiUndoesInterruptEntry := by
  unfold Obligations.RtiUndoesInterruptEntry
  intro s src t h hlegal hmem hentry hmode hssp hpc hpsr
  obtain ⟨heven, hs⟩ := s.legal_iff.mp hlegal
  obtain ⟨t', hentry', enters⟩ := interruptEntrySavesAndVectors s src hmem
  obtain rfl : t' = t := Except.ok.inj (hentry'.symm.trans hentry)
  have hlow : h.ssp = s.ssp - 4 := hssp.trans enters.ssp
  have hhigh : h.ssp + 2 = s.ssp - 2 := by
    rw [hlow]
    bv_omega
  have hpops : popsInMemory h := by
    obtain ⟨hpushPsr, hpushPc, _⟩ := hmem
    exact ⟨by rwa [hlow], by rwa [hhigh]⟩
  obtain ⟨u, hexec, hupc, hupsr, hussp, husp, hregs, hmemory, _⟩ := rtiPopsPcAndPsr.2 h hmode hpops
  refine ⟨u, hexec, ?pc, ?psr, ?ssp, husp, hregs, hmemory⟩
  case pc =>
    rw [hupc, hpc, ← hssp, hlow, enters.savedPc]
    exact alignWord_of_even s.pc heven
  case psr =>
    have hdefined : s.psr &&& 0x8707 = s.psr := and_psrMask_of_undefined_zero hs.psr
    rw [hupsr, hpsr, ← hssp, hhigh, enters.savedPsr, hdefined, hdefined]
  case ssp =>
    rw [hussp, hlow]
    exact sub_add_cancel s.ssp 4

/-- Settles O55: the faults by RTI's mode and policy, the refusals by each instruction's accesses. -/
theorem onlyRtiInUserModeFaults : Obligations.OnlyRtiInUserModeFaults := by
  unfold Obligations.OnlyRtiInUserModeFaults
  refine fun i s => ⟨fun f => ?_, fun e => exec_refused⟩
  by_cases hrti : i = .rti
  · subst hrti
    rw [exec_rti_eq_fault_iff]
    exact and_congr_right fun _ => (and_iff_right rfl).symm
  · exact iff_of_false (exec_ne_fault hrti) fun ⟨_, hi, _⟩ => hrti hi

end Sys2Proof.Machine
end

section
/-! SUPPORT. Vector tables, words of the source's examples, and boundaries at which no instruction runs
(spec/30_encoding.md R100; spec/60_exceptions.md R172, R179; spec/70_reset_and_hazards.md R205). -/

namespace Sys2Proof

open Sys2Proof.Machine

theorem decode_of_encode_eq {w : Word} {i : Instr} (hwf : i.wellFormed = true) (hword : encode i = w) :
    decode w = .ok i :=
  hword ▸ decode_encode hwf

namespace Machine

/-! ### Vector tables -/

section
variable {table before rest : List (BitVec 8 × Word)} {number : BitVec 8}

theorem vectorAddr_of_not_listed (h : ∀ e ∈ table, e.1 ≠ number) :
    (vectorAddr table number).toNat = 0x0100 + 2 * number.toNat := by
  have hlookup : table.lookup number = none := by
    rw [List.lookup_eq_none_iff]
    exact fun e he => by simpa using (h e he).symm
  have hentry : vectorAddr table number = 0x0100 + trapEntry number := by
    simp only [vectorAddr, hlookup, trapEntry]
  have hbase : (0x0100 : Word).toNat = 0x0100 := rfl
  rw [hentry, BitVec.toNat_add, trapEntry_toNat, hbase]
  omega

theorem vectorAddr_of_first_departure (a : Word) (h : ∀ e ∈ before, e.1 ≠ number) :
    vectorAddr (before ++ (number, a) :: rest) number = a := by
  have hbefore : before.lookup number = none := by
    rw [List.lookup_eq_none_iff]
    exact fun e he => by simpa using (h e he).symm
  have hlookup : (before ++ (number, a) :: rest).lookup number = some a := by
    rw [List.lookup_append, hbefore, Option.none_or, List.lookup_cons_self]
  simp only [vectorAddr, hlookup]

end

/-! ### Boundaries -/

variable {s u : State}

theorem step_of_runOver (h : s.config.haltPcs.contains s.pc = true) : step s = .refused .runOver := by
  simp only [step, State.runOver, h, if_true]

theorem State.chooseInterrupt_of_no_candidates (h : s.candidates = []) :
    s.chooseInterrupt = (none, { s with wait := s.wait.over }) := by
  simp only [State.chooseInterrupt, h]

/-- Without sources no request is accepted. -/
theorem State.candidates_of_no_sources (h : s.sources = []) : s.candidates = [] := by
  simp only [State.candidates, h, List.filter_nil]

theorem Wait.over_eq_self {w : Wait} (hplaces : w.places = []) (hdelay : w.delay = 0) : w.over = w := by
  obtain ⟨places, delay, begun⟩ := w
  cases hplaces
  cases hdelay
  rfl

/-- The interrupt chosen is an accepted request of the highest priority, and only what is left to choose
changes. -/
theorem State.chooseInterrupt_some {src : IntSource} (h : s.chooseInterrupt = (some src, u)) :
    HighestAt s src ∧ u = { s with choices := u.choices, wait := u.wait } := by
  refine ⟨?highest, by simpa only [h] using s.chooseInterrupt_frame⟩
  rw [State.highestAt_iff]
  rcases s.chooseInterrupt_cases with ⟨_, hnone⟩ |
    ⟨_, ⟨_, _, hdefer⟩ | ⟨_, _, _, hdelayed⟩⟩ | ⟨taken, htaken, ⟨_, _, hover⟩ | ⟨_, _, _, htake⟩⟩
  · cases hnone.symm.trans h
  · cases hdefer.symm.trans h
  · cases hdelayed.symm.trans h
  · cases hover.symm.trans h
    exact htaken
  · cases htake.symm.trans h
    exact htaken

theorem State.exists_acceptedAt_iff (s : State) : (∃ src, AcceptedAt s src) ↔ s.candidates ≠ [] := by
  constructor
  · rintro ⟨src, haccepted⟩
    exact State.candidates_ne_nil haccepted
  · intro h
    obtain ⟨src, hsrc⟩ := List.exists_mem_of_ne_nil _ h
    exact ⟨src, ((s.highestAt_iff src).mpr hsrc).1⟩

/-- No priority exceeds PL7. -/
theorem State.candidates_of_priority_seven (h : s.priority = 7) : s.candidates = [] := by
  by_contra hne
  obtain ⟨src, _, _, hlevel⟩ := s.exists_acceptedAt_iff.mpr hne
  have hseven : s.priority.toNat = 7 := by rw [h]; rfl
  have := src.pl.isLt
  omega

end Machine

end Sys2Proof
end

section
/-! SUPPORT. The obligations about the source's examples, the vector tables, the choice at a boundary, and the
steps that run no instruction (spec/30_encoding.md, spec/60_exceptions.md, spec/70_reset_and_hazards.md). -/

namespace Sys2Proof.Machine

/-- Settles O5: each word is the encoding of a well-formed instruction, and the printer computes its text. -/
theorem sourceExamplesDecode : Obligations.SourceExamplesDecode := by
  unfold Obligations.SourceExamplesDecode
  exact ⟨decode_of_encode_eq rfl rfl, rfl, decode_of_encode_eq rfl rfl, rfl,
    decode_of_encode_eq rfl rfl, rfl, decode_of_encode_eq rfl rfl, rfl,
    decode_of_encode_eq rfl rfl, rfl, decode_of_encode_eq rfl rfl, rfl,
    decode_of_encode_eq rfl rfl, rfl, decode_of_encode_eq rfl rfl, rfl,
    decode_of_encode_eq rfl rfl, rfl, decode_of_encode_eq rfl rfl, rfl,
    decode_of_encode_eq rfl rfl, rfl, decode_of_encode_eq rfl rfl, rfl,
    decode_of_encode_eq rfl rfl, rfl, decode_of_encode_eq rfl rfl, rfl,
    decode_of_encode_eq rfl rfl, rfl, decode_of_encode_eq rfl rfl, rfl,
    decode_of_encode_eq rfl rfl, rfl, rfl, rfl, rfl,
    decode_of_encode_eq rfl rfl, rfl, decode_of_encode_eq rfl rfl, rfl,
    decode_of_encode_eq rfl rfl, rfl, decode_of_encode_eq rfl rfl, rfl⟩

/-- Settles O31: by whether the search in the table finds a departure, and then the first one. -/
theorem vectorEntryAddresses : Obligations.VectorEntryAddresses := by
  unfold Obligations.VectorEntryAddresses
  exact ⟨fun _ _ => vectorAddr_of_not_listed, fun _ _ _ a => vectorAddr_of_first_departure a⟩

/-- Settles O32: the candidates are accepted requests, whose priorities lie above the process's. -/
theorem acceptanceComparesPriorities : Obligations.AcceptanceComparesPriorities := by
  unfold Obligations.AcceptanceComparesPriorities
  refine fun s => ⟨s.exists_acceptedAt_iff, State.chooseInterrupt_of_no_candidates,
    fun hseven => State.chooseInterrupt_of_no_candidates (State.candidates_of_priority_seven hseven), ?_⟩
  rintro src u hchoose hzero
  obtain ⟨⟨⟨_, _, hlevel⟩, _⟩, _⟩ := State.chooseInterrupt_some hchoose
  rw [hzero] at hlevel
  exact Nat.not_lt_zero _ hlevel

/-- Settles O33: the source chosen is one of the candidates. -/
theorem takenInterruptIsOfHighestPriority : Obligations.TakenInterruptIsOfHighestPriority := by
  unfold Obligations.TakenInterruptIsOfHighestPriority
  intro s src u hchoose
  obtain ⟨⟨⟨hsrc, hrequest, hlevel⟩, hhighest⟩, hu⟩ := State.chooseInterrupt_some hchoose
  exact ⟨hsrc, hrequest, hlevel, fun other hother hreq hlev => hhighest other ⟨hother, hreq, hlev⟩, hu⟩

/-- Settles O44: the environment does nothing, and without sources only the wait ends. -/
theorem quietBoundaryChangesNothing : Obligations.QuietBoundaryChangesNothing := by
  unfold Obligations.QuietBoundaryChangesNothing
  intro s i hrun hdevice hsources hinputs hmem hdecode
  have hchoose : s.environmentActs.chooseInterrupt = (none, { s with wait := s.wait.over }) := by
    rw [State.environmentActs_quiet hdevice hinputs]
    exact State.chooseInterrupt_of_no_candidates (State.candidates_of_no_sources hsources)
  have hstep := (stepRunsTheDecodedInstruction s _ hrun hchoose).1 i hmem hdecode
  refine ⟨hstep, fun hplaces hdelay => ?_⟩
  rw [hstep, Wait.over_eq_self hplaces hdelay]

/-- Settles O46: the run that is over by the step itself, the other two by the fetch that is refused. -/
theorem stepRefusals : Obligations.StepRefusals := by
  unfold Obligations.StepRefusals
  refine ⟨fun s => step_of_runOver, fun s t hrun hchoose =>
    ⟨fun hmem hpolicy hviolation => ?reserved, fun hdev hrefuse => ?device⟩⟩
  case reserved =>
    obtain ⟨e, hdecode⟩ := (exists_decode_eq_error_iff _).mpr hviolation
    have hunder : decodeUnder t.config.reservedPolicy (t.wordAt t.pc) = .error e := by
      rw [hpolicy]
      exact hdecode
    obtain ⟨row, hfetch⟩ := State.fetchInstr_of_not_decoded (t.loadWord_memory t.pc hmem) hunder
    exact ⟨row, step_of_fetch_error hrun hchoose hfetch⟩
  case device =>
    have hload := t.loadWord_refuse t.pc (Nat.le_of_not_lt hdev) hrefuse
    exact step_of_fetch_error hrun hchoose (State.fetchInstr_of_loadWord_error hload)

end Sys2Proof.Machine
end

section
/-! SUPPORT. The bound of a wait: every boundary with an accepted request is an entry or lowers the bound of
each accepted place, and an entry holds off every request that was accepted with it (spec/60_exceptions.md
R177; log 10). -/

namespace Sys2Proof.Machine

variable {s t u : State} {i : Nat}

/-! ### The bound -/

/-- The part of `entryBound` that the wait gives: the delay left of it, and the free delay of the next wait
where the place is not in this one. -/
def Wait.bound (w : Wait) (i : Nat) : Nat :=
  w.delay + if i ∈ w.places then 0 else Config.entryDelay w.begun

theorem entryBound_eq (s : State) (i : Nat) : entryBound s i = s.choices.length + s.wait.bound i :=
  Nat.add_assoc ..

theorem State.environmentActs_choices (s : State) : s.environmentActs.choices = s.choices := by
  rw [s.environmentActs_frame]

theorem State.environmentActs_wait (s : State) : s.environmentActs.wait = s.wait := by
  rw [s.environmentActs_frame]

theorem State.environmentActs_priority (s : State) : s.environmentActs.priority = s.priority := by
  rw [s.environmentActs_frame]
  rfl

/-- The environment has no part in the bound. -/
theorem entryBound_environmentActs (s : State) (i : Nat) :
    entryBound s.environmentActs i = entryBound s i := by
  rw [entryBound_eq, entryBound_eq, s.environmentActs_choices, s.environmentActs_wait]

/-- Neither has an access, whoever answers it. -/
theorem SameOutsideButDevice.entryBound_eq (h : SameOutsideButDevice s t) (i : Nat) :
    entryBound t i = entryBound s i := by
  rw [Machine.entryBound_eq, Machine.entryBound_eq, h.choices, h.wait]

/-- The wait at a boundary holds an accepted place for no longer than the wait before it. -/
theorem State.waitHere_bound_le (h : RequestAt s i) : s.waitHere.bound i ≤ s.wait.bound i := by
  by_cases hstays : ∃ j ∈ s.wait.places, RequestAt s j
  · obtain ⟨hdelay, hbegun, hplaces⟩ := State.waitHere_continues hstays
    have hplace : i ∈ s.waitHere.places ↔ i ∈ s.wait.places := by
      rw [hplaces, and_iff_left h]
    simp only [Wait.bound, hdelay, hbegun, hplace, le_refl]
  · have hnone : ∀ j ∈ s.wait.places, ¬ RequestAt s j := by simpa using hstays
    have hnew : i ∈ s.acceptedPlaces := (s.requestAt_iff i).mp h
    have hold : i ∉ s.wait.places := fun hi => hnone i hi h
    rw [State.waitHere_begins hnone]
    simp only [Wait.bound, hnew, hold, if_true, if_false]
    omega

/-- A boundary that takes no accepted request uses up a choice or one of the wait's delay. -/
theorem State.chooseInterrupt_none_entryBound_lt (h : RequestAt s i)
    (hchoose : s.chooseInterrupt = (none, u)) : entryBound u i < entryBound s i := by
  have hwait := State.waitHere_bound_le h
  rw [entryBound_eq, entryBound_eq]
  rcases s.chooseInterrupt_cases with ⟨hcandidates, _⟩ |
    ⟨_, ⟨rest, hchoices, hdefer⟩ | ⟨d, hchoices, hdelay, hdelayed⟩⟩ |
    ⟨_, _, ⟨_, _, hover⟩ | ⟨_, _, _, htake⟩⟩
  · obtain ⟨src, _, haccepted⟩ := h
    exact absurd hcandidates (State.candidates_ne_nil haccepted)
  · cases hdefer.symm.trans hchoose
    simp only [hchoices, List.length_cons]
    omega
  · cases hdelayed.symm.trans hchoose
    simp only [Wait.bound, hdelay] at hwait ⊢
    omega
  · cases hover.symm.trans hchoose
  · cases htake.symm.trans hchoose

/-- No boundary adds a choice. -/
theorem State.chooseInterrupt_choices_length_le {chosen : Option IntSource}
    (hchoose : s.chooseInterrupt = (chosen, u)) : u.choices.length ≤ s.choices.length := by
  rcases s.chooseInterrupt_cases with ⟨_, hnone⟩ |
    ⟨_, ⟨rest, hchoices, hdefer⟩ | ⟨d, _, _, hdelayed⟩⟩ |
    ⟨_, _, ⟨_, _, hover⟩ | ⟨_, rest, hchoices, htake⟩⟩
  · cases hnone.symm.trans hchoose
    exact le_rfl
  · cases hdefer.symm.trans hchoose
    simp [hchoices]
  · cases hdelayed.symm.trans hchoose
    exact le_rfl
  · cases hover.symm.trans hchoose
    exact le_rfl
  · cases htake.symm.trans hchoose
    simp [hchoices]

/-! ### Steps -/

/-- After its boundary a step changes the device's state at most of what is outside the processor, and a step
at which an interrupt is chosen is its entry. -/
theorem step_boundary (h : step s = .next t) :
    ∃ chosen u, s.environmentActs.chooseInterrupt = (chosen, u) ∧ SameOutsideButDevice u t ∧
      ∀ src, chosen = some src → u.interruptEntry src = .ok t := by
  rcases (step_next h).2 with ⟨src, u, hchoose, hentry⟩ | ⟨u, i, v, hchoose, hfetch, hexec⟩
  · refine ⟨some src, u, hchoose, State.enterHandler_outside hentry, ?_⟩
    rintro _ ⟨⟩
    exact hentry
  · exact ⟨none, u, hchoose, (State.fetchInstr_outside hfetch).trans (exec_outside hexec), nofun⟩

theorem step_choices_length_le (h : step s = .next t) : t.choices.length ≤ s.choices.length := by
  obtain ⟨chosen, u, hchoose, outside, _⟩ := step_boundary h
  rw [outside.choices, ← s.environmentActs_choices]
  exact State.chooseInterrupt_choices_length_le hchoose

/-- A step whose boundary has an accepted request is an entry, or lowers the bound of its place. -/
theorem step_entryTaken_or_entryBound_lt (hrequest : RequestAt s.environmentActs i)
    (h : step s = .next t) : (∃ taken, EntryTaken s t taken) ∨ entryBound t i < entryBound s i := by
  obtain ⟨chosen, u, hchoose, outside, hentry⟩ := step_boundary h
  cases chosen with
  | some src =>
    obtain ⟨highest, hu⟩ := State.chooseInterrupt_some hchoose
    exact .inl ⟨src, highest, u, hu, hentry src rfl⟩
  | none =>
    rw [outside.entryBound_eq, ← entryBound_environmentActs s]
    exact .inr (State.chooseInterrupt_none_entryBound_lt hrequest hchoose)

/-! ### Entries -/

/-- The process runs at the level of the request taken. -/
theorem EntryTaken.priority {taken : IntSource} (h : EntryTaken s t taken) : t.priority = taken.pl := by
  obtain ⟨_, u, _, hentry⟩ := h
  exact State.interruptEntry_priority hentry

/-- An accepted request does not exceed the one taken. -/
theorem EntryTaken.pl_le {taken src : IntSource} (h : EntryTaken s t taken)
    (hrequest : RequestAt s.environmentActs i) (hsrc : s.environmentActs.sources[i]? = some src) :
    src.pl.toNat ≤ taken.pl.toNat := by
  obtain ⟨src', hsrc', haccepted⟩ := hrequest
  obtain rfl : src' = src := Option.some.inj (hsrc'.symm.trans hsrc)
  exact h.1.2 src' haccepted

/-- The source at a place has the same level at the boundary after an entry. -/
theorem EntryTaken.sources_parameters {taken : IntSource} (h : EntryTaken s t taken) :
    t.environmentActs.sources.map IntSource.parameters =
      s.environmentActs.sources.map IntSource.parameters := by
  obtain ⟨_, u, hu, hentry⟩ := h
  have hsources : t.sources = s.environmentActs.sources := by
    rw [(State.enterHandler_outside hentry).sources, hu]
  rw [t.environmentActs_parameters.sources, hsources]

/-- A request that was accepted at an entry is not accepted at the boundary after it: its level does not exceed
the level taken. -/
theorem EntryTaken.not_requestAt {taken : IntSource} (h : EntryTaken s t taken)
    (hrequest : RequestAt s.environmentActs i) : ¬ RequestAt t.environmentActs i := by
  rintro ⟨after, hafter, _, _, hlevel⟩
  have ⟨src, hsrc, _⟩ := hrequest
  have hparameters := congrArg (·[i]?) h.sources_parameters
  simp only [List.getElem?_map, hafter, hsrc, Option.map_some, Option.some.injEq,
    IntSource.parameters, Prod.mk.injEq] at hparameters
  rw [t.environmentActs_priority, h.priority, hparameters.1] at hlevel
  exact absurd (h.pl_le hrequest hsrc) (Nat.not_le_of_lt hlevel)

/-! ### Runs -/

/-- In a run the bound of a place falls until its request is not accepted or an entry is made. -/
theorem run_entryTaken_within_entryBound (run : Nat → State) (i : Nat)
    (hrun : ∀ n, n ≤ entryBound (run 0) i → step (run n) = .next (run (n + 1))) :
    ∃ n, n ≤ entryBound (run 0) i ∧ (¬ RequestAt (run n).environmentActs i ∨
      RequestAt (run n).environmentActs i ∧ ∃ taken, EntryTaken (run n) (run (n + 1)) taken) := by
  induction hbound : entryBound (run 0) i using Nat.strong_induction_on generalizing run with
  | _ bound ih =>
    subst hbound
    by_cases hrequest : RequestAt (run 0).environmentActs i
    · rcases step_entryTaken_or_entryBound_lt hrequest (hrun 0 (Nat.zero_le _)) with hentry | hlower
      · exact ⟨0, Nat.zero_le _, .inr ⟨hrequest, hentry⟩⟩
      · have hrest : ∀ n, n ≤ entryBound (run 1) i → step (run (n + 1)) = .next (run (n + 1 + 1)) :=
          fun n hn => hrun (n + 1) (Nat.lt_of_le_of_lt hn hlower)
        obtain ⟨n, hn, hresult⟩ := ih _ hlower (fun n => run (n + 1)) hrest rfl
        exact ⟨n + 1, Nat.lt_of_le_of_lt hn hlower, hresult⟩
    · exact ⟨0, Nat.zero_le _, .inl hrequest⟩

end Sys2Proof.Machine
end

section
/-! SUPPORT. The obligation that a request that stays accepted is taken (spec/60_exceptions.md R177;
spec/70_reset_and_hazards.md R208). -/

namespace Sys2Proof.Machine

/-- Settles O35: by the bound that every boundary without an entry lowers, and by the level that an entry
sets. -/
theorem acceptedRequestIsEventuallyTaken : Obligations.AcceptedRequestIsEventuallyTaken := by
  unfold Obligations.AcceptedRequestIsEventuallyTaken
  refine ⟨fun s t i => step_entryTaken_or_entryBound_lt, fun s t i hrequest hzero h => ?zero,
    fun s t => step_choices_length_le, fun run i hrun => ?run⟩
  case zero =>
    refine (step_entryTaken_or_entryBound_lt hrequest h).resolve_right fun hlower => ?_
    rw [hzero] at hlower
    exact Nat.not_lt_zero _ hlower
  case run =>
    obtain ⟨n, hn, hgone | ⟨hrequest, taken, hentry⟩⟩ := run_entryTaken_within_entryBound run i hrun
    · exact ⟨n, hn, .inl hgone⟩
    · exact ⟨n, hn, .inr ⟨taken, hentry, fun src hsrc => hentry.pl_le hrequest hsrc, hentry.priority,
        hentry.not_requestAt hrequest⟩⟩

end Sys2Proof.Machine
end
